-- ==== Sys2Proof/Word.lean ====
section
/-! DEFINITION. The bit-vector types of the machine: bytes, register words and the two register-number types. -/

namespace Sys2Proof

/-- A byte of memory or of an instruction (20_memory.md R30). -/
abbrev Byte := BitVec 8

/-- A 64-bit register, address or offset (10_state.md R16, R18). -/
abbrev Word64 := BitVec 64

/-- One 128-bit lane of a vector (00_scope.md section 6, `lane_n`). -/
abbrev Lane := BitVec 128

/-- The number of a vector register, 0 to 31 (10_state.md R13). -/
abbrev VNum := BitVec 5

/-- The number of a general register, 0 to 15 (10_state.md R16). -/
abbrev GNum := BitVec 4

end Sys2Proof
end

