-- ==== Sys2Proof/Config.lean ====
section
/-! DEFINITION. What the spec leaves to the implementation or to the launch: the parameter types of
00_scope.md section 4 (their values are fields of `State`, so that a statement is for every value), and
the two free values, which have no body. -/

namespace Sys2Proof

/-- The execution mode (00_scope.md R5). `mode32` is protected or compatibility mode; R133 of
60_exceptions.md divides the source's "32-bit Mode" into these and the two older modes. -/
inductive Mode where
  | mode64
  | mode32
  | real
  | v86
  deriving DecidableEq, Repr

/-- `DEFADDR`, the code segment's default address size outside 64-bit mode (30_encoding.md R66). -/
inductive DefAddr where
  | a16
  | a32
  deriving DecidableEq, Repr

/-- The address size `asz` of an instruction (30_encoding.md R66). -/
inductive AddrSize where
  | a16
  | a32
  | a64
  deriving DecidableEq, Repr

/-- `MAXVL`, the width of a full vector register (00_scope.md R4). -/
inductive MaxVL where
  | m128
  | m256
  | m512
  deriving DecidableEq, Repr

/-- `LAWIDTH`, the width of a canonical linear address (20_memory.md R39). -/
inductive LaWidth where
  | w48
  | w57
  deriving DecidableEq, Repr

/-- `FEATURES`, the CPUID flags a form can need (00_scope.md R6). -/
structure Features where
  sse2 : Bool
  avx : Bool
  avx2 : Bool
  avx512vl : Bool
  avx512bw : Bool
  avx10_1 : Bool
  deriving DecidableEq, Repr

/-- What a processor fixes: no step changes it (10_state.md R23). -/
structure Cpu where
  maxvl : MaxVL
  features : Features
  laWidth : LaWidth
  deriving DecidableEq, Repr

/-- The memory oracle (20_memory.md R42). -/
inductive Oracle where
  /-- no other agent writes: a read returns the byte the memory holds -/
  | quietMemory
  /-- other agents may write: a byte read outside the program bytes may be any value -/
  | anyWriter
  deriving DecidableEq, Repr

/-- A free value: the byte an operand read draws under `Oracle.anyWriter` (20_memory.md R36, R42).
Its argument is a counter in `State`, so that each byte read is a value of its own. Log 5. -/
opaque Config.anyByte : Nat → Byte

/-- A free choice: which of several applicable memory faults is reported (60_exceptions.md R138).
Its argument is the same counter. Log 6. -/
opaque Config.faultPick : Nat → Nat

end Sys2Proof
end

