-- ==== Sys2Proof/Machine/AddrSize.lean ====
section
/-! DEFINITION. The address size of an instruction, which decoding and address formation share. -/

namespace Sys2Proof

/-- The address size (30_encoding.md R66): 64, or 32 with a `67` byte, in 64-bit mode; else the default, or with
a `67` byte the other one. -/
def addrSizeOf (m : Mode) (da : DefAddr) (p67 : Bool) : AddrSize :=
  match m with
  | .mode64 => if p67 then .a32 else .a64
  | .mode32 | .real | .v86 =>
    match da with
    | .a16 => if p67 then .a32 else .a16
    | .a32 => if p67 then .a16 else .a32

end Sys2Proof
end

