-- ==== Sys2Proof/Syntax.lean ====
section
/-! DEFINITION. The instructions: one constructor of `Instr` for each row of spec/opcode_table.json, with the
fields that decoding leaves to the meaning. Bits the spec says are ignored (W of REX, VEX and EVEX; REX.X without a
SIB byte) are not kept: both their values are the same instruction. -/

namespace Sys2Proof

/-- The six segments (10_state.md R17). -/
inductive SegReg where
  | es
  | cs
  | ss
  | ds
  | fs
  | gs
  deriving DecidableEq, Repr

/-- The legacy bytes that may stand before any form: one segment override and one `67`
(30_encoding.md R50, R52). -/
structure Prefixes where
  seg : Option SegReg
  addrSize : Bool
  deriving DecidableEq, Repr

/-- A displacement as it stands in the instruction, before sign extension and scaling
(30_encoding.md R62, R66). Its size also fixes ModRM.mod. -/
inductive Disp where
  | none
  | d8 (v : BitVec 8)
  | d16 (v : BitVec 16)
  | d32 (v : BitVec 32)
  deriving DecidableEq, Repr

/-- The addressing forms of ModRM and SIB (30_encoding.md R62 to R66). Register numbers carry their
extension bits. -/
inductive Addr where
  /-- `rm` names the base register (rm ≠ 100) -/
  | base (b : GNum) (disp : Disp)
  /-- a SIB byte with a base register; index number 4 means no index (R64) -/
  | sib (b : GNum) (index : GNum) (scale : BitVec 2) (disp : Disp)
  /-- a SIB byte with base = 101 and mod = 00: no base, a disp32 -/
  | sibNoBase (index : GNum) (scale : BitVec 2) (d : BitVec 32)
  /-- mod = 00, rm = 101: RIP-relative in 64-bit mode, else the disp32 alone (R62, R63) -/
  | disp32 (d : BitVec 32)
  /-- 16-bit addressing, `rm` = `form` (R66) -/
  | idx16 (form : BitVec 3) (disp : Disp)
  /-- 16-bit addressing, mod = 00, rm = 110: the disp16 alone (R66) -/
  | disp16 (d : BitVec 16)
  deriving DecidableEq, Repr

/-- Operand 2, ModRM:r/m (30_encoding.md R56, R59). -/
inductive Operand where
  | reg (s : VNum)
  | mem (a : Addr)
  deriving DecidableEq, Repr

/-- The fields of an EVEX prefix that the meaning reads (30_encoding.md R74): `vvvv` and `vp` are the stored
(inverted) bits, `1111` and `1` in every form that executes. -/
structure EvexCtl where
  vvvv : BitVec 4
  vp : Bool
  b : Bool
  z : Bool
  aaa : BitVec 3
  deriving DecidableEq, Repr

/-- The six forms (00_scope.md R2). -/
inductive Form where
  | sse
  | vex128
  | vex256
  | evex128
  | evex256
  | evex512
  deriving DecidableEq, Repr

/-- One constructor for each row of spec/opcode_table.json. `d` is the destination register number, `src` operand 2,
`imm` the immediate byte; `vvvv` is the stored (inverted) VEX register specifier. -/
inductive Instr where
  /-- row 1: `F3 0F 70 /r ib` (30_encoding.md R51, 40_pshufhw_sse.md R95) -/
  | sse (p : Prefixes) (d : VNum) (src : Operand) (imm : BitVec 8)
  /-- row 2: `F3 REX 0F 70 /r ib` (30_encoding.md R53, 40_pshufhw_sse.md R95) -/
  | sseRex (p : Prefixes) (d : VNum) (src : Operand) (imm : BitVec 8)
  /-- row 3: VEX128 with the two-byte prefix (30_encoding.md R71, 41_vpshufhw_vex.md R101) -/
  | vex128C5 (p : Prefixes) (vvvv : BitVec 4) (d : VNum) (src : Operand) (imm : BitVec 8)
  /-- row 4: VEX128 with the three-byte prefix (30_encoding.md R72, 41_vpshufhw_vex.md R101) -/
  | vex128C4 (p : Prefixes) (vvvv : BitVec 4) (d : VNum) (src : Operand) (imm : BitVec 8)
  /-- row 5: VEX256 with the two-byte prefix (30_encoding.md R71, 41_vpshufhw_vex.md R102) -/
  | vex256C5 (p : Prefixes) (vvvv : BitVec 4) (d : VNum) (src : Operand) (imm : BitVec 8)
  /-- row 6: VEX256 with the three-byte prefix (30_encoding.md R72, 41_vpshufhw_vex.md R102) -/
  | vex256C4 (p : Prefixes) (vvvv : BitVec 4) (d : VNum) (src : Operand) (imm : BitVec 8)
  /-- row 7: EVEX128 (30_encoding.md R74, 42_vpshufhw_evex.md R113) -/
  | evex128 (p : Prefixes) (e : EvexCtl) (d : VNum) (src : Operand) (imm : BitVec 8)
  /-- row 8: EVEX256 (30_encoding.md R74, 42_vpshufhw_evex.md R114) -/
  | evex256 (p : Prefixes) (e : EvexCtl) (d : VNum) (src : Operand) (imm : BitVec 8)
  /-- row 9: EVEX512 (30_encoding.md R74, 42_vpshufhw_evex.md R115) -/
  | evex512 (p : Prefixes) (e : EvexCtl) (d : VNum) (src : Operand) (imm : BitVec 8)
  deriving DecidableEq, Repr

/-- The destination register number of an instruction, ModRM:reg (30_encoding.md R56). -/
def Instr.dest : Instr → VNum
  | .sse _ d _ _ => d
  | .sseRex _ d _ _ => d
  | .vex128C5 _ _ d _ _ => d
  | .vex128C4 _ _ d _ _ => d
  | .vex256C5 _ _ d _ _ => d
  | .vex256C4 _ _ d _ _ => d
  | .evex128 _ _ d _ _ => d
  | .evex256 _ _ d _ _ => d
  | .evex512 _ _ d _ _ => d

/-- Operand 2 of an instruction, ModRM:r/m (30_encoding.md R56). -/
def Instr.source : Instr → Operand
  | .sse _ _ src _ => src
  | .sseRex _ _ src _ => src
  | .vex128C5 _ _ _ src _ => src
  | .vex128C4 _ _ _ src _ => src
  | .vex256C5 _ _ _ src _ => src
  | .vex256C4 _ _ _ src _ => src
  | .evex128 _ _ _ src _ => src
  | .evex256 _ _ _ src _ => src
  | .evex512 _ _ _ src _ => src

/-- The immediate byte of an instruction (30_encoding.md R57). -/
def Instr.imm : Instr → BitVec 8
  | .sse _ _ _ imm => imm
  | .sseRex _ _ _ imm => imm
  | .vex128C5 _ _ _ _ imm => imm
  | .vex128C4 _ _ _ _ imm => imm
  | .vex256C5 _ _ _ _ imm => imm
  | .vex256C4 _ _ _ _ imm => imm
  | .evex128 _ _ _ _ imm => imm
  | .evex256 _ _ _ _ imm => imm
  | .evex512 _ _ _ _ imm => imm

/-- The segment and address-size prefixes of an instruction. -/
def Instr.prefixes : Instr → Prefixes
  | .sse p _ _ _ => p
  | .sseRex p _ _ _ => p
  | .vex128C5 p _ _ _ _ => p
  | .vex128C4 p _ _ _ _ => p
  | .vex256C5 p _ _ _ _ => p
  | .vex256C4 p _ _ _ _ => p
  | .evex128 p _ _ _ _ => p
  | .evex256 p _ _ _ _ => p
  | .evex512 p _ _ _ _ => p

/-- The form an instruction is an encoding of (00_scope.md R2). -/
def Instr.form : Instr → Form
  | .sse _ _ _ _ => .sse
  | .sseRex _ _ _ _ => .sse
  | .vex128C5 _ _ _ _ _ => .vex128
  | .vex128C4 _ _ _ _ _ => .vex128
  | .vex256C5 _ _ _ _ _ => .vex256
  | .vex256C4 _ _ _ _ _ => .vex256
  | .evex128 _ _ _ _ _ => .evex128
  | .evex256 _ _ _ _ _ => .evex256
  | .evex512 _ _ _ _ _ => .evex512

end Sys2Proof
end

