-- ==== Sys2Proof/WellFormed.lean ====
section
/-! DEFINITION. Which instructions an encoding can spell, in a decoding context: register numbers inside
what the encoding's bits reach (00_scope.md R7, 30_encoding.md R60) and addressing forms ModRM and SIB can
express (R62 to R66). -/

namespace Sys2Proof

/-- What decoding depends on besides the bytes: the mode (R5), `DEFADDR` (R66), and whether the processor
recognises VEX and EVEX at all, which matters outside 64-bit mode only (60_exceptions.md R132). -/
structure Ctx where
  mode : Mode
  defAddr : DefAddr
  vex : Bool
  evex : Bool
  deriving DecidableEq, Repr

/-- In 64-bit mode. -/
def Ctx.long (c : Ctx) : Bool := decide (c.mode = .mode64)

/-- The address size in the context, with or without a `67` byte (30_encoding.md R66). -/
def Ctx.asz (c : Ctx) (p67 : Bool) : AddrSize := addrSizeOf c.mode c.defAddr p67

/-- The low three bits of a general register number. -/
def GNum.low (r : GNum) : BitVec 3 := r.extractLsb' 0 3

/-- A displacement of 32- or 64-bit addressing: absent, one byte, four bytes. -/
def Disp.ok32 : Disp → Bool
  | .none => true
  | .d8 _ => true
  | .d16 _ => false
  | .d32 _ => true

/-- A displacement of 16-bit addressing: absent, one byte, two bytes. -/
def Disp.ok16 : Disp → Bool
  | .none => true
  | .d8 _ => true
  | .d16 _ => true
  | .d32 _ => false

/-- An addressing form the address size and the first `ng` general registers can spell. -/
def Addr.ok (asz : AddrSize) (ng : Nat) : Addr → Bool
  | .base b disp =>
    decide (asz ≠ .a16) && decide (b.toNat < ng) && decide (b.low ≠ 4) && disp.ok32 &&
      (decide (disp ≠ .none) || decide (b.low ≠ 5))
  | .sib b i _ disp =>
    decide (asz ≠ .a16) && decide (b.toNat < ng) && decide (i.toNat < ng) && disp.ok32 &&
      (decide (disp ≠ .none) || decide (b.low ≠ 5))
  | .sibNoBase i _ _ => decide (asz ≠ .a16) && decide (i.toNat < ng)
  | .disp32 _ => decide (asz ≠ .a16)
  | .idx16 form disp =>
    decide (asz = .a16) && disp.ok16 && (decide (disp ≠ .none) || decide (form ≠ 6))
  | .disp16 _ => decide (asz = .a16)

/-- Operand 2 within the first `nv` vector and `ng` general registers. -/
def Operand.ok (asz : AddrSize) (nv ng : Nat) : Operand → Bool
  | .reg s => decide (s.toNat < nv)
  | .mem a => a.ok asz ng

/-- Whether the operand is a memory operand addressed with 16 bits. -/
def Operand.mem16 (asz : AddrSize) : Operand → Bool
  | .reg _ => false
  | .mem _ => decide (asz = .a16)

/-- Destination and source within the given register counts, outside 64-bit mode within the first eight. -/
def Ctx.regsOk (c : Ctx) (p : Prefixes) (nvd nvs ng : Nat) (d : VNum) (src : Operand) : Bool :=
  let cut := fun n => if c.long then n else 8
  decide (d.toNat < cut nvd) && src.ok (c.asz p.addrSize) (cut nvs) (cut ng)

/-- A two-byte VEX prefix outside 64-bit mode has bits 7:6 of its payload set, and bit 6 is the top bit of
`vvvv` (30_encoding.md R71, R83). -/
def Ctx.c5Ok (c : Ctx) (vvvv : BitVec 4) : Bool := c.long || (c.vex && vvvv.getLsbD 3)

def Ctx.c4Ok (c : Ctx) : Bool := c.long || c.vex

/-- Protected and compatibility mode refuse an EVEX memory operand with 16-bit addressing (R66); the two older
modes raise #UD for every EVEX form. -/
def Ctx.refusesMem16 (c : Ctx) (p : Prefixes) (src : Operand) : Bool :=
  decide (c.mode = .mode32) && src.mem16 (c.asz p.addrSize)

def Ctx.evexOk (c : Ctx) (p : Prefixes) (src : Operand) : Bool :=
  (c.long || c.evex) && !c.refusesMem16 p src

/-- The instructions that have an encoding in the context `c`. -/
def Instr.wf (c : Ctx) : Instr → Bool
  | .sse p d src _ => c.regsOk p 8 8 8 d src
  | .sseRex p d src _ => c.long && c.regsOk p 16 16 16 d src
  | .vex128C5 p vvvv d src _ => c.c5Ok vvvv && c.regsOk p 16 8 8 d src
  | .vex128C4 p _ d src _ => c.c4Ok && c.regsOk p 16 16 16 d src
  | .vex256C5 p vvvv d src _ => c.c5Ok vvvv && c.regsOk p 16 8 8 d src
  | .vex256C4 p _ d src _ => c.c4Ok && c.regsOk p 16 16 16 d src
  | .evex128 p _ d src _ => c.evexOk p src && c.regsOk p 32 32 16 d src
  | .evex256 p _ d src _ => c.evexOk p src && c.regsOk p 32 32 16 d src
  | .evex512 p _ d src _ => c.evexOk p src && c.regsOk p 32 32 16 d src

end Sys2Proof
end

