-- ==== Sys2Proof/Decode.lean ====
section
/-! DEFINITION. From bytes to an instruction (30_encoding.md), total on any list of bytes: an instruction and the
bytes after it, an undefined encoding (#UD), too few bytes, or a refusal by name. Then the encoder, written from the
same tables, and the length of an instruction. -/

namespace Sys2Proof

/-- Why the decoder gives bytes no meaning. Each is a refusal by the spec's own name. -/
inductive DecodeRefusal where
  /-- the bytes are none of the six forms (00_scope.md R9 (c), 30_encoding.md R83, R86), or spell an older instruction
  outside 64-bit mode on a processor without the VEX or EVEX family (60_exceptions.md R132; log 15) -/
  | notPSHUFHW
  /-- an odd sequence of legacy bytes before the SSE form (R52, R53), or a repeated segment override or `67` before
  a VEX or EVEX form (R50, R52) -/
  | prefixCombination
  /-- an EVEX form outside 64-bit mode with an extension bit stored as 0 (R78) -/
  | evexExtensionBitsMode32
  /-- an EVEX form with a memory operand and 16-bit addressing (R66) -/
  | evex16BitAddressing
  deriving DecidableEq, Repr

/-- In real-address or virtual-8086 mode, which do not recognise VEX and EVEX forms (60_exceptions.md R133). -/
def Ctx.old (c : Ctx) : Bool := decide (c.mode = .real) || decide (c.mode = .v86)

/-- What decoding a list of bytes answers. -/
inductive Decoded where
  | instr (i : Instr) (rest : List Byte)
  /-- an encoding that raises #UD and matches no row of the table, or follows a byte that makes it one -/
  | undefined
  /-- the bytes end before the instruction does -/
  | truncated
  | refused (r : DecodeRefusal)
  deriving DecidableEq, Repr

/-! ## Fields of single bytes -/

/-- ModRM.mod and SIB.scale: bits 7:6 (30_encoding.md R55, R64). -/
def fieldTop (b : Byte) : BitVec 2 := b.extractLsb' 6 2

/-- ModRM.reg and SIB.index: bits 5:3 (R55, R64). -/
def fieldMid (b : Byte) : BitVec 3 := b.extractLsb' 3 3

/-- ModRM.rm and SIB.base: bits 2:0 (R55, R64). -/
def fieldLow (b : Byte) : BitVec 3 := b.extractLsb' 0 3

/-- A byte from its fields of two, three and three bits. -/
def ofFields (top : BitVec 2) (mid low : BitVec 3) : Byte := top ++ mid ++ low

/-- A four-bit register number from its extension bit and three field bits (R60). -/
def gnum (x : Bool) (f : BitVec 3) : GNum := BitVec.ofBool x ++ f

/-- A five-bit register number from its two extension bits and three field bits (R60, R78). -/
def vnum (x' x : Bool) (f : BitVec 3) : VNum := BitVec.ofBool x' ++ BitVec.ofBool x ++ f

/-! ## Legacy bytes before the instruction proper -/

/-- The segment an override byte names (30_encoding.md R52). -/
def segOverride (b : Byte) : Option SegReg :=
  if b = 0x26 then some .es
  else if b = 0x2E then some .cs
  else if b = 0x36 then some .ss
  else if b = 0x3E then some .ds
  else if b = 0x64 then some .fs
  else if b = 0x65 then some .gs
  else none

def isSegByte (b : Byte) : Bool := (segOverride b).isSome

/-- A REX byte is `0100WRXB`; it exists in 64-bit mode only (R53). -/
def isRex (c : Ctx) (b : Byte) : Bool := c.long && decide (b.extractLsb' 4 4 = 4)

/-- A byte that may stand before the instruction proper (R52, R53, R54). -/
def isLeading (c : Ctx) (b : Byte) : Bool :=
  isSegByte b || decide (b = 0x66) || decide (b = 0x67) || decide (b = 0xF0) || decide (b = 0xF2) ||
    decide (b = 0xF3) || isRex c b

/-- The leading bytes, and the bytes from the first other one on. -/
def splitLeading (c : Ctx) : List Byte → List Byte × List Byte
  | [] => ([], [])
  | b :: bs =>
    if isLeading c b then (b :: (splitLeading c bs).1, (splitLeading c bs).2) else ([], b :: bs)

/-- At most one segment override and at most one `67` (R50, R52). -/
def singleOverrides (lead : List Byte) : Bool :=
  decide ((lead.filter isSegByte).length ≤ 1) && decide (lead.count 0x67 ≤ 1)

/-- The REX byte that takes effect: the one immediately before the opcode bytes (R53). -/
def rexOf (c : Ctx) (lead : List Byte) : Option Byte := lead.getLast?.filter (isRex c)

/-- The leading bytes the SSE form admits (R52, R53): `F3` once, one segment override, one `67`, no `66`, no `F2`, at
most one LOCK, and a REX byte only as the last of them. -/
def sseLeadOk (c : Ctx) (lead : List Byte) : Bool :=
  decide (lead.count 0xF3 = 1) && singleOverrides lead && decide (lead.count 0x66 = 0) &&
    decide (lead.count 0xF2 = 0) && decide (lead.count 0xF0 ≤ 1) &&
    decide ((lead.filter (isRex c)).length = if (rexOf c lead).isSome then 1 else 0)

/-- A leading byte that makes a VEX or EVEX form raise #UD: `66`, `F2`, `F3`, REX or LOCK (R73 (c), R75 (e), R54). -/
def spoilsVex (c : Ctx) (b : Byte) : Bool :=
  decide (b = 0x66) || decide (b = 0xF2) || decide (b = 0xF3) || decide (b = 0xF0) || isRex c b

/-- The segment override and address-size byte among the leading bytes. -/
def prefixesOf (lead : List Byte) : Prefixes :=
  { seg := lead.findSome? segOverride, addrSize := lead.contains 0x67 }

/-! ## ModRM, SIB, displacement, immediate -/

/-- The register-extension bits, after inversion where the encoding stores them inverted (R53, R71, R72, R74).
`xs` is the bit that extends the source register number: X in EVEX forms, else none (R60). -/
structure Ext where
  r' : Bool
  r : Bool
  x : Bool
  b : Bool
  xs : Bool
  deriving DecidableEq, Repr

/-- A 16-bit little-endian field (R64). -/
def take16 : List Byte → Option (BitVec 16 × List Byte)
  | b0 :: b1 :: bs => some (b1 ++ b0, bs)
  | _ => none

/-- A 32-bit little-endian field (R64). -/
def take32 : List Byte → Option (BitVec 32 × List Byte)
  | b0 :: b1 :: b2 :: b3 :: bs => some (b3 ++ b2 ++ b1 ++ b0, bs)
  | _ => none

/-- The displacement that mod = 00, 01, 10 calls for (R62, R66). -/
def takeDisp (asz : AddrSize) (mod : BitVec 2) (bs : List Byte) : Option (Disp × List Byte) :=
  if mod = 0 then some (.none, bs)
  else if mod = 1 then
    match bs with
    | b :: bs => some (.d8 b, bs)
    | [] => none
  else if asz = .a16 then (take16 bs).map fun (v, bs) => (.d16 v, bs)
  else (take32 bs).map fun (v, bs) => (.d32 v, bs)

/-- The memory operand of 16-bit addressing (R66). -/
def takeAddr16 (mod : BitVec 2) (rm : BitVec 3) (bs : List Byte) : Option (Addr × List Byte) :=
  if mod = 0 ∧ rm = 6 then (take16 bs).map fun (v, bs) => (.disp16 v, bs)
  else (takeDisp .a16 mod bs).map fun (d, bs) => (.idx16 rm d, bs)

/-- The memory operand of 32- and 64-bit addressing that has a SIB byte (R62, R64). -/
def takeSib (e : Ext) (mod : BitVec 2) (bs : List Byte) : Option (Addr × List Byte) :=
  match bs with
  | [] => none
  | sib :: bs =>
    if mod = 0 ∧ fieldLow sib = 5 then
      (take32 bs).map fun (v, bs) => (.sibNoBase (gnum e.x (fieldMid sib)) (fieldTop sib) v, bs)
    else
      (takeDisp .a32 mod bs).map fun (d, bs) =>
        (.sib (gnum e.b (fieldLow sib)) (gnum e.x (fieldMid sib)) (fieldTop sib) d, bs)

/-- The memory operand of 32- and 64-bit addressing (R62). -/
def takeAddr32 (e : Ext) (mod : BitVec 2) (rm : BitVec 3) (bs : List Byte) : Option (Addr × List Byte) :=
  if rm = 4 then takeSib e mod bs
  else if mod = 0 ∧ rm = 5 then (take32 bs).map fun (v, bs) => (.disp32 v, bs)
  else (takeDisp .a32 mod bs).map fun (d, bs) => (.base (gnum e.b rm) d, bs)

/-- Operand 2 (R59): a register for mod = 11, else a memory operand. -/
def takeOperand (asz : AddrSize) (e : Ext) (mod : BitVec 2) (rm : BitVec 3) (bs : List Byte) :
    Option (Operand × List Byte) :=
  if mod = 3 then some (.reg (vnum e.xs e.b rm), bs)
  else
    (if asz = .a16 then takeAddr16 mod rm bs else takeAddr32 e mod rm bs).map
      fun (a, bs) => (.mem a, bs)

/-- What follows the opcode byte: destination, operand 2, immediate (R50, R56, R57). -/
structure Body where
  d : VNum
  src : Operand
  imm : BitVec 8
  deriving DecidableEq, Repr

def takeBody (asz : AddrSize) (e : Ext) : List Byte → Option (Body × List Byte)
  | [] => none
  | modrm :: bs =>
    match takeOperand asz e (fieldTop modrm) (fieldLow modrm) bs with
    | some (src, imm :: rest) => some (⟨vnum e.r' e.r (fieldMid modrm), src, imm⟩, rest)
    | _ => none

/-! ## The three shapes -/

/-- The bytes after `0F`: the SSE form (R51 to R54). -/
def decodeSse (c : Ctx) (lead : List Byte) (bs : List Byte) : Decoded :=
  match bs with
  | [] => .truncated
  | op :: bs =>
    if op ≠ 0x70 ∨ lead.count 0xF3 = 0 then .refused .notPSHUFHW
    else if !sseLeadOk c lead then .refused .prefixCombination
    else
      let p := prefixesOf lead
      let rex := (rexOf c lead).getD 0x40
      let e : Ext :=
        { r' := false, r := rex.getLsbD 2, x := rex.getLsbD 1, b := rex.getLsbD 0, xs := false }
      match takeBody (c.asz p.addrSize) e bs with
      | none => .truncated
      | some (y, rest) =>
        if lead.contains 0xF0 then .undefined
        else if (rexOf c lead).isSome then .instr (.sseRex p y.d y.src y.imm) rest
        else .instr (.sse p y.d y.src y.imm) rest

/-- What the leading bytes make of a VEX or EVEX form: #UD after one that spoils it (R73 (c), R75 (e), R54), a
refusal after a repeated override (#UD all the same in the modes that do not recognise the form, R73 (d), R75 (e)).
DESIGN CHOICE: in the other modes the refusal comes before every exception the form itself would raise, #UD for vvvv, V',
b, CPUID or enabling bits and #NM included (log 14). -/
def afterLead (c : Ctx) (lead : List Byte) (i : Instr) (rest : List Byte) : Decoded :=
  if lead.any (spoilsVex c) then .undefined
  else if singleOverrides lead then .instr i rest
  else if c.old then .undefined
  else .refused .prefixCombination

/-- The bytes after a VEX prefix, from the opcode byte on (R70). -/
def decodeVexBody (c : Ctx) (lead : List Byte) (e : Ext)
    (mk : Prefixes → VNum → Operand → BitVec 8 → Instr) (bs : List Byte) : Decoded :=
  let p := prefixesOf lead
  match takeBody (c.asz p.addrSize) e bs with
  | none => .truncated
  | some (y, rest) => afterLead c lead (mk p y.d y.src y.imm) rest

/-- The bytes after `C5`: the two-byte VEX prefix (R71, R83). Outside 64-bit mode `C5` is one only before `11` and on a
processor with the VEX family (60_exceptions.md R132; log 15). -/
def decodeC5 (c : Ctx) (lead : List Byte) (bs : List Byte) : Decoded :=
  match bs with
  | [] => .truncated
  | v1 :: bs =>
    if !c.long && decide (fieldTop v1 ≠ 3) then .refused .notPSHUFHW
    else if !c.long && !c.vex then .refused .notPSHUFHW
    else
      match bs with
      | [] => .truncated
      | op :: bs =>
        if op ≠ 0x70 ∨ v1.extractLsb' 0 2 ≠ 2 then .refused .notPSHUFHW
        else
          let e : Ext := { r' := false, r := !v1.getLsbD 7, x := false, b := false, xs := false }
          let vvvv := v1.extractLsb' 3 4
          if v1.getLsbD 2 then decodeVexBody c lead e (fun p => .vex256C5 p vvvv) bs
          else decodeVexBody c lead e (fun p => .vex128C5 p vvvv) bs

/-- The bytes after `C4`: the three-byte VEX prefix (R72, R83), outside 64-bit mode as `C5`, and B ignored there. -/
def decodeC4 (c : Ctx) (lead : List Byte) (bs : List Byte) : Decoded :=
  match bs with
  | [] => .truncated
  | v1 :: bs =>
    if !c.long && decide (fieldTop v1 ≠ 3) then .refused .notPSHUFHW
    else if !c.long && !c.vex then .refused .notPSHUFHW
    else
      match bs with
      | v2 :: op :: bs =>
        if op ≠ 0x70 ∨ v2.extractLsb' 0 2 ≠ 2 ∨ v1.extractLsb' 0 5 ≠ 1 then .refused .notPSHUFHW
        else
          let e : Ext :=
            { r' := false, r := !v1.getLsbD 7, x := !v1.getLsbD 6, b := c.long && !v1.getLsbD 5,
              xs := false }
          let vvvv := v2.extractLsb' 3 4
          if v2.getLsbD 2 then decodeVexBody c lead e (fun p => .vex256C4 p vvvv) bs
          else decodeVexBody c lead e (fun p => .vex128C4 p vvvv) bs
      | _ => .truncated

/-- The form that `L'L` selects (R74, R75 (c)); `11` is undefined. -/
def evexForm (ll : BitVec 2) : Option (Prefixes → EvexCtl → VNum → Operand → BitVec 8 → Instr) :=
  if ll = 0 then some .evex128
  else if ll = 1 then some .evex256
  else if ll = 2 then some .evex512
  else none

/-- The fields of `P1` and `P2` that the meaning reads (R74). -/
def evexCtl (p1 p2 : Byte) : EvexCtl :=
  { vvvv := p1.extractLsb' 3 4, vp := p2.getLsbD 3, b := p2.getLsbD 4, z := p2.getLsbD 7,
    aaa := p2.extractLsb' 0 3 }

/-- The encoding's own #UD conditions for an EVEX form (30_encoding.md R75, R77). -/
def EvexCtl.undefined (e : EvexCtl) (src : Operand) : Bool :=
  decide (e.vvvv ≠ 15) || !e.vp ||
    match src with
    | .reg _ => false
    | .mem _ => e.b

/-- The EVEX encodings outside 64-bit mode the spec refuses (R66, R78), in the order of log 20. -/
def evexDoubt (c : Ctx) (p : Prefixes) (p0 : Byte) (src : Operand) : Option DecodeRefusal :=
  if !c.long && decide (p0.extractLsb' 4 4 ≠ 15) then some .evexExtensionBitsMode32
  else if c.refusesMem16 p src then some .evex16BitAddressing
  else none

/-- The register-extension bits of an EVEX prefix (R74, R78). -/
def evexExt (p0 : Byte) : Ext :=
  { r' := !p0.getLsbD 4, r := !p0.getLsbD 7, x := !p0.getLsbD 6, b := !p0.getLsbD 5, xs := !p0.getLsbD 6 }

/-- An encoding that raises #UD, after its bytes are counted: being too long comes first (60_exceptions.md R138). -/
def undefinedBody (c : Ctx) (lead : List Byte) (e : Ext) (bs : List Byte) : Decoded :=
  match takeBody (c.asz (prefixesOf lead).addrSize) e bs with
  | none => .truncated
  | some _ => .undefined

/-- An EVEX form from the opcode's next byte on. An encoding outside 64-bit mode that R66 or R78 refuses raises #UD
where its own fields do so in any case, and else is refused by that name, whether or not R76 or R77 refuse it as well,
and before #UD for CPUID or enabling bits, #NM and the operand's faults: the spec gives no order (DESIGN CHOICE,
log 20). -/
def decodeEvexBody (c : Ctx) (lead : List Byte) (p0 : Byte) (ctl : EvexCtl)
    (mk : Prefixes → EvexCtl → VNum → Operand → BitVec 8 → Instr) (bs : List Byte) : Decoded :=
  let p := prefixesOf lead
  match takeBody (c.asz p.addrSize) (evexExt p0) bs with
  | none => .truncated
  | some (y, rest) =>
    if lead.any (spoilsVex c) then .undefined
    else
      match evexDoubt c p p0 y.src with
      | some r => if ctl.undefined y.src || c.old then .undefined else .refused r
      | none => afterLead c lead (mk p ctl y.d y.src y.imm) rest

/-- The bytes after `62`: the EVEX prefix, outside 64-bit mode only before `11` and on a processor with the EVEX family
(R83, 60_exceptions.md R132; log 15), with the outcomes of R87's order of checks. DESIGN CHOICE: where that order
meets 60_exceptions.md R138, an encoding that is a form's but for its reserved bits or L'L raises #UD only after its
length is known, and with wrong reserved bits and another map, pp or opcode, a length that is no form's, #UD is raised
without it (log 31). -/
def decodeEvex (c : Ctx) (lead : List Byte) (bs : List Byte) : Decoded :=
  match bs with
  | [] => .truncated
  | p0 :: bs =>
    if !c.long && decide (fieldTop p0 ≠ 3) then .refused .notPSHUFHW
    else if !c.long && !c.evex then .refused .notPSHUFHW
    else
      match bs with
      | p1 :: p2 :: op :: bs =>
        let reserved := decide (p0.extractLsb' 2 2 ≠ 0) || !p1.getLsbD 2
        if op ≠ 0x70 ∨ p1.extractLsb' 0 2 ≠ 2 ∨ p0.extractLsb' 0 2 ≠ 1 then
          if reserved then .undefined else .refused .notPSHUFHW
        else
          match evexForm (p2.extractLsb' 5 2) with
          | none => undefinedBody c lead (evexExt p0) bs
          | some mk =>
            if reserved then undefinedBody c lead (evexExt p0) bs
            else decodeEvexBody c lead p0 (evexCtl p1 p2) mk bs
      | _ => .truncated

/-- The decoder (30_encoding.md R83): the leading bytes, then the shape that the next byte starts. The order of its
refusals is log 14's (DESIGN CHOICE). -/
def decode (c : Ctx) (bytes : List Byte) : Decoded :=
  let lead := (splitLeading c bytes).1
  match (splitLeading c bytes).2 with
  | [] => .truncated
  | b :: bs =>
    if b = 0x0F then decodeSse c lead bs
    else if b = 0xC5 then decodeC5 c lead bs
    else if b = 0xC4 then decodeC4 c lead bs
    else if b = 0x62 then decodeEvex c lead bs
    else .refused .notPSHUFHW

/-! ## The encoder -/

/-- The override byte of a segment (R52). -/
def segByte : SegReg → Byte
  | .es => 0x26
  | .cs => 0x2E
  | .ss => 0x36
  | .ds => 0x3E
  | .fs => 0x64
  | .gs => 0x65

/-- The segment override, then the `67`. -/
def encodePrefixes (p : Prefixes) : List Byte :=
  (match p.seg with
    | none => []
    | some r => [segByte r]) ++ (if p.addrSize then [0x67] else [])

def bytes16 (v : BitVec 16) : List Byte := [v.extractLsb' 0 8, v.extractLsb' 8 8]

def bytes32 (v : BitVec 32) : List Byte :=
  [v.extractLsb' 0 8, v.extractLsb' 8 8, v.extractLsb' 16 8, v.extractLsb' 24 8]

def Disp.mod : Disp → BitVec 2
  | .none => 0
  | .d8 _ => 1
  | .d16 _ => 2
  | .d32 _ => 2

def Disp.bytes : Disp → List Byte
  | .none => []
  | .d8 v => [v]
  | .d16 v => bytes16 v
  | .d32 v => bytes32 v

/-- ModRM with the given reg field, SIB and displacement (R55, R62, R64, R66). -/
def encodeOperand (reg : BitVec 3) : Operand → List Byte
  | .reg s => [ofFields 3 reg (s.extractLsb' 0 3)]
  | .mem (.base b disp) => ofFields disp.mod reg b.low :: disp.bytes
  | .mem (.sib b i sc disp) => ofFields disp.mod reg 4 :: ofFields sc i.low b.low :: disp.bytes
  | .mem (.sibNoBase i sc d) => ofFields 0 reg 4 :: ofFields sc i.low 5 :: bytes32 d
  | .mem (.disp32 d) => ofFields 0 reg 5 :: bytes32 d
  | .mem (.idx16 form disp) => ofFields disp.mod reg form :: disp.bytes
  | .mem (.disp16 d) => ofFields 0 reg 6 :: bytes16 d

/-- The X extension bit an operand needs: bit 3 of the index, or bit 4 of a source register (R60, R78). -/
def Operand.extX : Operand → Bool
  | .reg s => s.getLsbD 4
  | .mem (.sib _ i _ _) => i.getLsbD 3
  | .mem (.sibNoBase i _ _) => i.getLsbD 3
  | .mem _ => false

/-- The B extension bit an operand needs: bit 3 of the base or of a source register (R60). -/
def Operand.extB : Operand → Bool
  | .reg s => s.getLsbD 3
  | .mem (.base b _) => b.getLsbD 3
  | .mem (.sib b _ _ _) => b.getLsbD 3
  | .mem _ => false

/-- Opcode byte, ModRM, SIB, displacement and immediate (R50). -/
def encodeBody (d : VNum) (src : Operand) (imm : BitVec 8) : List Byte :=
  0x70 :: (encodeOperand (d.extractLsb' 0 3) src ++ [imm])

/-- REX with W = 0 (R53). -/
def rexByte (d : VNum) (src : Operand) : Byte :=
  0x4#4 ++ BitVec.ofBool false ++ BitVec.ofBool (d.getLsbD 3) ++ BitVec.ofBool src.extX ++
    BitVec.ofBool src.extB

/-- The payload of a two-byte VEX prefix with pp = 10 (R71). -/
def c5Byte (d : VNum) (vvvv : BitVec 4) (l : Bool) : Byte :=
  BitVec.ofBool (!d.getLsbD 3) ++ vvvv ++ BitVec.ofBool l ++ 2#2

/-- The first payload byte of a three-byte VEX prefix with mmmmm = 00001 (R72). -/
def c4Byte1 (d : VNum) (src : Operand) : Byte :=
  BitVec.ofBool (!d.getLsbD 3) ++ BitVec.ofBool (!src.extX) ++ BitVec.ofBool (!src.extB) ++ 1#5

/-- The second payload byte of a three-byte VEX prefix with W = 0, pp = 10 (R72). -/
def c4Byte2 (vvvv : BitVec 4) (l : Bool) : Byte :=
  BitVec.ofBool false ++ vvvv ++ BitVec.ofBool l ++ 2#2

/-- `P0` with mm = 01 (R74). -/
def evexP0 (d : VNum) (src : Operand) : Byte :=
  BitVec.ofBool (!d.getLsbD 3) ++ BitVec.ofBool (!src.extX) ++ BitVec.ofBool (!src.extB) ++
    BitVec.ofBool (!d.getLsbD 4) ++ 1#4

/-- `P1` with W = 0, the fixed bit 1, pp = 10 (R74). -/
def evexP1 (e : EvexCtl) : Byte := BitVec.ofBool false ++ e.vvvv ++ 6#3

/-- `P2` (R74). -/
def evexP2 (e : EvexCtl) (ll : BitVec 2) : Byte :=
  BitVec.ofBool e.z ++ ll ++ BitVec.ofBool e.b ++ BitVec.ofBool e.vp ++ e.aaa

def encodeEvex (p : Prefixes) (e : EvexCtl) (ll : BitVec 2) (d : VNum) (src : Operand) (imm : BitVec 8) :
    List Byte :=
  encodePrefixes p ++
    0x62 :: evexP0 d src :: evexP1 e :: evexP2 e ll :: encodeBody d src imm

/-- The bytes of an instruction in increasing address order, one choice among the spellings the decoder accepts:
the segment override before `67`, `F3` last, ignored bits 0. -/
def encode : Instr → List Byte
  | .sse p d src imm => encodePrefixes p ++ 0xF3 :: 0x0F :: encodeBody d src imm
  | .sseRex p d src imm =>
    encodePrefixes p ++ 0xF3 :: rexByte d src :: 0x0F :: encodeBody d src imm
  | .vex128C5 p vvvv d src imm =>
    encodePrefixes p ++ 0xC5 :: c5Byte d vvvv false :: encodeBody d src imm
  | .vex128C4 p vvvv d src imm =>
    encodePrefixes p ++ 0xC4 :: c4Byte1 d src :: c4Byte2 vvvv false :: encodeBody d src imm
  | .vex256C5 p vvvv d src imm =>
    encodePrefixes p ++ 0xC5 :: c5Byte d vvvv true :: encodeBody d src imm
  | .vex256C4 p vvvv d src imm =>
    encodePrefixes p ++ 0xC4 :: c4Byte1 d src :: c4Byte2 vvvv true :: encodeBody d src imm
  | .evex128 p e d src imm => encodeEvex p e 0 d src imm
  | .evex256 p e d src imm => encodeEvex p e 1 d src imm
  | .evex512 p e d src imm => encodeEvex p e 2 d src imm

/-! ## Length -/

/-- Displacement bytes (R82). -/
def Disp.size : Disp → Nat
  | .none => 0
  | .d8 _ => 1
  | .d16 _ => 2
  | .d32 _ => 4

/-- SIB and displacement bytes of operand 2 (R82). -/
def Operand.size : Operand → Nat
  | .reg _ => 0
  | .mem (.base _ disp) => disp.size
  | .mem (.sib _ _ _ disp) => 1 + disp.size
  | .mem (.sibNoBase _ _ _) => 5
  | .mem (.disp32 _) => 4
  | .mem (.idx16 _ disp) => disp.size
  | .mem (.disp16 _) => 2

/-- Segment override and `67` bytes (R82). -/
def Prefixes.size (p : Prefixes) : Nat := (if p.seg.isSome then 1 else 0) + (if p.addrSize then 1 else 0)

/-- Bytes from the mandatory or VEX or EVEX prefix through the opcode byte (R82): `F3 0F 70`, with REX one more;
two-byte VEX and opcode 3, three-byte VEX and opcode 4, EVEX and opcode 5. -/
def Instr.opcodeSize : Instr → Nat
  | .sse _ _ _ _ => 3
  | .sseRex _ _ _ _ => 4
  | .vex128C5 _ _ _ _ _ => 3
  | .vex128C4 _ _ _ _ _ => 4
  | .vex256C5 _ _ _ _ _ => 3
  | .vex256C4 _ _ _ _ _ => 4
  | .evex128 _ _ _ _ _ => 5
  | .evex256 _ _ _ _ _ => 5
  | .evex512 _ _ _ _ _ => 5

/-- `len` (30_encoding.md R82): leading bytes, opcode bytes, ModRM, SIB, displacement, immediate. -/
def Instr.length (i : Instr) : Nat :=
  i.prefixes.size + i.opcodeSize + 1 + i.source.size + 1

/-! ## Words of the opcode table -/

/-- The longest instruction, 15 bytes (R82). -/
def maxLength : Nat := 15

/-- The bytes of an instruction whose bits are `w` as spec/opcode_table.json numbers them (bit 0 the least
significant bit of the first byte), with zeros above `nbits` up to the longest instruction. -/
def tableBytes (nbits w : Nat) : List Byte :=
  (List.range maxLength).map fun k => BitVec.ofNat 8 ((w % 2 ^ nbits) >>> (8 * k))

/-- The context the table's words are decoded in: 64-bit mode, where all nine rows exist. -/
def tableCtx : Ctx := { mode := .mode64, defAddr := .a32, vex := true, evex := true }

/-- The instruction the decoder reads from a word of the table. -/
def decodeTableWord (nbits w : Nat) : Option Instr :=
  match decode tableCtx (tableBytes nbits w) with
  | .instr i _ => some i
  | _ => none

end Sys2Proof
end

