-- ==== Sys2Proof/Machine/Forms.lean ====
section
/-! DEFINITION. What distinguishes the six forms (00_scope.md R2): vector length, feature condition, displacement
scale. -/

namespace Sys2Proof

/-- The vector length VL of a form in 128-bit lanes (00_scope.md glossary, 42_vpshufhw_evex.md R110). -/
def Form.lanes : Form → Nat
  | .sse => 1
  | .vex128 => 1
  | .vex256 => 2
  | .evex128 => 1
  | .evex256 => 2
  | .evex512 => 4

/-- The size of a memory operand in bytes, VL/8 (20_memory.md R31). -/
def Form.bytes (f : Form) : Nat := 16 * f.lanes

/-- MAXVL in 128-bit lanes (00_scope.md R4). -/
def MaxVL.lanes : MaxVL → Nat
  | .m128 => 1
  | .m256 => 2
  | .m512 => 4

def Form.isEvex : Form → Bool
  | .sse => false
  | .vex128 => false
  | .vex256 => false
  | .evex128 => true
  | .evex256 => true
  | .evex512 => true

/-- The scale N of a one-byte displacement (30_encoding.md R79). -/
def Form.dispScale (f : Form) : Nat := if f.isEvex then f.bytes else 1

/-- The form's CPUID condition (00_scope.md R2, R6). -/
def Form.supported (f : Form) (c : Features) : Bool :=
  match f with
  | .sse => c.sse2
  | .vex128 => c.avx
  | .vex256 => c.avx2
  | .evex128 => (c.avx512vl && c.avx512bw) || c.avx10_1
  | .evex256 => (c.avx512vl && c.avx512bw) || c.avx10_1
  | .evex512 => c.avx512bw || c.avx10_1

end Sys2Proof
end

