-- ==== Sys2Proof/Machine/State.lean ====
section
/-! DEFINITION. The state of the machine: everything the spec names, as plain data, and the state after reset
(10_state.md). INVENTORY.md `## State` lists every field with its rule and its reset value. -/

namespace Sys2Proof.Machine

/-- The contents of one vector register, V[i] (10_state.md R10), as its four 128-bit lanes: `l0` is bits 127:0,
`l3` is bits 511:384. Lanes at or above MAXVL do not exist and are held as zero (log 21). -/
structure VReg where
  l0 : Lane
  l1 : Lane
  l2 : Lane
  l3 : Lane
  deriving DecidableEq, Repr

/-- A segment's base and limit (10_state.md R17; the widths are PRESUMED but for the 64-bit FSBase and GSBase,
log 32). -/
structure Segment where
  base : Word64
  limit : BitVec 32
  deriving DecidableEq, Repr

/-- A range of linear addresses of the launch memory. -/
structure Region where
  base : Nat
  size : Nat
  deriving DecidableEq, Repr

/-- What translation reports for a range (20_memory.md R40): a segment check that fails for accesses through `seg`,
or a page fault with the error-code bits P, U/S and RSVD (60_exceptions.md R139). -/
inductive TransKind where
  | segment (seg : SegReg)
  | page (present user reserved : Bool)
  deriving DecidableEq, Repr

/-- One entry of the parameter `Translate` (20_memory.md R40): an access that touches the range
fails. `report` selects which touched byte a page fault names, which the spec leaves open (log 7). -/
structure TransRange where
  base : Nat
  size : Nat
  kind : TransKind
  report : Nat
  deriving DecidableEq, Repr

/-- The exceptions (60_exceptions.md R139). Each stops the run, with nothing changed (R140, R141): safe, because
no claim about a next state goes through one. -/
inductive Fault where
  /-- invalid opcode, vector 6: raised by the decoder and by every form's enabling conditions (R130 to R137); safe -/
  | ud
  /-- device not available, vector 7: raised by every form when CR0.TS = 1 (R136); safe -/
  | nm
  /-- stack-segment fault with error code 0, vector 12: raised by a memory operand (R131, R137); safe -/
  | ss0
  /-- general protection with error code 0, vector 13: raised by a memory operand, or by an instruction longer than
  15 bytes (R131, R137, 30_encoding.md R82); safe -/
  | gp0
  /-- page fault, vector 14: raised by a memory operand; bits 4 to 0 of the error code, all that R139 gives
  (log 33), and the faulting linear address the hardware records in CR2 (R139); safe -/
  | pf (code : BitVec 5) (addr : Word64)
  deriving DecidableEq, Repr

/-- Why a step gives no meaning. Each refusal is safe: nothing is claimed of the step. -/
inductive Refusal where
  /-- an instruction of the table that has no meaning yet; no arm of `exec` uses it; safe -/
  | notModelled (mnemonic : String)
  /-- raised by decoding: none of the six forms (00_scope.md R9 (c), 30_encoding.md R86), an older instruction where
  VEX or EVEX does not exist included (60_exceptions.md R132); safe -/
  | notPSHUFHW
  /-- raised by decoding: an odd sequence of legacy bytes (30_encoding.md R52, R53); safe -/
  | prefixCombination
  /-- raised by EVEX forms with b = 1 and a register operand (30_encoding.md R77); safe -/
  | evexBWithRegister
  /-- raised by EVEX forms with z = 1 and aaa = 000 (30_encoding.md R76); safe -/
  | zeroingWithoutMask
  /-- raised by decoding: EVEX extension bits outside 64-bit mode (30_encoding.md R78); safe -/
  | evexExtensionBitsMode32
  /-- raised by decoding: an EVEX memory operand with 16-bit addressing (30_encoding.md R66); safe -/
  | evex16BitAddressing
  /-- raised by a memory operand outside the declared ordinary memory (20_memory.md R37); safe -/
  | nonMemoryAddress
  /-- raised by fetching, and by the launch check, where ip or the program comes within 15 bytes of the top of the
  address space (10_state.md R19); safe -/
  | ipWrap
  /-- raised by a misaligned memory operand, and by the launch check, while alignment checking is on
  (20_memory.md R35); safe -/
  | alignmentCheckEnabled
  /-- raised by every step, and by the launch check, while a breakpoint is armed or single-step is on
  (60_exceptions.md R151); safe -/
  | debugEnabled
  /-- raised by the launch check only, in real-address and virtual-8086 mode (60_exceptions.md R133); safe -/
  | unsupportedMode
  /-- raised by fetching a byte that is not the program's, or at an ip that is not canonical (70_reset_and_hazards.md
  R163 LP-Code, 60_exceptions.md R138 group 1); safe -/
  | codeNotFetchable
  deriving DecidableEq, Repr

/-- The whole state. -/
structure State where
  /-- vector registers V[0..31] (10_state.md R10) -/
  v : Vector VReg 32
  /-- opmask registers K[0..7] (R14, which gives 64 bits with AVX512BW only and at least 32 otherwise: 64 on every
  processor is PRESUMED, log 32) -/
  k : Vector Word64 8
  /-- general registers G[0..15] (R16; held whole in every mode, log 32) -/
  g : Vector Word64 16
  /-- the instruction pointer (R18; 64 bits held in every mode, log 32) -/
  ip : Word64
  /-- EFLAGS / RFLAGS (R20; the spec gives no width: 64 bits in every mode is PRESUMED, log 32) -/
  rflags : Word64
  /-- MXCSR (R21; the spec gives no width: 32 bits is PRESUMED, log 32) -/
  mxcsr : BitVec 32
  /-- the x87/MMX registers (R22; number and width PRESUMED, log 32) -/
  x87 : Vector (BitVec 80) 8
  /-- CR0 (R24; width PRESUMED, log 32) -/
  cr0 : Word64
  /-- CR2, the page-fault address (60_exceptions.md R139; width PRESUMED, log 32) -/
  cr2 : Word64
  /-- CR4 (R24; width PRESUMED, log 32) -/
  cr4 : Word64
  /-- XCR0 (R24; width PRESUMED, log 32) -/
  xcr0 : Word64
  /-- the privilege level, 0 to 3 (20_memory.md R35, 60_exceptions.md R145; its two bits: log 32) -/
  cpl : BitVec 2
  /-- the six segments (R17); `fs.base` is FSBase and `gs.base` is GSBase -/
  es : Segment
  cs : Segment
  ss : Segment
  ds : Segment
  fs : Segment
  gs : Segment
  /-- MODE (00_scope.md R5) -/
  mode : Mode
  /-- DEFADDR (30_encoding.md R66) -/
  defAddr : DefAddr
  /-- MAXVL, FEATURES, LAWIDTH (00_scope.md R4, R6, 20_memory.md R39) -/
  cpu : Cpu
  /-- whether a breakpoint is armed (60_exceptions.md R151) -/
  breakpointsArmed : Bool
  /-- memory contents by linear address, canonical: addresses rising, no zero byte listed (20_memory.md R38) -/
  mem : List Host.Cell
  /-- the ranges the launch memory declares as ordinary memory, admitted for operand reads (20_memory.md R37, R38) -/
  map : List Region
  /-- the program, one byte string: the only bytes that are fetched, which no other agent changes (20_memory.md R45,
  70_reset_and_hazards.md R165); none before a launch -/
  program : Option Region
  /-- the parameter Translate (20_memory.md R40) -/
  xlat : List TransRange
  /-- the memory oracle (20_memory.md R42) -/
  oracle : Oracle
  /-- the model's own counter of free bytes drawn (log 5) -/
  fresh : Nat
  deriving DecidableEq, Repr

/-- A vector register of zeros. -/
def VReg.zero : VReg := { l0 := 0, l1 := 0, l2 := 0, l3 := 0 }

/-- A segment after reset with the given base: the limit is FFFFH (PRESUMED, the family's; log 2). -/
def Segment.atReset (base : Word64) : Segment := { base := base, limit := 0xFFFF }

/-- A processor with everything (DESIGN CHOICE, log 1). -/
def fullCpu : Cpu :=
  { maxvl := .m512
    features := { sse2 := true, avx := true, avx2 := true, avx512vl := true, avx512bw := true, avx10_1 := true }
    laWidth := .w48 }

/-- The state after reset. The source gives no reset value (10_state.md R26); the register values are the family's,
from R26's right-hand column and log 2 (PRESUMED); the launch parameters are DESIGN CHOICE (log 1, 4, 5, 7). -/
def State.reset : State :=
  { v := Vector.replicate 32 VReg.zero
    k := Vector.replicate 8 0
    g := (Vector.replicate 16 0).set 2 0x600
    ip := 0xFFF0
    rflags := 0x2
    mxcsr := 0x1F80
    x87 := Vector.replicate 8 0
    cr0 := 0x60000010
    cr2 := 0
    cr4 := 0
    xcr0 := 1
    cpl := 0
    es := Segment.atReset 0
    cs := Segment.atReset 0xFFFF0000
    ss := Segment.atReset 0
    ds := Segment.atReset 0
    fs := Segment.atReset 0
    gs := Segment.atReset 0
    mode := .real
    defAddr := .a16
    cpu := fullCpu
    breakpointsArmed := false
    mem := []
    map := []
    program := none
    xlat := []
    oracle := .quietMemory
    fresh := 0 }

end Sys2Proof.Machine
end

