-- ==== Sys2Proof/Machine/Flags.lean ====
section
/-! DEFINITION. The single bits of the flag and control registers the forms test. No form computes or writes a flag
(10_state.md R20, R21), so there is no flag computation here. -/

namespace Sys2Proof.Machine

/-- CR0.EM, bit 2 (10_state.md R24). -/
def State.em (s : State) : Bool := s.cr0.getLsbD 2

/-- CR0.TS, bit 3 (R24). -/
def State.ts (s : State) : Bool := s.cr0.getLsbD 3

/-- CR4.OSFXSR, bit 9 (R24). -/
def State.osfxsr (s : State) : Bool := s.cr4.getLsbD 9

/-- CR4.OSXSAVE, bit 18 (R24). -/
def State.osxsave (s : State) : Bool := s.cr4.getLsbD 18

/-- XCR0[2:1] = 11b: SSE and AVX state enabled (R24, 60_exceptions.md R135). -/
def State.ymmEnabled (s : State) : Bool := decide (s.xcr0.extractLsb' 1 2 = 3)

/-- XCR0[7:5] = 111b: opmask, ZMM_Hi256 and Hi16_ZMM state enabled (R24, 60_exceptions.md R135). -/
def State.zmmEnabled (s : State) : Bool := decide (s.xcr0.extractLsb' 5 3 = 7)

/-- Alignment checking is on: CR0.AM = 1, EFLAGS.AC = 1, privilege level 3 (20_memory.md R35). The spec gives the two
bits no position; bit 18 of both registers is PRESUMED, the family's (log 10). -/
def State.alignmentChecking (s : State) : Bool :=
  s.cr0.getLsbD 18 && s.rflags.getLsbD 18 && decide (s.cpl = 3)

/-- Debug features are on: the single-step flag is set or a breakpoint is armed (60_exceptions.md R151). The flag's
position, bit 8 of RFLAGS, is PRESUMED, the family's (log 11). -/
def State.debugOn (s : State) : Bool := s.rflags.getLsbD 8 || s.breakpointsArmed

end Sys2Proof.Machine
end

