-- ==== Sys2Proof/Machine/Ops.lean ====
section
/-! DEFINITION. The named operations over memory and registers, the sequencing of outcomes, and raising an
exception. -/

namespace Sys2Proof.Machine

/-! ## Outcomes -/

/-- Go on with the value of an outcome, or stop as it does. -/
def andThen {α β : Type} (o : Host.Outcome α Fault Refusal) (f : α → Host.Outcome β Fault Refusal) :
    Host.Outcome β Fault Refusal :=
  match o with
  | .next a => f a
  | .fault e => .fault e
  | .refused r => .refused r

/-- Raising an exception (60_exceptions.md R140, R141): the step ends in the fault, and nothing has changed. The spec
describes no delivery, no handler and no return (R141, R142), so there is none; log 22. -/
def raise {α : Type} (e : Fault) : Host.Outcome α Fault Refusal := .fault e

/-- The vector number of an exception (60_exceptions.md R139). -/
def Fault.vector : Fault → Nat
  | .ud => 6
  | .nm => 7
  | .ss0 => 12
  | .gp0 => 13
  | .pf _ _ => 14

/-- The error code of an exception, where it has one (R139). PRESUMED: it has 32 bits. DESIGN CHOICE: bits 5 and up of a
page fault's are zero, because R139 gives bits 0 to 4 and no others (log 33). -/
def Fault.errorCode : Fault → Option (BitVec 32)
  | .ud => none
  | .nm => none
  | .ss0 => some 0
  | .gp0 => some 0
  | .pf code _ => some (code.setWidth 32)

/-- The address an exception has the hardware record in CR2 (R139). -/
def Fault.cr2 : Fault → Option Word64
  | .ud => none
  | .nm => none
  | .ss0 => none
  | .gp0 => none
  | .pf _ addr => some addr

/-- A page fault's error code for a data read (R139): bit 0 P, bit 1 W/R = 0, bit 2 U/S, bit 3 RSVD, bit 4 I/D = 0. -/
def pageFaultCode (present user reserved : Bool) : BitVec 5 :=
  BitVec.ofBool false ++ BitVec.ofBool reserved ++ BitVec.ofBool user ++ BitVec.ofBool false ++
    BitVec.ofBool present

/-! ## Memory: canonical lists of cells -/

/-- The byte at an address; an unlisted address holds zero (log 4). -/
def memRead : List Host.Cell → Nat → Byte
  | [], _ => 0
  | (k, b) :: m, a => if k = a then b else memRead m a

/-- Insert or remove a cell, keeping addresses rising and no zero byte listed. -/
def memInsert : List Host.Cell → Nat → Byte → List Host.Cell
  | [], a, b => if b = 0 then [] else [(a, b)]
  | (k, c) :: m, a, b =>
    if a < k then (if b = 0 then (k, c) :: m else (a, b) :: (k, c) :: m)
    else if a = k then (if b = 0 then m else (a, b) :: m)
    else (k, c) :: memInsert m a b

/-- Write a byte; the address space has 2^64 bytes (20_memory.md R30). -/
def memWrite (m : List Host.Cell) (a : Nat) (b : Byte) : List Host.Cell :=
  if a < 2 ^ 64 then memInsert m a b else m

/-- Write bytes at increasing addresses. -/
def memWriteList (m : List Host.Cell) (a : Nat) : List Byte → List Host.Cell
  | [] => m
  | b :: bs => memWriteList (memWrite m a b) (a + 1) bs

/-- The canonical form from address `lo` on: addresses strictly rising and below 2^64, no zero byte listed. -/
def memSorted (lo : Nat) : List Host.Cell → Bool
  | [] => true
  | (k, b) :: m => decide (lo ≤ k) && decide (k < 2 ^ 64) && decide (b ≠ 0) && memSorted (k + 1) m

/-- The canonical form of memory. -/
def memWf (m : List Host.Cell) : Bool := memSorted 0 m

/-! ## Regions of the launch memory -/

def Region.holds (r : Region) (a : Nat) : Bool := decide (r.base ≤ a) && decide (a < r.base + r.size)

/-- Ordinary memory, admitted for operand reads (20_memory.md R37). -/
def State.ordinary (s : State) (a : Nat) : Bool :=
  s.map.any fun r => r.holds a

/-- Program bytes, which no other agent changes (20_memory.md R45). -/
def State.programByte (s : State) (a : Nat) : Bool :=
  s.program.any fun r => r.holds a

/-! ## Registers -/

/-- Lanes below MAXVL (00_scope.md R4): the lanes above do not exist and are held as zero. -/
def VReg.fit (m : MaxVL) (x : VReg) : VReg :=
  match m with
  | .m128 => { VReg.zero with l0 := x.l0 }
  | .m256 => { VReg.zero with l0 := x.l0, l1 := x.l1 }
  | .m512 => x

/-- `V[i]`, all MAXVL bits (00_scope.md section 6). -/
def State.getV (s : State) (i : VNum) : VReg := s.v[i.toNat]'i.isLt

/-- `V[i] <- x`: a register holds MAXVL bits (10_state.md R10). -/
def State.setV (s : State) (i : VNum) (x : VReg) : State :=
  { s with v := s.v.set i.toNat (x.fit s.cpu.maxvl) i.isLt }

/-- `K[i]` (10_state.md R14). -/
def State.getK (s : State) (i : BitVec 3) : Word64 := s.k[i.toNat]'i.isLt

/-- The part of a 64-bit value an address size keeps, zero-extended (30_encoding.md R62, R66). -/
def truncAddr (asz : AddrSize) (x : Word64) : Word64 :=
  match asz with
  | .a16 => (x.setWidth 16).setWidth 64
  | .a32 => (x.setWidth 32).setWidth 64
  | .a64 => x

/-- `G[i]` at an address size: all of it, its low 32 or its low 16 bits (10_state.md R16, 30_encoding.md R62). -/
def State.getG (s : State) (asz : AddrSize) (i : GNum) : Word64 := truncAddr asz (s.g[i.toNat]'i.isLt)

/-- `ip + len`, the address of the next instruction (10_state.md R18): 64 bits in 64-bit mode, 32 otherwise. -/
def State.nextIp (s : State) (len : Nat) : Word64 :=
  match s.mode with
  | .mode64 => s.ip + BitVec.ofNat 64 len
  | .mode32 | .real | .v86 => truncAddr .a32 (s.ip + BitVec.ofNat 64 len)

/-- A form completes (10_state.md R18, R22): the destination register and the instruction pointer. -/
def State.complete (s : State) (d : VNum) (x : VReg) (len : Nat) : State :=
  { s.setV d x with ip := s.nextIp len }

end Sys2Proof.Machine
end

