-- ==== Sys2Proof/Machine/Shuffle.lean ====
section
/-! DEFINITION. The data semantics: the lane shuffle (40_pshufhw_sse.md R90, R91), the upper bits each form keeps or
zeroes (10_state.md R12), and the write mask (42_vpshufhw_evex.md R111). -/

namespace Sys2Proof.Machine

/-- `word_k` of a lane (00_scope.md section 6). -/
def word (x : Lane) (k : Nat) : BitVec 16 := x.extractLsb' (16 * k) 16

/-- A lane from its eight words, highest first. -/
def ofWords (w7 w6 w5 w4 w3 w2 w1 w0 : BitVec 16) : Lane :=
  w7 ++ w6 ++ w5 ++ w4 ++ w3 ++ w2 ++ w1 ++ w0

/-- Selector `s_i` of the immediate, bits `2i+1 : 2i` (30_encoding.md R58). -/
def selector (imm : BitVec 8) (i : Nat) : Nat := (imm.extractLsb' (2 * i) 2).toNat

/-- `ShufHiLane(L, imm)` (40_pshufhw_sse.md R90). -/
def shufHiLane (x : Lane) (imm : BitVec 8) : Lane :=
  word x (4 + selector imm 3) ++ word x (4 + selector imm 2) ++ word x (4 + selector imm 1) ++
    word x (4 + selector imm 0) ++ x.extractLsb' 0 64

/-- `ShufHi(VL, S, imm)` (R91): every lane on its own with the same immediate. -/
def shufHi (x : VReg) (imm : BitVec 8) : VReg :=
  { l0 := shufHiLane x.l0 imm
    l1 := shufHiLane x.l1 imm
    l2 := shufHiLane x.l2 imm
    l3 := shufHiLane x.l3 imm }

/-- The low `n` lanes (n = 1, 2 or 4), zero above: bits VL-1:0. -/
def VReg.low (n : Nat) (x : VReg) : VReg :=
  { l0 := x.l0
    l1 := if 1 < n then x.l1 else 0
    l2 := if 2 < n then x.l2 else 0
    l3 := if 2 < n then x.l3 else 0 }

/-- The low lane of `x` under the upper lanes of `old`: `DEST[MAXVL-1:128] (Unmodified)` (R95). -/
def VReg.keepUpper (old x : VReg) : VReg := { old with l0 := x.l0 }

/-- `word_j(out)` of MaskMerge (42_vpshufhw_evex.md R111): `on` is "no writemask, or mask bit j". -/
def mergeWord (on z : Bool) (t d : BitVec 16) : BitVec 16 := if on then t else if z then 0 else d

/-- MaskMerge on one lane, with that lane's eight mask bits. -/
def mergeLane (t d : Lane) (m : BitVec 8) (nomask z : Bool) : Lane :=
  let w := fun j => mergeWord (nomask || m.getLsbD j) z (word t j) (word d j)
  ofWords (w 7) (w 6) (w 5) (w 4) (w 3) (w 2) (w 1) (w 0)

/-- `MaskMerge(VL, T, D, M, nomask, z)` on all lanes (R111): mask bit j governs word j. -/
def maskMerge (t d : VReg) (m : Word64) (nomask z : Bool) : VReg :=
  { l0 := mergeLane t.l0 d.l0 (m.extractLsb' 0 8) nomask z
    l1 := mergeLane t.l1 d.l1 (m.extractLsb' 8 8) nomask z
    l2 := mergeLane t.l2 d.l2 (m.extractLsb' 16 8) nomask z
    l3 := mergeLane t.l3 d.l3 (m.extractLsb' 24 8) nomask z }

end Sys2Proof.Machine
end

