-- ==== Sys2Proof/Machine/Operands.lean ====
section
/-! DEFINITION. Operand 2: the address of a memory operand (30_encoding.md section 3), the faults it can raise
(60_exceptions.md R131, R137, R138), and the read (20_memory.md R31, R33, R42). -/

namespace Sys2Proof.Machine

/-! ## The offset -/

/-- The address size of an instruction (30_encoding.md R66). -/
def State.asz (s : State) (p : Prefixes) : AddrSize := addrSizeOf s.mode s.defAddr p.addrSize

/-- A displacement sign-extended, a one-byte one multiplied by N (R62, R79). -/
def dispValue (scale : Nat) : Disp → Word64
  | .none => 0
  | .d8 v => v.signExtend 64 * BitVec.ofNat 64 scale
  | .d16 v => v.signExtend 64
  | .d32 v => v.signExtend 64

/-- The scaled index of a SIB byte; register number 4 is no index (R64). -/
def State.indexValue (s : State) (asz : AddrSize) (i : GNum) (sc : BitVec 2) : Word64 :=
  if i = 4 then 0 else s.getG asz i <<< sc.toNat

/-- The register sum of 16-bit addressing (R66): BX = 3, BP = 5, SI = 6, DI = 7. -/
def State.base16 (s : State) (form : BitVec 3) : Word64 :=
  let r := fun i => s.getG .a16 i
  if form = 0 then r 3 + r 6
  else if form = 1 then r 3 + r 7
  else if form = 2 then r 5 + r 6
  else if form = 3 then r 5 + r 7
  else if form = 4 then r 6
  else if form = 5 then r 7
  else if form = 6 then r 5
  else r 3

/-- The offset of a memory operand (R62 to R64, R66), truncated to the address size: 16-bit forms to 16 bits. -/
def State.offset (s : State) (asz : AddrSize) (scale len : Nat) (a : Addr) : Word64 :=
  match a with
  | .base b disp => truncAddr asz (s.getG asz b + dispValue scale disp)
  | .sib b i sc disp => truncAddr asz (s.getG asz b + s.indexValue asz i sc + dispValue scale disp)
  | .sibNoBase i sc d => truncAddr asz (s.indexValue asz i sc + d.signExtend 64)
  | .disp32 d =>
    match s.mode with
    | .mode64 => truncAddr asz (s.nextIp len + d.signExtend 64)
    | .mode32 | .real | .v86 => truncAddr asz (d.signExtend 64)
  | .idx16 form disp => truncAddr .a16 (s.base16 form + dispValue scale disp)
  | .disp16 d => truncAddr .a16 (d.signExtend 64)

/-! ## The segment and the linear address -/

/-- The default segment (R65): SS when the base register is number 4 or 5, or a 16-bit form uses BP; else DS. -/
def defaultSeg : Addr → SegReg
  | .base b _ => if b = 4 ∨ b = 5 then .ss else .ds
  | .sib b _ _ _ => if b = 4 ∨ b = 5 then .ss else .ds
  | .sibNoBase _ _ _ => .ds
  | .disp32 _ => .ds
  | .idx16 form _ => if form = 2 ∨ form = 3 ∨ form = 6 then .ss else .ds
  | .disp16 _ => .ds

/-- The segment of a memory operand (R65): an override replaces the default; in 64-bit mode only FS and GS do. -/
def State.segOf (s : State) (p : Prefixes) (a : Addr) : SegReg :=
  match p.seg with
  | none => defaultSeg a
  | some r =>
    match s.mode with
    | .mode64 => if r = .fs ∨ r = .gs then r else defaultSeg a
    | .mode32 | .real | .v86 => r

/-- A segment register's contents (10_state.md R17). -/
def State.segment (s : State) : SegReg → Segment
  | .es => s.es
  | .cs => s.cs
  | .ss => s.ss
  | .ds => s.ds
  | .fs => s.fs
  | .gs => s.gs

/-- The segment base in the linear address (10_state.md R17, 30_encoding.md R66): in 64-bit mode zero but for FS
and GS. -/
def State.segBase (s : State) (r : SegReg) : Word64 :=
  match s.mode with
  | .mode64 => if r = .fs ∨ r = .gs then (s.segment r).base else 0
  | .mode32 | .real | .v86 => (s.segment r).base

/-- The linear address of an offset in a segment (R66): 64 bits in 64-bit mode, else 32. -/
def State.linear (s : State) (r : SegReg) (off : Word64) : Word64 :=
  match s.mode with
  | .mode64 => s.segBase r + off
  | .mode32 | .real | .v86 => truncAddr .a32 (s.segBase r + off)

/-- The linear address of byte `i` of an operand at `lin` (20_memory.md R31); log 17. -/
def State.byteAddr (s : State) (lin : Word64) (i : Nat) : Nat :=
  match s.mode with
  | .mode64 => lin.toNat + i
  | .mode32 | .real | .v86 => (lin.toNat + i) % 2 ^ 32

/-- Where a memory operand lies: its segment, offset and linear address. -/
structure Place where
  seg : SegReg
  off : Word64
  lin : Word64
  deriving DecidableEq, Repr

/-- The place of a memory operand of form `f` in an instruction of `len` bytes (R61, R66). -/
def State.place (s : State) (f : Form) (p : Prefixes) (len : Nat) (a : Addr) : Place :=
  let off := s.offset (s.asz p) f.dispScale len a
  { seg := s.segOf p a, off := off, lin := s.linear (s.segOf p a) off }

/-! ## Faults on a memory operand -/

/-- Half the canonical range: 2^47 or 2^56 (20_memory.md R39). -/
def canonicalHalf : LaWidth → Nat
  | .w48 => 2 ^ 47
  | .w57 => 2 ^ 56

/-- A canonical address (R39): bits 63 down to LAWIDTH-1 are all equal. -/
def canonical (w : LaWidth) (a : Nat) : Bool :=
  decide (a < canonicalHalf w) || (decide (2 ^ 64 - canonicalHalf w ≤ a) && decide (a < 2 ^ 64))

/-- #SS(0) through the stack segment, else #GP(0) (20_memory.md R39, 60_exceptions.md R131, R137). -/
def segFault (r : SegReg) : Fault := if r = .ss then .ss0 else .gp0

/-- The address check of each mode: canonical in 64-bit mode; the segment limit in protected and compatibility mode;
the range 0 to FFFFH in the two older modes (R131, R137; log 8). -/
def State.addressFaults (s : State) (q : Place) (n : Nat) : List Fault :=
  match s.mode with
  | .mode64 =>
    if (List.range n).all fun i => canonical s.cpu.laWidth (s.byteAddr q.lin i) then [] else [segFault q.seg]
  | .mode32 =>
    if q.off.toNat + n ≤ (s.segment q.seg).limit.toNat + 1 then [] else [segFault q.seg]
  | .real | .v86 => if q.off.toNat + n ≤ 0x10000 then [] else [.gp0]

/-- The SSE form's alignment check, on the linear address (20_memory.md R34). -/
def alignmentFaults (f : Form) (q : Place) : List Fault :=
  match f with
  | .sse => if q.lin.toNat % 16 = 0 then [] else [.gp0]
  | .vex128 | .vex256 | .evex128 | .evex256 | .evex512 => []

/-- The operand's bytes that an entry of Translate covers. -/
def State.touched (s : State) (t : TransRange) (lin : Word64) (n : Nat) : List Nat :=
  ((List.range n).map fun i => s.byteAddr lin i).filter fun a =>
    decide (t.base ≤ a) && decide (a < t.base + t.size)

/-- What one entry of Translate reports for an access (20_memory.md R40): a segment check in protected and
compatibility mode, a page fault in every mode that has paging. -/
def State.transFault (s : State) (q : Place) (n : Nat) (t : TransRange) : Option Fault :=
  match s.touched t q.lin n with
  | [] => none
  | a :: as =>
    match t.kind with
    | .segment r => if r = q.seg ∧ s.mode = .mode32 then some (segFault r) else none
    | .page p u rv =>
      if s.mode = .real then none
      else some (.pf (pageFaultCode p u rv) (BitVec.ofNat 64 ((a :: as).getD (t.report % (a :: as).length) a)))

/-- Every fault that applies to a memory operand (60_exceptions.md R138 group 4). -/
def State.memFaults (s : State) (f : Form) (q : Place) : List Fault :=
  s.addressFaults q f.bytes ++ alignmentFaults f q ++
    s.xlat.filterMap (s.transFault q f.bytes)

/-- One of the applicable faults, which one is a free choice (R138; log 6). -/
def pickFault (n : Nat) : List Fault → Option Fault
  | [] => none
  | e :: es =>
    some (if es.all fun e' => decide (e' = e) then e
      else (e :: es).getD (Config.faultPick n % (es.length + 1)) e)

/-! ## The read -/

/-- The byte an operand read returns (20_memory.md R42): the memory's under `quietMemory`; under `anyWriter` a free
value, but for program bytes, which no agent changes (R45). -/
def State.oracleByte (s : State) (lin : Word64) (i : Nat) : Byte :=
  match s.oracle with
  | .quietMemory => memRead s.mem (s.byteAddr lin i)
  | .anyWriter =>
    if s.programByte (s.byteAddr lin i) then memRead s.mem (s.byteAddr lin i)
    else Config.anyByte (s.fresh + i)

/-- The counter after a read of `n` bytes: every free byte is drawn once. -/
def State.afterRead (s : State) (n : Nat) : State :=
  match s.oracle with
  | .quietMemory => s
  | .anyWriter => { s with fresh := s.fresh + n }

/-- Sixteen bytes as a lane, the byte at the lowest address least significant (20_memory.md R33). -/
def littleEndian (f : Nat → Byte) : Lane :=
  f 15 ++ f 14 ++ f 13 ++ f 12 ++ f 11 ++ f 10 ++ f 9 ++ f 8 ++ f 7 ++ f 6 ++ f 5 ++ f 4 ++ f 3 ++ f 2 ++
    f 1 ++ f 0

/-- `MemRead(addr, n)` for n = 16 times the form's lanes (R31, R33). -/
def State.memValue (s : State) (f : Form) (lin : Word64) : VReg :=
  VReg.low f.lanes
    { l0 := littleEndian fun i => s.oracleByte lin i
      l1 := littleEndian fun i => s.oracleByte lin (16 + i)
      l2 := littleEndian fun i => s.oracleByte lin (32 + i)
      l3 := littleEndian fun i => s.oracleByte lin (48 + i) }

/-- Every byte of the operand lies in ordinary memory (20_memory.md R37). -/
def State.allOrdinary (s : State) (f : Form) (lin : Word64) : Bool :=
  (List.range f.bytes).all fun i => s.ordinary (s.byteAddr lin i)

/-- Alignment checking is on and the operand is not aligned to its own size (20_memory.md R35; log 10). -/
def State.alignmentDoubt (s : State) (f : Form) (lin : Word64) : Bool :=
  s.alignmentChecking && decide (lin.toNat % f.bytes ≠ 0)

/-- The read of a memory operand: its faults, then the refusals, then the value. DESIGN CHOICE: the spec gives no order
between a fault and a refusal, nor between the two refusals (log 30). -/
def State.readMem (s : State) (f : Form) (q : Place) : Host.Outcome (VReg × State) Fault Refusal :=
  match pickFault s.fresh (s.memFaults f q) with
  | some e => raise e
  | none =>
    if s.alignmentDoubt f q.lin then .refused .alignmentCheckEnabled
    else if s.allOrdinary f q.lin then .next (s.memValue f q.lin, s.afterRead f.bytes)
    else .refused .nonMemoryAddress

/-- `S`, the source operand: the low VL bits of a register, or VL/8 bytes of memory (40_pshufhw_sse.md R95,
41_vpshufhw_vex.md R101, R102, 42_vpshufhw_evex.md R112). -/
def State.readSource (s : State) (f : Form) (p : Prefixes) (len : Nat) (src : Operand) :
    Host.Outcome (VReg × State) Fault Refusal :=
  match src with
  | .reg r => .next (VReg.low f.lanes (s.getV r), s)
  | .mem a => s.readMem f (s.place f p len a)

end Sys2Proof.Machine
end

