-- ==== Sys2Proof/Machine/Enable.lean ====
section
/-! DEFINITION. The conditions that stop a form before it starts, in the order of 60_exceptions.md R138: every #UD
condition, then the refusals of doubtful EVEX encodings, then #NM. -/

namespace Sys2Proof

/-- The encodings of an EVEX form the spec refuses (30_encoding.md R76, R77). -/
def EvexCtl.refusal (e : EvexCtl) (src : Operand) : Option Machine.Refusal :=
  match src with
  | .reg _ =>
    if e.b then some .evexBWithRegister
    else if e.z && decide (e.aaa = 0) then some .zeroingWithoutMask else none
  | .mem _ => if e.z && decide (e.aaa = 0) then some .zeroingWithoutMask else none

end Sys2Proof

namespace Sys2Proof.Machine

/-- A #UD condition that does not depend on the encoding: the mode (R133), the CPUID condition and MAXVL (R132,
00_scope.md R4), the operating system's enabling (R134, R135). -/
def State.notEnabled (s : State) (f : Form) : Bool :=
  !(f.supported s.cpu.features) || decide (s.cpu.maxvl.lanes < f.lanes) ||
    match f with
    | .sse => s.em || !s.osfxsr
    | .vex128 | .vex256 =>
      decide (s.mode = .real) || decide (s.mode = .v86) || !s.osxsave || !s.ymmEnabled
    | .evex128 | .evex256 | .evex512 =>
      decide (s.mode = .real) || decide (s.mode = .v86) || !s.osxsave || !s.ymmEnabled || !s.zmmEnabled

/-- The checks before a form (R138). `ud` and `rf` are the encoding's own conditions. -/
def guarded (f : Form) (ud : Bool) (rf : Option Refusal) (s : State)
    (go : Host.Outcome State Fault Refusal) : Host.Outcome State Fault Refusal :=
  if ud || s.notEnabled f then raise .ud
  else
    match rf with
    | some r => .refused r
    | none => if s.ts then raise .nm else go

end Sys2Proof.Machine
end

