-- ==== Sys2Proof/Machine/Evex.lean ====
section
/-! DEFINITION. The meaning of the three EVEX forms (42_vpshufhw_evex.md R110 to R115). -/

namespace Sys2Proof.Machine

/-- The common semantics of the EVEX forms (R112): the whole source is read and shuffled, then merged with the old
destination under the mask, and V[d] is zero above VL. -/
def runEvex (f : Form) (p : Prefixes) (e : EvexCtl) (len : Nat) (d : VNum) (src : Operand) (imm : BitVec 8)
    (s : State) : Host.Outcome State Fault Refusal :=
  guarded f (e.undefined src) (e.refusal src) s <|
    andThen (s.readSource f p len src) fun (x, s') =>
      .next (s'.complete d
        (VReg.low f.lanes
          (maskMerge (shufHi x imm) (s.getV d) (s.getK e.aaa) (decide (e.aaa = 0)) e.z)) len)

/-- `VPSHUFHW xmm1 {k1}{z}, xmm2/m128, imm8` (R113). -/
def execEvex128 (p : Prefixes) (e : EvexCtl) (d : VNum) (src : Operand) (imm : BitVec 8) (s : State) :
    Host.Outcome State Fault Refusal :=
  runEvex .evex128 p e (Instr.evex128 p e d src imm).length d src imm s

/-- `VPSHUFHW ymm1 {k1}{z}, ymm2/m256, imm8` (R114). -/
def execEvex256 (p : Prefixes) (e : EvexCtl) (d : VNum) (src : Operand) (imm : BitVec 8) (s : State) :
    Host.Outcome State Fault Refusal :=
  runEvex .evex256 p e (Instr.evex256 p e d src imm).length d src imm s

/-- `VPSHUFHW zmm1 {k1}{z}, zmm2/m512, imm8` (R115). -/
def execEvex512 (p : Prefixes) (e : EvexCtl) (d : VNum) (src : Operand) (imm : BitVec 8) (s : State) :
    Host.Outcome State Fault Refusal :=
  runEvex .evex512 p e (Instr.evex512 p e d src imm).length d src imm s

end Sys2Proof.Machine
end

