-- ==== Sys2Proof/Machine/Legacy.lean ====
section
/-! DEFINITION. The meaning of the SSE form's two encodings (40_pshufhw_sse.md R95). -/

namespace Sys2Proof.Machine

/-- The SSE form (R95): the low lane of V[d] is shuffled, its upper bits are kept. -/
def runSse (p : Prefixes) (len : Nat) (d : VNum) (src : Operand) (imm : BitVec 8) (s : State) :
    Host.Outcome State Fault Refusal :=
  guarded .sse false none s <|
    andThen (s.readSource .sse p len src) fun (x, s') =>
      .next (s'.complete d ((s.getV d).keepUpper (shufHi x imm)) len)

/-- `PSHUFHW xmm1, xmm2/m128, imm8` without a REX byte (R95). -/
def execSse (p : Prefixes) (d : VNum) (src : Operand) (imm : BitVec 8) (s : State) :
    Host.Outcome State Fault Refusal :=
  runSse p (Instr.sse p d src imm).length d src imm s

/-- `PSHUFHW xmm1, xmm2/m128, imm8` with a REX byte (R95, 30_encoding.md R53). -/
def execSseRex (p : Prefixes) (d : VNum) (src : Operand) (imm : BitVec 8) (s : State) :
    Host.Outcome State Fault Refusal :=
  runSse p (Instr.sseRex p d src imm).length d src imm s

end Sys2Proof.Machine
end

