-- ==== Sys2Proof/Machine/Vex.lean ====
section
/-! DEFINITION. The meaning of the two VEX forms in their two encodings each (41_vpshufhw_vex.md R100 to R102). -/

namespace Sys2Proof.Machine

/-- A VEX form (R101, R102): #UD unless vvvv = 1111; V[d] is the shuffled source, zero above VL. -/
def runVex (f : Form) (p : Prefixes) (vvvv : BitVec 4) (len : Nat) (d : VNum) (src : Operand)
    (imm : BitVec 8) (s : State) : Host.Outcome State Fault Refusal :=
  guarded f (decide (vvvv ≠ 15)) none s <|
    andThen (s.readSource f p len src) fun (x, s') =>
      .next (s'.complete d (VReg.low f.lanes (shufHi x imm)) len)

/-- `VPSHUFHW xmm1, xmm2/m128, imm8` with the two-byte VEX prefix (R101). -/
def execVex128C5 (p : Prefixes) (vvvv : BitVec 4) (d : VNum) (src : Operand) (imm : BitVec 8) (s : State) :
    Host.Outcome State Fault Refusal :=
  runVex .vex128 p vvvv (Instr.vex128C5 p vvvv d src imm).length d src imm s

/-- `VPSHUFHW xmm1, xmm2/m128, imm8` with the three-byte VEX prefix (R101). -/
def execVex128C4 (p : Prefixes) (vvvv : BitVec 4) (d : VNum) (src : Operand) (imm : BitVec 8) (s : State) :
    Host.Outcome State Fault Refusal :=
  runVex .vex128 p vvvv (Instr.vex128C4 p vvvv d src imm).length d src imm s

/-- `VPSHUFHW ymm1, ymm2/m256, imm8` with the two-byte VEX prefix (R102). -/
def execVex256C5 (p : Prefixes) (vvvv : BitVec 4) (d : VNum) (src : Operand) (imm : BitVec 8) (s : State) :
    Host.Outcome State Fault Refusal :=
  runVex .vex256 p vvvv (Instr.vex256C5 p vvvv d src imm).length d src imm s

/-- `VPSHUFHW ymm1, ymm2/m256, imm8` with the three-byte VEX prefix (R102). -/
def execVex256C4 (p : Prefixes) (vvvv : BitVec 4) (d : VNum) (src : Operand) (imm : BitVec 8) (s : State) :
    Host.Outcome State Fault Refusal :=
  runVex .vex256 p vvvv (Instr.vex256C4 p vvvv d src imm).length d src imm s

end Sys2Proof.Machine
end

