-- ==== Sys2Proof/Machine/Dispatch.lean ====
section
/-! DEFINITION. One arm for each constructor of `Instr`. -/

namespace Sys2Proof.Machine

def exec (i : Instr) (s : State) : Host.Outcome State Fault Refusal :=
  match i with
  | .sse p d src imm => Sys2Proof.Machine.execSse p d src imm s
  | .sseRex p d src imm => Sys2Proof.Machine.execSseRex p d src imm s
  | .vex128C5 p vvvv d src imm => Sys2Proof.Machine.execVex128C5 p vvvv d src imm s
  | .vex128C4 p vvvv d src imm => Sys2Proof.Machine.execVex128C4 p vvvv d src imm s
  | .vex256C5 p vvvv d src imm => Sys2Proof.Machine.execVex256C5 p vvvv d src imm s
  | .vex256C4 p vvvv d src imm => Sys2Proof.Machine.execVex256C4 p vvvv d src imm s
  | .evex128 p e d src imm => Sys2Proof.Machine.execEvex128 p e d src imm s
  | .evex256 p e d src imm => Sys2Proof.Machine.execEvex256 p e d src imm s
  | .evex512 p e d src imm => Sys2Proof.Machine.execEvex512 p e d src imm s

end Sys2Proof.Machine
end

