-- ==== Sys2Proof/Machine/Fetch.lean ====
section
/-! DEFINITION. Fetching an instruction's bytes, what stops a step before decoding, and what becomes of bytes that
decode to no instruction. -/

namespace Sys2Proof.Machine

/-- The context an instruction is decoded in. A processor recognises VEX when it has AVX or AVX2, EVEX when it has any
of the three EVEX features (60_exceptions.md R132; log 15). -/
def State.ctx (s : State) : Ctx :=
  { mode := s.mode
    defAddr := s.defAddr
    vex := s.cpu.features.avx || s.cpu.features.avx2
    evex := s.cpu.features.avx512vl || s.cpu.features.avx512bw || s.cpu.features.avx10_1 }

/-- The linear address of byte `i` of the instruction at ip: ip itself in 64-bit mode, else the CS base plus ip
(10_state.md R17, R18, R26; log 13). -/
def State.codeAddr (s : State) (i : Nat) : Nat :=
  match s.mode with
  | .mode64 => s.ip.toNat + i
  | .mode32 | .real | .v86 => (s.cs.base.toNat + s.ip.toNat + i) % 2 ^ 32

/-- A byte can be fetched where it is the program's: fetched bytes are the immutable ones, which the memory oracle may
not change (20_memory.md R45, 70_reset_and_hazards.md R163 LP-Code; log 13). -/
def State.fetchable (s : State) (a : Nat) : Bool := s.programByte a

/-- The fetchable bytes from byte `i` of the instruction on, at most `n`. -/
def State.fetchFrom (s : State) (i : Nat) : Nat → List Byte
  | 0 => []
  | n + 1 =>
    if s.fetchable (s.codeAddr i) then memRead s.mem (s.codeAddr i) :: s.fetchFrom (i + 1) n else []

/-- The bytes decoding sees: at most 15 (30_encoding.md R82). -/
def State.window (s : State) : List Byte := s.fetchFrom 0 maxLength

/-- `a` lies below the boundary `top` and within 15 bytes of it (10_state.md R19). -/
def nearTop (top a : Nat) : Bool := decide (a < top) && decide (top ≤ a + maxLength)

/-- ip lies within 15 bytes of a boundary it may not pass (10_state.md R19): in 64-bit mode the top of either canonical
half; else the code-segment limit or 2^32 - 1, or beyond it. Log 12. -/
def State.ipWraps (s : State) : Bool :=
  match s.mode with
  | .mode64 => nearTop (canonicalHalf s.cpu.laWidth) s.ip.toNat || nearTop (2 ^ 64) s.ip.toNat
  | .mode32 | .real | .v86 => decide (s.cs.limit.toNat + 1 ≤ s.ip.toNat + maxLength)

/-- The offset in the code segment of a linear address, outside 64-bit mode (10_state.md R17). -/
def State.codeOffset (s : State) (a : Nat) : Nat := (a + (2 ^ 32 - s.cs.base.toNat % 2 ^ 32)) % 2 ^ 32

/-- A program with a byte within 15 bytes of a boundary ip may not pass (10_state.md R19): in 64-bit mode the top of
either canonical half; else the code-segment limit, in offsets, and 2^32, in linear addresses. Log 12. -/
def State.regionWraps (s : State) (r : Region) : Bool :=
  let near := fun top => decide (r.base < top) && decide (top < r.base + r.size + maxLength)
  match s.mode with
  | .mode64 => near (canonicalHalf s.cpu.laWidth) || near (2 ^ 64)
  | .mode32 | .real | .v86 =>
    near (2 ^ 32) || decide (s.cs.limit.toNat + 1 < s.codeOffset r.base + r.size + maxLength)

/-- ip or the program comes too near the top (R19): refused at launch and at every step. -/
def State.codeWraps (s : State) : Bool := s.ipWraps || s.program.any fun r => s.regionWraps r

/-- What refuses a step before decoding: debug features on (60_exceptions.md R151), ip or the program near the top
(10_state.md R19), ip not canonical (60_exceptions.md R138 group 1). DESIGN CHOICE: the spec gives no order between
these refusals, and they are tested in this one (log 30). -/
def State.fetchStop (s : State) : Option Refusal :=
  if s.debugOn then some .debugEnabled
  else if s.codeWraps then some .ipWrap
  else if decide (s.mode = .mode64) && !canonical s.cpu.laWidth s.ip.toNat then some .codeNotFetchable
  else none

/-- A decoder's refusal as the step's. -/
def ofDecodeRefusal : DecodeRefusal → Refusal
  | .notPSHUFHW => .notPSHUFHW
  | .prefixCombination => .prefixCombination
  | .evexExtensionBitsMode32 => .evexExtensionBitsMode32
  | .evex16BitAddressing => .evex16BitAddressing

/-- Bytes that end before the instruction does: #GP(0) when all 15 were there (30_encoding.md R82), else the program
bytes are not fetchable. -/
def State.overrun (s : State) : Host.Outcome State Fault Refusal :=
  if s.window.length = maxLength then raise .gp0 else .refused .codeNotFetchable

end Sys2Proof.Machine
end

