-- ==== Sys2Proof/Machine/Launch.lean ====
section
/-! DEFINITION. The launch: the premises a launch state must meet (70_reset_and_hazards.md R163), the end of a run
(R165), and the loading of one instruction from outside the machine. -/

namespace Sys2Proof.Machine

/-- The launch check (R163): LP-Mode, LP-NoAC, LP-NoDebug, LP-Code, each refused by name. The other premises are no
ground for a refusal at launch: a form that is not supported or not enabled raises its exception, and bytes that cannot
be fetched and operands outside ordinary memory are refused by the step that reaches them. DESIGN CHOICE: R163 gives no
order between the premises, and the first that fails here names the refusal (log 30). -/
def launchCheck (s : State) : Option Refusal :=
  if decide (s.mode = .real) || decide (s.mode = .v86) then some .unsupportedMode
  else if s.alignmentChecking then some .alignmentCheckEnabled
  else if s.debugOn then some .debugEnabled
  else if s.codeWraps then some .ipWrap
  else none

/-- A launch: the state itself, or the refusal. -/
def launch (s : State) : Host.Outcome State Fault Refusal :=
  match launchCheck s with
  | some r => .refused r
  | none => .next s

/-- The run is over (R165): ip is the address just after the program's last byte. -/
def State.runOver (s : State) : Bool :=
  s.program.any fun r => decide (s.codeAddr 0 = r.base + r.size)

/-- Where a loaded instruction is placed: at ip, or at 1000H where that is too near the top of the low half. -/
def State.loadIp (s : State) : Word64 :=
  if s.ip.toNat + 2 * maxLength < 2 ^ 47 then s.ip else 0x1000

/-- The launch state a program is loaded into (10_state.md R27; log 3): 64-bit mode with every extension enabled as
R162 says (EM and TS clear; OSFXSR and OSXSAVE set; XCR0 bits 1, 2, 5, 6, 7 set), single-step and alignment
checking off, no breakpoint, and the low half of the address space declared ordinary memory. -/
def State.launched (s : State) : State :=
  { s with
    mode := .mode64
    cr0 := s.cr0 &&& ~~~0xC#64
    cr4 := s.cr4 ||| 0x40200#64
    xcr0 := s.xcr0 ||| 0xE6#64
    rflags := s.rflags &&& ~~~0x40100#64
    breakpointsArmed := false
    ip := s.loadIp
    map := { base := 0, size := 2 ^ 47 } :: s.map }

/-- The launch state with `bytes` as its one program, at ip. -/
def State.load (s : State) (bytes : List Byte) : State :=
  let t := s.launched
  { t with
    mem := memWriteList t.mem t.ip.toNat bytes
    program := some { base := t.ip.toNat, size := bytes.length } }

end Sys2Proof.Machine
end

