-- ==== Sys2Proof/Machine/Step.lean ====
section
/-! DEFINITION. One step (00_scope.md R9): fetch, decode, execute. -/

namespace Sys2Proof.Machine

def step (s : State) : Host.Outcome State Fault Refusal :=
  match s.fetchStop with
  | some r => .refused r
  | none =>
    match decode s.ctx s.window with
    | .instr i _ => exec i s
    | .undefined => raise .ud
    | .truncated => s.overrun
    | .refused r => .refused (ofDecodeRefusal r)

/-- `s` launched with the instruction whose bits are `w` as its program (log 3). -/
def State.withFetchWord (s : State) (nbits w : Nat) : State := s.load (tableBytes nbits w)

end Sys2Proof.Machine
end

