-- ==== Sys2Proof/Safety.lean ====
section
/-! DEFINITION. The terms claims are stated in: what a safe step is, when a form is enabled and its operand
readable, what its source operand holds, and the invariant of the state. -/

namespace Sys2Proof.Machine

/-- A safe step goes on: it raises no exception and is not refused. -/
def State.StepsOn (s : State) : Prop := ∃ t, step s = .next t

/-! ## Words of a vector -/

/-- `lane_n` of a vector register (00_scope.md section 6). -/
def VReg.lane (x : VReg) (n : Nat) : Lane :=
  match n with
  | 0 => x.l0
  | 1 => x.l1
  | 2 => x.l2
  | 3 => x.l3
  | _ => 0

/-- `word_j` of a vector register, j = 0 to 31 (00_scope.md section 6). -/
def VReg.word (x : VReg) (j : Nat) : BitVec 16 := (x.lane (j / 8)).extractLsb' (16 * (j % 8)) 16

/-- The index of the source word that goes to word `j` of the shuffled value (40_pshufhw_sse.md R90, R91): itself in
the low quadword of a lane, else word 4 + s of the same lane. -/
def shuffledIndex (imm : BitVec 8) (j : Nat) : Nat :=
  if j % 8 < 4 then j else 8 * (j / 8) + 4 + (imm.extractLsb' (2 * (j % 4)) 2).toNat

/-! ## When a form executes -/

/-- What system software must have enabled for a form (70_reset_and_hazards.md R162 steps 1 to 4, 60_exceptions.md
R132 to R135), but for CR0.TS. -/
def Powered (f : Form) (s : State) : Prop :=
  f.supported s.cpu.features = true ∧ f.lanes ≤ s.cpu.maxvl.lanes ∧
    match f with
    | .sse => s.cr0.getLsbD 2 = false ∧ s.cr4.getLsbD 9 = true
    | .vex128 | .vex256 =>
      (s.mode = .mode64 ∨ s.mode = .mode32) ∧ s.cr4.getLsbD 18 = true ∧ s.xcr0.getLsbD 1 = true ∧
        s.xcr0.getLsbD 2 = true
    | .evex128 | .evex256 | .evex512 =>
      (s.mode = .mode64 ∨ s.mode = .mode32) ∧ s.cr4.getLsbD 18 = true ∧ s.xcr0.getLsbD 1 = true ∧
        s.xcr0.getLsbD 2 = true ∧ s.xcr0.getLsbD 5 = true ∧ s.xcr0.getLsbD 6 = true ∧ s.xcr0.getLsbD 7 = true

/-- A form is enabled (R162 steps 1 to 5): `Powered`, and CR0.TS = 0. -/
def Enabled (f : Form) (s : State) : Prop := Powered f s ∧ s.cr0.getLsbD 3 = false

/-- The address check of the mode passes for an operand of `n` bytes (60_exceptions.md R131, R137). -/
def AddressOk (s : State) (q : Place) (n : Nat) : Prop :=
  match s.mode with
  | .mode64 => ∀ i < n, canonical s.cpu.laWidth (q.lin.toNat + i) = true
  | .mode32 => q.off.toNat + n ≤ (s.segment q.seg).limit.toNat + 1
  | .real | .v86 => q.off.toNat + n ≤ 0x10000

/-- No entry of Translate covers a byte of the operand (20_memory.md R40). -/
def Untouched (s : State) (q : Place) (n : Nat) : Prop :=
  ∀ e ∈ s.xlat, ∀ i < n, ¬(e.base ≤ s.byteAddr q.lin i ∧ s.byteAddr q.lin i < e.base + e.size)

/-- Every byte of the operand lies in ordinary memory (20_memory.md R37). -/
def InOrdinaryMemory (s : State) (q : Place) (n : Nat) : Prop :=
  ∀ i < n, s.ordinary (s.byteAddr q.lin i) = true

/-- Some entry of Translate fails the segment check of an operand (20_memory.md R40): protected and compatibility mode
only, through the operand's own segment, on a byte the operand touches (log 7). -/
def SegmentCheckFails (s : State) (q : Place) (n : Nat) : Prop :=
  s.mode = .mode32 ∧ ∃ e ∈ s.xlat, e.kind = .segment q.seg ∧
    ∃ i < n, e.base ≤ s.byteAddr q.lin i ∧ s.byteAddr q.lin i < e.base + e.size

/-- Alignment checking is on (20_memory.md R35): CR0.AM, RFLAGS.AC, privilege level 3. Bit 18 of both registers is
PRESUMED (log 10). -/
def AlignmentChecked (s : State) : Prop :=
  s.cr0.getLsbD 18 = true ∧ s.rflags.getLsbD 18 = true ∧ s.cpl = 3

/-- A memory operand of form `f` at the place `q` can be read: its address checks pass, the SSE form's is aligned,
translation reports nothing, alignment checking is off, and it lies in ordinary memory. -/
def Readable (f : Form) (s : State) (q : Place) : Prop :=
  AddressOk s q f.bytes ∧ (f = .sse → q.lin.toNat % 16 = 0) ∧ Untouched s q f.bytes ∧
    ¬AlignmentChecked s ∧ InOrdinaryMemory s q f.bytes

/-- The fields an encoding must have to execute: `vvvv = 1111` (30_encoding.md R73, R75), and in EVEX forms V' = 1,
b = 0 and no zeroing without a mask (R75 to R77). -/
def FieldsOk : Instr → Prop
  | .sse _ _ _ _ | .sseRex _ _ _ _ => True
  | .vex128C5 _ vvvv _ _ _ | .vex128C4 _ vvvv _ _ _ | .vex256C5 _ vvvv _ _ _ | .vex256C4 _ vvvv _ _ _ => vvvv = 15
  | .evex128 _ e _ _ _ | .evex256 _ e _ _ _ | .evex512 _ e _ _ _ =>
    e.vvvv = 15 ∧ e.vp = true ∧ e.b = false ∧ (e.z = true → e.aaa ≠ 0)

/-- Operand 2 can be read: a register always, a memory operand where it is `Readable`. `len` is the instruction's
length, which RIP-relative addressing uses. -/
def SourceReady (f : Form) (s : State) (p : Prefixes) (len : Nat) : Operand → Prop
  | .reg _ => True
  | .mem a => Readable f s (s.place f p len a)

/-- `word_j` of the source operand, when no other agent writes: a register's word, or the bytes at `addr + 2j` (low)
and `addr + 2j + 1` (high) (20_memory.md R33). -/
def sourceWord (f : Form) (s : State) (p : Prefixes) (len : Nat) (src : Operand) (j : Nat) : BitVec 16 :=
  match src with
  | .reg r => (s.getV r).word j
  | .mem a =>
    memRead s.mem (s.byteAddr (s.place f p len a).lin (2 * j + 1)) ++
      memRead s.mem (s.byteAddr (s.place f p len a).lin (2 * j))

/-- The value the source operand is read as, whichever memory oracle is in force: the low VL bits are the operand's
(20_memory.md R31, R42). -/
def SourceIs (f : Form) (s : State) (p : Prefixes) (len : Nat) (src : Operand) (x : VReg) : Prop :=
  ∃ s', s.readSource f p len src = .next (x, s')

/-- Word `j` of V[d] after a form of which the source was read as `x` completes: below VL the shuffled word, or under a
mask bit 0 zero or the old word (42_vpshufhw_evex.md R111); from VL on the old word in the SSE form (40_pshufhw_sse.md
R95), zero in the others. -/
def resultWord (i : Instr) (s : State) (x : VReg) (j : Nat) : BitVec 16 :=
  if j < 8 * i.form.lanes then
    match i with
    | .evex128 _ e d _ imm | .evex256 _ e d _ imm | .evex512 _ e d _ imm =>
      if e.aaa = 0 ∨ (s.getK e.aaa).getLsbD j = true then x.word (shuffledIndex imm j)
      else if e.z then 0 else (s.getV d).word j
    | .sse _ _ _ imm | .sseRex _ _ _ imm => x.word (shuffledIndex imm j)
    | .vex128C5 _ _ _ _ imm | .vex128C4 _ _ _ _ imm | .vex256C5 _ _ _ _ imm | .vex256C4 _ _ _ _ imm =>
      x.word (shuffledIndex imm j)
  else
    match i.form with
    | .sse => (s.getV i.dest).word j
    | .vex128 | .vex256 | .evex128 | .evex256 | .evex512 => 0

/-! ## Where code lies -/

/-- ip after an instruction of `len` bytes (10_state.md R18): RIP has 64 bits, EIP 32. -/
def State.ipAfter (s : State) (len : Nat) : Nat :=
  match s.mode with
  | .mode64 => (s.ip.toNat + len) % 2 ^ 64
  | .mode32 | .real | .v86 => (s.ip.toNat + len) % 2 ^ 32

/-- The linear address of byte `k` of the instruction at ip: ip in 64-bit mode, else ip in the CS segment
(10_state.md R17, R18; log 13). -/
def State.codeByte (s : State) (k : Nat) : Nat :=
  match s.mode with
  | .mode64 => s.ip.toNat + k
  | .mode32 | .real | .v86 => (s.cs.base.toNat + s.ip.toNat + k) % 2 ^ 32

/-- `a` is the address of a program byte (20_memory.md R45). -/
def InProgram (s : State) (a : Nat) : Prop := ∃ r, s.program = some r ∧ r.base ≤ a ∧ a < r.base + r.size

/-- Neither ip nor a program byte lies within 15 bytes of a boundary ip may not pass (10_state.md R19). The boundaries
are the first address past each canonical half, and past the code-segment limit (in offsets) or 2^32 - 1 (in linear
addresses); log 12. -/
def ClearOfTop (s : State) : Prop :=
  match s.mode with
  | .mode64 =>
    let low := match s.cpu.laWidth with
      | .w48 => 2 ^ 47
      | .w57 => 2 ^ 56
    ∀ top ∈ [low, 2 ^ 64], ¬(s.ip.toNat < top ∧ top ≤ s.ip.toNat + 15) ∧
      ∀ r, s.program = some r → ¬(r.base < top ∧ top < r.base + r.size + 15)
  | .mode32 | .real | .v86 =>
    s.ip.toNat + 15 ≤ s.cs.limit.toNat ∧
      ∀ r, s.program = some r → ¬(r.base < 2 ^ 32 ∧ 2 ^ 32 < r.base + r.size + 15) ∧
        (r.base + (2 ^ 32 - s.cs.base.toNat % 2 ^ 32)) % 2 ^ 32 + r.size + 15 ≤ s.cs.limit.toNat + 1

/-! ## Invariant -/

/-- NVREGS, the number of vector registers of the machine (00_scope.md R7). -/
def State.nvregs (s : State) : Nat :=
  match s.mode with
  | .mode64 =>
    if Form.supported .evex128 s.cpu.features || Form.supported .evex256 s.cpu.features ||
        Form.supported .evex512 s.cpu.features then 32 else 16
  | .mode32 | .real | .v86 => 8

/-- ip is a legal instruction pointer of the mode (10_state.md R18, 20_memory.md R39). -/
def State.ipLegal (s : State) : Prop :=
  match s.mode with
  | .mode64 => canonical s.cpu.laWidth s.ip.toNat = true
  | .mode32 | .real | .v86 => s.ip.toNat < 2 ^ 32

/-- The invariant: memory is canonical; every register holds MAXVL bits, and the registers the machine does not have
hold zero; ip is legal. -/
def State.Inv (s : State) : Prop :=
  memWf s.mem = true ∧ (∀ i : VNum, (s.getV i).fit s.cpu.maxvl = s.getV i) ∧
    (∀ i : VNum, s.nvregs ≤ i.toNat → s.getV i = VReg.zero) ∧ s.ipLegal

/-- Two states that agree on everything but V, ip and the model's own counter. -/
def State.SameBut (s t : State) : Prop := t = { s with v := t.v, ip := t.ip, fresh := t.fresh }

/-- An outcome with its next state changed by `f`. -/
def mapNext (f : State → State) : Host.Outcome State Fault Refusal → Host.Outcome State Fault Refusal
  | .next s => .next (f s)
  | .fault e => .fault e
  | .refused r => .refused r

end Sys2Proof.Machine
end

