-- ==== Sys2Proof/Certificates/Slice0/Obligations.lean ====
section
/-! DEFINITION. The statements for the provers, in the terms of Safety.lean. Each says which rule of the spec it
formalises; a statement that rests on a choice of the model names the log entry. -/

open Sys2Proof Sys2Proof.Machine

/-! ## The data semantics -/

/-- 40_pshufhw_sse.md R90, in both of its spellings: by word index, and by the source's shift and slice. -/
def Obligations.ShufHiLaneWords : Prop :=
  ∀ (L : Lane) (imm : BitVec 8),
    (shufHiLane L imm).extractLsb' 0 64 = L.extractLsb' 0 64 ∧
      ∀ i < 4,
        (shufHiLane L imm).extractLsb' (64 + 16 * i) 16 =
            L.extractLsb' (64 + 16 * (imm.extractLsb' (2 * i) 2).toNat) 16 ∧
          (shufHiLane L imm).extractLsb' (64 + 16 * i) 16 =
            (L >>> (16 * (imm.extractLsb' (2 * i) 2).toNat)).extractLsb' 64 16

/-- 40_pshufhw_sse.md R91: the lanes below VL are shuffled one by one with the same immediate, and no word moves from
one lane to another. -/
def Obligations.ShufHiByLanes : Prop :=
  ∀ (f : Form) (S : VReg) (imm : BitVec 8),
    (∀ n < f.lanes, (VReg.low f.lanes (shufHi S imm)).lane n = shufHiLane (S.lane n) imm) ∧
      ∀ j < 8 * f.lanes,
        (VReg.low f.lanes (shufHi S imm)).word j = S.word (shuffledIndex imm j) ∧
          shuffledIndex imm j / 8 = j / 8

/-- 40_pshufhw_sse.md R94 (a) to (f). (d) is stated as: every choice of four source words is some immediate's. -/
def Obligations.ShuffleLaws : Prop :=
  ∀ L : Lane,
    shufHiLane L 0xE4 = L ∧
      (∀ i < 4, word (shufHiLane L 0x00) (4 + i) = word L 4 ∧ word (shufHiLane L 0x55) (4 + i) = word L 5 ∧
        word (shufHiLane L 0xAA) (4 + i) = word L 6 ∧ word (shufHiLane L 0xFF) (4 + i) = word L 7) ∧
      (∀ i < 4, word (shufHiLane L 0x1B) (4 + i) = word L (7 - i)) ∧
      shufHiLane (shufHiLane L 0x1B) 0x1B = L ∧
      (∀ a < 4, ∀ b < 4, ∀ c < 4, ∀ e < 4, ∃ imm : BitVec 8,
        word (shufHiLane L imm) 4 = word L (4 + a) ∧ word (shufHiLane L imm) 5 = word L (4 + b) ∧
          word (shufHiLane L imm) 6 = word L (4 + c) ∧ word (shufHiLane L imm) 7 = word L (4 + e)) ∧
      (∀ imm, (shufHiLane L imm).extractLsb' 0 64 = L.extractLsb' 0 64) ∧
      ∀ a b : BitVec 8, ∀ i < 4,
        word (shufHiLane (shufHiLane L a) b) (4 + i) = word L (4 + selector a (selector b i))

/-- 42_vpshufhw_evex.md R111: the merge, word by word, and mask bits KL and above are not read. -/
def Obligations.MaskMergeWords : Prop :=
  ∀ (f : Form) (T D : VReg) (M : Word64) (nomask z : Bool),
    (∀ j < 8 * f.lanes,
      (VReg.low f.lanes (maskMerge T D M nomask z)).word j =
        if nomask = true ∨ M.getLsbD j = true then T.word j else if z = false then D.word j else 0) ∧
      ∀ M' : Word64, (∀ j < 8 * f.lanes, M'.getLsbD j = M.getLsbD j) →
        VReg.low f.lanes (maskMerge T D M' nomask z) = VReg.low f.lanes (maskMerge T D M nomask z)

/-! ## The forms complete, with the result the spec gives -/

/-- The SSE form (40_pshufhw_sse.md section 2), both encodings, register and memory source, `d = s` included: the low
eight words are shuffled, the upper bits of V[d] that exist are kept, ip moves past the instruction (modulo 2^64 in
64-bit mode and 2^32 otherwise, 10_state.md section 4), and nothing else changes. `sourceWord` is read in the old state. -/
def Obligations.SseCompletes : Prop :=
  ∀ (i : Instr) (p : Prefixes) (d : VNum) (src : Operand) (imm : BitVec 8) (s : State),
    i = .sse p d src imm ∨ i = .sseRex p d src imm →
    Enabled .sse s → SourceReady .sse s p i.length src → s.oracle = .quietMemory →
    ∃ t, exec i s = .next t ∧
      (∀ j < 8, (t.getV d).word j = sourceWord .sse s p i.length src (shuffledIndex imm j)) ∧
      (∀ j, 8 ≤ j → j < 8 * s.cpu.maxvl.lanes → (t.getV d).word j = (s.getV d).word j) ∧
      (∀ r, r ≠ d → t.getV r = s.getV r) ∧ t.ip.toNat = s.ipAfter i.length ∧ s.SameBut t

/-- The VEX forms (41_vpshufhw_vex.md), all four constructors, with vvvv = 1111: the words below VL are shuffled lane
by lane, the upper bits of V[d] are zero, ip moves past the instruction, and nothing else changes. -/
def Obligations.VexCompletes : Prop :=
  ∀ (f : Form) (i : Instr) (p : Prefixes) (d : VNum) (src : Operand) (imm : BitVec 8) (s : State),
    (f = .vex128 ∧ (i = .vex128C5 p 15 d src imm ∨ i = .vex128C4 p 15 d src imm)) ∨
      (f = .vex256 ∧ (i = .vex256C5 p 15 d src imm ∨ i = .vex256C4 p 15 d src imm)) →
    Enabled f s → SourceReady f s p i.length src → s.oracle = .quietMemory →
    ∃ t, exec i s = .next t ∧
      (∀ j < 8 * f.lanes, (t.getV d).word j = sourceWord f s p i.length src (shuffledIndex imm j)) ∧
      (∀ j, 8 * f.lanes ≤ j → j < 32 → (t.getV d).word j = 0) ∧
      (∀ r, r ≠ d → t.getV r = s.getV r) ∧ t.ip.toNat = s.ipAfter i.length ∧ s.SameBut t

/-- The EVEX forms (42_vpshufhw_evex.md), all three constructors: the words below VL are shuffled lane by lane under
the mask, masked-off words are zeroed or keep the old destination's, the upper bits of V[d] are zero, ip moves past the
instruction, and nothing else changes. -/
def Obligations.EvexCompletes : Prop :=
  ∀ (f : Form) (i : Instr) (p : Prefixes) (e : EvexCtl) (d : VNum) (src : Operand) (imm : BitVec 8) (s : State),
    (f = .evex128 ∧ i = .evex128 p e d src imm) ∨ (f = .evex256 ∧ i = .evex256 p e d src imm) ∨
      (f = .evex512 ∧ i = .evex512 p e d src imm) →
    e.vvvv = 15 → e.vp = true → e.b = false → (e.z = true → e.aaa ≠ 0) →
    Enabled f s → SourceReady f s p i.length src → s.oracle = .quietMemory →
    ∃ t, exec i s = .next t ∧
      (∀ j < 8 * f.lanes, (t.getV d).word j =
        if e.aaa = 0 ∨ (s.getK e.aaa).getLsbD j = true then
          sourceWord f s p i.length src (shuffledIndex imm j)
        else if e.z = true then 0 else (s.getV d).word j) ∧
      (∀ j, 8 * f.lanes ≤ j → j < 32 → (t.getV d).word j = 0) ∧
      (∀ r, r ≠ d → t.getV r = s.getV r) ∧ t.ip.toNat = s.ipAfter i.length ∧ s.SameBut t

/-- Under `AnyWriter` (20_memory.md section 5 and 6) every form still completes, with the words the form says of the
value its source was read as, whatever bytes other agents made it (log 5); where the operand is a register or lies in
program bytes, which no other agent changes, the result is that of quiet memory. -/
def Obligations.CompletesWhateverOthersWrite : Prop :=
  ∀ (i : Instr) (s : State), FieldsOk i → Enabled i.form s →
    SourceReady i.form s i.prefixes i.length i.source → s.oracle = .anyWriter →
    ∃ t, exec i s = .next t ∧ t.ip.toNat = s.ipAfter i.length ∧ (∀ r, r ≠ i.dest → t.getV r = s.getV r) ∧
      s.SameBut t ∧
      (∃ x, SourceIs i.form s i.prefixes i.length i.source x ∧
        ∀ j < 8 * s.cpu.maxvl.lanes, (t.getV i.dest).word j = resultWord i s x j) ∧
      ((∀ a, i.source = .mem a → ∀ k < i.form.bytes,
          InProgram s (s.byteAddr (s.place i.form i.prefixes i.length a).lin k)) →
        ∃ t', exec i { s with oracle := .quietMemory } = .next t' ∧ t'.v = t.v)

/-- The corner cases of masking (42_vpshufhw_evex.md section 1, corner cases (b) and (c)): with every mask bit below KL
clear, merging keeps V[d][VL-1:0] and zeroes the rest, zeroing makes V[d] zero. -/
def Obligations.AllZeroMask : Prop :=
  ∀ (f : Form) (i : Instr) (p : Prefixes) (e : EvexCtl) (d : VNum) (src : Operand) (imm : BitVec 8) (s : State),
    (f = .evex128 ∧ i = .evex128 p e d src imm) ∨ (f = .evex256 ∧ i = .evex256 p e d src imm) ∨
      (f = .evex512 ∧ i = .evex512 p e d src imm) →
    e.vvvv = 15 → e.vp = true → e.b = false → e.aaa ≠ 0 →
    (∀ j < 8 * f.lanes, (s.getK e.aaa).getLsbD j = false) →
    Enabled f s → SourceReady f s p i.length src →
    ∃ t, exec i s = .next t ∧ t.ip.toNat = s.ipAfter i.length ∧
      t.getV d = if e.z = true then VReg.zero else VReg.low f.lanes (s.getV d)

/-! ## What a completing form leaves alone -/

/-- 10_state.md R22: V[d] and ip are all that a completing form changes, beside the model's own counter `fresh`; every
byte of memory reads as before. All nine constructors, every form of each. -/
def Obligations.OnlyDestinationAndIpChange : Prop :=
  ∀ (i : Instr) (s t : State), exec i s = .next t →
    (∀ r, r ≠ i.dest → t.getV r = s.getV r) ∧ (∀ a, memRead t.mem a = memRead s.mem a) ∧
      t.mem = s.mem ∧ t.k = s.k ∧ t.g = s.g ∧ t.rflags = s.rflags ∧ t.mxcsr = s.mxcsr ∧ t.x87 = s.x87 ∧
      t.cr0 = s.cr0 ∧ t.cr2 = s.cr2 ∧ t.cr4 = s.cr4 ∧ t.xcr0 = s.xcr0 ∧ t.cpl = s.cpl ∧ t.es = s.es ∧
      t.cs = s.cs ∧ t.ss = s.ss ∧ t.ds = s.ds ∧ t.fs = s.fs ∧ t.gs = s.gs ∧ t.mode = s.mode ∧
      t.defAddr = s.defAddr ∧ t.cpu = s.cpu ∧ t.breakpointsArmed = s.breakpointsArmed ∧ t.map = s.map ∧
      t.program = s.program ∧
      t.xlat = s.xlat ∧ t.oracle = s.oracle

/-- 10_state.md section 5: no form writes a flag, and none reads one, with one exception that is the model's (log 10,
PRESUMED): the alignment-check bit 18, for a memory operand not aligned to its size, at CPL 3 with CR0 bit 18 set. -/
def Obligations.FlagsNeitherReadNorWritten : Prop :=
  ∀ (i : Instr) (s : State) (fl : Word64),
    (fl.getLsbD 18 = s.rflags.getLsbD 18 ∨ (∃ r, i.source = .reg r) ∨
      (∀ a, i.source = .mem a → (s.place i.form i.prefixes i.length a).lin.toNat % i.form.bytes = 0) ∨
      s.cr0.getLsbD 18 = false ∨ s.cpl ≠ 3) →
    exec i { s with rflags := fl } = mapNext (fun t => { t with rflags := fl }) (exec i s)

/-- 10_state.md R21: no form reads or writes MXCSR. -/
def Obligations.MxcsrNeitherReadNorWritten : Prop :=
  ∀ (i : Instr) (s : State) (m : BitVec 32),
    exec i { s with mxcsr := m } = mapNext (fun t => { t with mxcsr := m }) (exec i s)

/-- 10_state.md R15: K[0] is never read, and with aaa = 000 every word is written, whatever the source was read as. -/
def Obligations.OpmaskZeroNeverRead : Prop :=
  (∀ (i : Instr) (s : State) (m : Word64),
    exec i { s with k := s.k.set 0 m } = mapNext (fun t => { t with k := t.k.set 0 m }) (exec i s)) ∧
    ∀ (f : Form) (i : Instr) (p : Prefixes) (e : EvexCtl) (d : VNum) (src : Operand) (imm : BitVec 8) (x : VReg)
        (s t : State),
      (f = .evex128 ∧ i = .evex128 p e d src imm) ∨ (f = .evex256 ∧ i = .evex256 p e d src imm) ∨
        (f = .evex512 ∧ i = .evex512 p e d src imm) →
      e.aaa = 0 → SourceIs f s p i.length src x → exec i s = .next t →
      ∀ j < 8 * f.lanes, (t.getV d).word j = x.word (shuffledIndex imm j)

/-- 10_state.md section 1, the sentence after the table: no form reads bits of the source register above its VL. -/
def Obligations.SourceAboveVlNeverRead : Prop :=
  ∀ (i : Instr) (s : State) (r : VNum) (x : VReg), i.source = .reg r → r ≠ i.dest →
    VReg.low i.form.lanes x = VReg.low i.form.lanes (s.getV r) →
    exec i (s.setV r x) = mapNext (fun t => t.setV r x) (exec i s)

/-! ## Relations between the forms -/

/-- 41_vpshufhw_vex.md R103. The three forms may run in three states, from a register or from memory each, under either
memory oracle. -/
def Obligations.SseAndVexAgree : Prop :=
  ∀ (i1 i2 i3 : Instr) (p1 p2 p3 : Prefixes) (d1 d2 d3 : VNum) (src1 src2 src3 : Operand) (imm : BitVec 8)
    (x1 x2 x3 : VReg) (s1 s2 s3 t1 t2 t3 : State),
    i1 = .sse p1 d1 src1 imm ∨ i1 = .sseRex p1 d1 src1 imm →
    i2 = .vex128C5 p2 15 d2 src2 imm ∨ i2 = .vex128C4 p2 15 d2 src2 imm →
    i3 = .vex256C5 p3 15 d3 src3 imm ∨ i3 = .vex256C4 p3 15 d3 src3 imm →
    SourceIs .sse s1 p1 i1.length src1 x1 → SourceIs .vex128 s2 p2 i2.length src2 x2 →
    SourceIs .vex256 s3 p3 i3.length src3 x3 →
    (∀ j < 8, x1.word j = x2.word j ∧ x2.word j = x3.word j) →
    exec i1 s1 = .next t1 → exec i2 s2 = .next t2 → exec i3 s3 = .next t3 →
    (∀ j < 8, (t1.getV d1).word j = (t2.getV d2).word j ∧ (t2.getV d2).word j = (t3.getV d3).word j) ∧
      (∀ j, 8 ≤ j → j < 32 → (t2.getV d2).word j = 0) ∧
      (∀ j, 8 ≤ j → j < 8 * s1.cpu.maxvl.lanes → (t1.getV d1).word j = (s1.getV d1).word j) ∧
      ((∀ j, 8 ≤ j → j < 16 → x3.word j = 0) →
        (∀ j, 8 ≤ j → j < 16 → (t3.getV d3).word j = 0) ∧ t3.getV d3 = t2.getV d2)

/-- 42_vpshufhw_evex.md R116. The forms may run in two states, from a register or from memory each, under either memory
oracle. -/
def Obligations.VexAndEvexAgree : Prop :=
  (∀ (f g : Form) (i1 i2 : Instr) (p1 p2 : Prefixes) (e : EvexCtl) (d1 d2 : VNum) (src1 src2 : Operand)
    (imm : BitVec 8) (x1 x2 : VReg) (s1 s2 t1 t2 : State),
    (f = .vex128 ∧ g = .evex128 ∧ (i1 = .vex128C5 p1 15 d1 src1 imm ∨ i1 = .vex128C4 p1 15 d1 src1 imm) ∧
        i2 = .evex128 p2 e d2 src2 imm) ∨
      (f = .vex256 ∧ g = .evex256 ∧ (i1 = .vex256C5 p1 15 d1 src1 imm ∨ i1 = .vex256C4 p1 15 d1 src1 imm) ∧
        i2 = .evex256 p2 e d2 src2 imm) →
    SourceIs f s1 p1 i1.length src1 x1 → SourceIs g s2 p2 i2.length src2 x2 →
    (∀ j < 8 * f.lanes, x1.word j = x2.word j) →
    (e.aaa = 0 ∨ ∀ j < 8 * g.lanes, (s2.getK e.aaa).getLsbD j = true) →
    exec i1 s1 = .next t1 → exec i2 s2 = .next t2 → t1.getV d1 = t2.getV d2) ∧
    ∀ (S : VReg) (imm : BitVec 8), S.l1 = 0 → S.l2 = 0 → S.l3 = 0 →
      (shufHi S imm).l1 = 0 ∧ (shufHi S imm).l2 = 0 ∧ (shufHi S imm).l3 = 0

/-! ## Encoding -/

/-- Decoding an encoded well-formed instruction gives it back, with the bytes after it, in every context: all nine
constructors, every operand form and field (30_encoding.md). -/
def Obligations.DecodeEncodeRoundTrip : Prop :=
  ∀ (c : Ctx) (i : Instr) (rest : List Byte), i.wf c = true → decode c (encode i ++ rest) = .instr i rest

/-- Whatever bytes decode to is well-formed in the context they were decoded in. -/
def Obligations.DecodedIsWellFormed : Prop :=
  ∀ (c : Ctx) (bytes rest : List Byte) (i : Instr), decode c bytes = .instr i rest → i.wf c = true

/-- 30_encoding.md section 7: decoding takes exactly `len` bytes off the front, `len` being the sum of the parts'
sizes; the shortest encodings take 5, 6 and 7 bytes. -/
def Obligations.DecodedLengthIsConsumed : Prop :=
  ∀ (c : Ctx) (bytes rest : List Byte) (i : Instr), decode c bytes = .instr i rest →
    (∃ pre, bytes = pre ++ rest ∧ pre.length = i.length) ∧
      match i with
      | .sse _ _ _ _ | .vex128C5 _ _ _ _ _ | .vex256C5 _ _ _ _ _ => 5 ≤ i.length
      | .sseRex _ _ _ _ | .vex128C4 _ _ _ _ _ | .vex256C4 _ _ _ _ _ => 6 ≤ i.length
      | .evex128 _ _ _ _ _ | .evex256 _ _ _ _ _ | .evex512 _ _ _ _ _ => 7 ≤ i.length

/-- Words written out from 30_encoding.md (95_test_vectors.md V20, P4, V30, P5, V41 and V6D), in 64-bit mode. -/
def Obligations.DecodeSampleWords : Prop :=
  decode tableCtx [0xF3, 0x0F, 0x70, 0xC8, 0x1B] = .instr (.sse ⟨none, false⟩ 1 (.reg 0) 0x1B) [] ∧
    decode tableCtx [0xF3, 0x45, 0x0F, 0x70, 0xC9, 0x01] = .instr (.sseRex ⟨none, false⟩ 9 (.reg 9) 0x01) [] ∧
    decode tableCtx [0xC5, 0xFA, 0x70, 0xCA, 0x03] = .instr (.vex128C5 ⟨none, false⟩ 15 1 (.reg 2) 0x03) [] ∧
    decode tableCtx [0xC5, 0xFE, 0x70, 0x2D, 0x17, 0x00, 0x00, 0x00, 0xB1] =
      .instr (.vex256C5 ⟨none, false⟩ 15 5 (.mem (.disp32 0x17)) 0xB1) [] ∧
    decode tableCtx [0x62, 0xF1, 0x7E, 0x49, 0x70, 0xCA, 0x1B] =
      .instr (.evex512 ⟨none, false⟩ ⟨15, true, false, false, 1⟩ 1 (.reg 2) 0x1B) [] ∧
    decode tableCtx [0x0F, 0x70, 0xC8, 0x1B] = .refused .notPSHUFHW

/-- 30_encoding.md R60: the register numbers of whatever decodes, for every form and mode, every reg, rm and extension
bit, whatever legacy bytes stand before it and whatever operand 2 is. `lead` holds no REX byte, where one takes effect
it is written out. -/
def Obligations.RegisterNumbers : Prop :=
  ∀ (c : Ctx) (lead tail rest : List Byte) (modrm : Byte) (i : Instr),
    (∀ x ∈ lead, isLeading c x = true ∧ isRex c x = false) →
    (decode c (lead ++ 0x0F :: 0x70 :: modrm :: tail) = .instr i rest →
      i.form = .sse ∧ i.dest.toNat = (modrm.extractLsb' 3 3).toNat ∧
        (modrm.extractLsb' 6 2 = 3 ↔ ∃ s, i.source = .reg s) ∧
        ∀ s, i.source = .reg s → s.toNat = (modrm.extractLsb' 0 3).toNat) ∧
    (∀ rex : Byte, isRex c rex = true →
      decode c (lead ++ rex :: 0x0F :: 0x70 :: modrm :: tail) = .instr i rest →
      i.form = .sse ∧ i.dest.toNat = 8 * (rex.getLsbD 2).toNat + (modrm.extractLsb' 3 3).toNat ∧
        (modrm.extractLsb' 6 2 = 3 ↔ ∃ s, i.source = .reg s) ∧
        ∀ s, i.source = .reg s → s.toNat = 8 * (rex.getLsbD 0).toNat + (modrm.extractLsb' 0 3).toNat) ∧
    (∀ v1 : Byte, decode c (lead ++ 0xC5 :: v1 :: 0x70 :: modrm :: tail) = .instr i rest →
      i.form = (if v1.getLsbD 2 = true then .vex256 else .vex128) ∧
        i.dest.toNat =
          (if c.mode = .mode64 then 8 * (!v1.getLsbD 7).toNat else 0) + (modrm.extractLsb' 3 3).toNat ∧
        (modrm.extractLsb' 6 2 = 3 ↔ ∃ s, i.source = .reg s) ∧
        ∀ s, i.source = .reg s → s.toNat = (modrm.extractLsb' 0 3).toNat) ∧
    (∀ v1 v2 : Byte, decode c (lead ++ 0xC4 :: v1 :: v2 :: 0x70 :: modrm :: tail) = .instr i rest →
      i.form = (if v2.getLsbD 2 = true then .vex256 else .vex128) ∧
        i.dest.toNat =
          (if c.mode = .mode64 then 8 * (!v1.getLsbD 7).toNat else 0) + (modrm.extractLsb' 3 3).toNat ∧
        (modrm.extractLsb' 6 2 = 3 ↔ ∃ s, i.source = .reg s) ∧
        ∀ s, i.source = .reg s → s.toNat =
          (if c.mode = .mode64 then 8 * (!v1.getLsbD 5).toNat else 0) + (modrm.extractLsb' 0 3).toNat) ∧
    ∀ p0 p1 p2 : Byte, decode c (lead ++ 0x62 :: p0 :: p1 :: p2 :: 0x70 :: modrm :: tail) = .instr i rest →
      i.form = (if p2.extractLsb' 5 2 = 0 then .evex128 else if p2.extractLsb' 5 2 = 1 then .evex256 else .evex512) ∧
        i.dest.toNat =
          (if c.mode = .mode64 then 16 * (!p0.getLsbD 4).toNat + 8 * (!p0.getLsbD 7).toNat else 0) +
            (modrm.extractLsb' 3 3).toNat ∧
        (modrm.extractLsb' 6 2 = 3 ↔ ∃ s, i.source = .reg s) ∧
        ∀ s, i.source = .reg s → s.toNat =
          (if c.mode = .mode64 then 16 * (!p0.getLsbD 6).toNat + 8 * (!p0.getLsbD 5).toNat else 0) +
            (modrm.extractLsb' 0 3).toNat

/-- 30_encoding.md sections 1, 2, 4, 5 and 7: every register-to-register encoding of every form decodes, to the form and
the registers its bits name, in 64-bit mode and outside it, after every admitted list of legacy bytes: at most one
segment override and one 67, with F3 once before the SSE form, in any order, and REX last. In the two older modes that
is the decoder's answer only: section 4 says VEX forms are not recognised there, and that the decoder reads VEX and EVEX
prefixes by protected mode's rules, `exec` then raising #UD, is the model's choice (log 9). -/
def Obligations.RegisterFormsDecode : Prop :=
  ∀ (c : Ctx) (lead : List Byte) (modrm imm : Byte) (rest : List Byte), modrm.extractLsb' 6 2 = 3 →
    (∀ x ∈ lead, isSegByte x = true ∨ x = 0x67 ∨ x = 0xF3) → (lead.filter isSegByte).length ≤ 1 →
    lead.count 0x67 ≤ 1 →
    let p : Prefixes := { seg := lead.findSome? segOverride, addrSize := decide ((0x67 : Byte) ∈ lead) }
    (lead.count 0xF3 = 1 →
      (∃ i s, decode c (lead ++ 0x0F :: 0x70 :: modrm :: imm :: rest) = .instr i rest ∧ i.form = .sse ∧
        i.prefixes = p ∧ i.imm = imm ∧ i.source = .reg s ∧ i.dest.toNat = (modrm.extractLsb' 3 3).toNat ∧
        s.toNat = (modrm.extractLsb' 0 3).toNat) ∧
      ∀ rex : Byte, rex.extractLsb' 4 4 = 4 → c.mode = .mode64 →
        ∃ i s, decode c (lead ++ rex :: 0x0F :: 0x70 :: modrm :: imm :: rest) = .instr i rest ∧ i.form = .sse ∧
          i.prefixes = p ∧ i.imm = imm ∧ i.source = .reg s ∧
          i.dest.toNat = 8 * (rex.getLsbD 2).toNat + (modrm.extractLsb' 3 3).toNat ∧
          s.toNat = 8 * (rex.getLsbD 0).toNat + (modrm.extractLsb' 0 3).toNat) ∧
    ((0xF3 : Byte) ∉ lead →
      (∀ v1 : Byte, v1.extractLsb' 0 2 = 2 → c.mode = .mode64 ∨ v1.extractLsb' 6 2 = 3 ∧ c.vex = true →
        ∃ i s, decode c (lead ++ 0xC5 :: v1 :: 0x70 :: modrm :: imm :: rest) = .instr i rest ∧
          i.form = (if v1.getLsbD 2 = true then .vex256 else .vex128) ∧
          i.prefixes = p ∧ i.imm = imm ∧ i.source = .reg s ∧
          i.dest.toNat = 8 * (!v1.getLsbD 7).toNat + (modrm.extractLsb' 3 3).toNat ∧
          s.toNat = (modrm.extractLsb' 0 3).toNat) ∧
      (∀ v1 v2 : Byte, v1.extractLsb' 0 5 = 1 → v2.extractLsb' 0 2 = 2 →
        c.mode = .mode64 ∨ v1.extractLsb' 6 2 = 3 ∧ c.vex = true →
        ∃ i s, decode c (lead ++ 0xC4 :: v1 :: v2 :: 0x70 :: modrm :: imm :: rest) = .instr i rest ∧
          i.form = (if v2.getLsbD 2 = true then .vex256 else .vex128) ∧
          i.prefixes = p ∧ i.imm = imm ∧ i.source = .reg s ∧
          i.dest.toNat = 8 * (!v1.getLsbD 7).toNat + (modrm.extractLsb' 3 3).toNat ∧
          s.toNat = (if c.mode = .mode64 then 8 * (!v1.getLsbD 5).toNat else 0) + (modrm.extractLsb' 0 3).toNat) ∧
      ∀ p0 p1 p2 : Byte, p0.extractLsb' 0 4 = 1 → p1.extractLsb' 0 3 = 6 → p2.extractLsb' 5 2 ≠ 3 →
        c.mode = .mode64 ∨ p0.extractLsb' 4 4 = 15 ∧ c.evex = true →
        ∃ i s, decode c (lead ++ 0x62 :: p0 :: p1 :: p2 :: 0x70 :: modrm :: imm :: rest) = .instr i rest ∧
          i.form =
            (if p2.extractLsb' 5 2 = 0 then .evex128 else if p2.extractLsb' 5 2 = 1 then .evex256 else .evex512) ∧
          i.prefixes = p ∧ i.imm = imm ∧ i.source = .reg s ∧
          i.dest.toNat = 16 * (!p0.getLsbD 4).toNat + 8 * (!p0.getLsbD 7).toNat + (modrm.extractLsb' 3 3).toNat ∧
          s.toNat = 16 * (!p0.getLsbD 6).toNat + 8 * (!p0.getLsbD 5).toNat + (modrm.extractLsb' 0 3).toNat)

/-- 30_encoding.md section 1, the words "in any order": exchanging two neighbouring legacy bytes, REX bytes apart, leaves
what the bytes decode to, whatever the form and operand 2. With `DecodeEncodeRoundTrip`, which has one order, every
instruction is decoded after its legacy bytes in every order. -/
def Obligations.LegacyBytesInAnyOrder : Prop :=
  ∀ (c : Ctx) (a b rest : List Byte) (x y : Byte) (i : Instr),
    (∀ z ∈ a, isLeading c z = true) → isLeading c x = true → isLeading c y = true →
    isRex c x = false → isRex c y = false →
    decode c (a ++ x :: y :: b) = .instr i rest → decode c (a ++ y :: x :: b) = .instr i rest

/-- 30_encoding.md sections 6 and 7: bytes that are none of the six forms are refused, whatever legacy bytes stand
before them: no F3, another opcode, another first byte, outside 64-bit mode C4, C5 or 62 without `11` after it, and in
every mode where they are a prefix another `pp`, map or opcode, an EVEX prefix with its reserved bits right (with wrong
ones: `ReservedEvexBitsRaiseUd`). That such a VEX or EVEX prefix is refused after 66, F2, F3, REX or LOCK too, where a
form would raise #UD, is the model's choice (log 14), and so is the same in the two older modes (log 9). -/
def Obligations.NeighboursAreRefused : Prop :=
  ∀ (c : Ctx) (lead rest : List Byte), (∀ x ∈ lead, isLeading c x = true) →
    ((0xF3 : Byte) ∉ lead → decode c (lead ++ 0x0F :: 0x70 :: rest) = .refused .notPSHUFHW) ∧
    (∀ op : Byte, op ≠ 0x70 → decode c (lead ++ 0x0F :: op :: rest) = .refused .notPSHUFHW) ∧
    (∀ b : Byte, isLeading c b = false → b ≠ 0x0F → b ≠ 0xC5 → b ≠ 0xC4 → b ≠ 0x62 →
      decode c (lead ++ b :: rest) = .refused .notPSHUFHW) ∧
    (∀ b x : Byte, b = 0xC5 ∨ b = 0xC4 ∨ b = 0x62 → c.mode ≠ .mode64 → x.extractLsb' 6 2 ≠ 3 →
      decode c (lead ++ b :: x :: rest) = .refused .notPSHUFHW) ∧
    (∀ v1 op : Byte, c.mode = .mode64 ∨ v1.extractLsb' 6 2 = 3 ∧ c.vex = true → op ≠ 0x70 ∨ v1.extractLsb' 0 2 ≠ 2 →
      decode c (lead ++ 0xC5 :: v1 :: op :: rest) = .refused .notPSHUFHW) ∧
    (∀ v1 v2 op : Byte, c.mode = .mode64 ∨ v1.extractLsb' 6 2 = 3 ∧ c.vex = true →
      op ≠ 0x70 ∨ v2.extractLsb' 0 2 ≠ 2 ∨ v1.extractLsb' 0 5 ≠ 1 →
      decode c (lead ++ 0xC4 :: v1 :: v2 :: op :: rest) = .refused .notPSHUFHW) ∧
    ∀ p0 p1 p2 op : Byte, c.mode = .mode64 ∨ p0.extractLsb' 6 2 = 3 ∧ c.evex = true →
      p0.extractLsb' 2 2 = 0 → p1.getLsbD 2 = true →
      op ≠ 0x70 ∨ p1.extractLsb' 0 2 ≠ 2 ∨ p0.extractLsb' 0 2 ≠ 1 →
      decode c (lead ++ 0x62 :: p0 :: p1 :: p2 :: op :: rest) = .refused .notPSHUFHW

/-- 30_encoding.md section 5 and section 9 (the order of checks), wherever `62` is an EVEX prefix: wrong reserved bits
(`P0[3:2]`, `P1[2]`), and `L'L = 11`, in an encoding that is otherwise a form's, make the step raise #UD where ModRM to
immediate lie in the window, and #GP(0) where fifteen bytes end before they do (60_exceptions.md section 3). Wrong
reserved bits with another map, pp or opcode raise #UD, whose length the spec does not give (log 31, DESIGN CHOICE). -/
def Obligations.ReservedEvexBitsRaiseUd : Prop :=
  ∀ (s : State) (lead tail : List Byte) (p0 p1 p2 op : Byte),
    s.mode = .mode64 ∨ p0.extractLsb' 6 2 = 3 ∧ s.ctx.evex = true → s.fetchStop = none →
    (∀ x ∈ lead, isLeading s.ctx x = true) → s.window = lead ++ 0x62 :: p0 :: p1 :: p2 :: op :: tail →
    (op = 0x70 ∧ p1.extractLsb' 0 2 = 2 ∧ p0.extractLsb' 0 2 = 1 →
      p0.extractLsb' 2 2 ≠ 0 ∨ p1.getLsbD 2 = false ∨ p2.extractLsb' 5 2 = 3 →
      ∀ e : Ext, let body := takeBody (s.ctx.asz (decide ((0x67 : Byte) ∈ lead))) e tail
        (body ≠ none → step s = .fault .ud) ∧ (body = none → s.window.length = 15 → step s = .fault .gp0)) ∧
      (op ≠ 0x70 ∨ p1.extractLsb' 0 2 ≠ 2 ∨ p0.extractLsb' 0 2 ≠ 1 →
        p0.extractLsb' 2 2 ≠ 0 ∨ p1.getLsbD 2 = false → step s = .fault .ud)

/-- 30_encoding.md R54: a LOCK byte among the legacy bytes before any form's encoding makes the step raise #UD. `a`
and `b` are the encoding's bytes before and after the place of the LOCK byte; it cannot stand after a REX byte, which
must be the last before the opcode. More LOCK bytes, or others beside one, before a VEX or EVEX form are in
`PrefixBeforeVexRaisesUd`; before the SSE form they are an odd sequence (`PrefixCombinationsAreRefused`). -/
def Obligations.LockRaisesUd : Prop :=
  ∀ (s : State) (a b rest : List Byte) (i : Instr),
    (∀ x ∈ a, isLeading s.ctx x = true ∧ isRex s.ctx x = false) → decode s.ctx (a ++ b) = .instr i rest →
    s.fetchStop = none → s.window = a ++ 0xF0 :: b → step s = .fault .ud

/-- 30_encoding.md sections 1, 4 and 5: a VEX or EVEX form makes the step raise #UD after every list of legacy bytes with
at least one 66, F2, F3, LOCK or REX byte in it, however many and beside whichever overrides. `y :: b` is the encoding from
the prefix on, which after some list `a` decodes to an instruction, or is refused for its EVEX extension bits or 16-bit
operand (then #UD comes first by log 20); `a` has a 67 where `lead` has one, so that both spell the same operand. -/
def Obligations.PrefixBeforeVexRaisesUd : Prop :=
  ∀ (s : State) (a lead b : List Byte) (x y : Byte), y = 0xC5 ∨ y = 0xC4 ∨ y = 0x62 →
    (∀ z ∈ a, isLeading s.ctx z = true) → (∀ z ∈ lead, isLeading s.ctx z = true) →
    ((0x67 : Byte) ∈ a ↔ (0x67 : Byte) ∈ lead) →
    (∃ i rest, decode s.ctx (a ++ y :: b) = .instr i rest) ∨
      decode s.ctx (a ++ y :: b) = .refused .evexExtensionBitsMode32 ∨
      decode s.ctx (a ++ y :: b) = .refused .evex16BitAddressing →
    x ∈ lead → x = 0x66 ∨ x = 0xF2 ∨ x = 0xF3 ∨ x = 0xF0 ∨ isRex s.ctx x = true →
    s.fetchStop = none → s.window = lead ++ y :: b → step s = .fault .ud

/-- 30_encoding.md section 1: bytes with the SSE form's opcode and F3 are refused, whatever follows the opcode, after every
odd list of legacy bytes: a 66 or F2, F3 or 67 or an override twice, or a REX byte that another byte follows. That two
LOCK bytes are one of these, and that the refusal comes before LOCK's #UD, is the model's choice (log 14), and so is the
same after a repeated override or 67 before a VEX or EVEX form outside the two older modes, before any exception of the
form itself. -/
def Obligations.PrefixCombinationsAreRefused : Prop :=
  (∀ (c : Ctx) (lead rest : List Byte), (∀ z ∈ lead, isLeading c z = true) → (0xF3 : Byte) ∈ lead →
    (0x66 : Byte) ∈ lead ∨ (0xF2 : Byte) ∈ lead ∨ 1 < lead.count 0xF3 ∨ 1 < lead.count 0xF0 ∨ 1 < lead.count 0x67 ∨
      1 < (lead.filter isSegByte).length ∨
      (∃ a x y b, lead = a ++ x :: y :: b ∧ isRex c x = true) →
    decode c (lead ++ 0x0F :: 0x70 :: rest) = .refused .prefixCombination) ∧
  ∀ (c : Ctx) (a lead b rest : List Byte) (y : Byte) (i : Instr), y = 0xC5 ∨ y = 0xC4 ∨ y = 0x62 →
    c.mode = .mode64 ∨ c.mode = .mode32 → (∀ z ∈ a, isLeading c z = true) →
    (∀ z ∈ lead, isSegByte z = true ∨ z = 0x67) → ((0x67 : Byte) ∈ a ↔ (0x67 : Byte) ∈ lead) →
    decode c (a ++ y :: b) = .instr i rest →
    1 < lead.count 0x67 ∨ 1 < (lead.filter isSegByte).length →
    decode c (lead ++ y :: b) = .refused .prefixCombination

/-- Outside 64-bit mode C4, C5 and 62 of a family the processor does not have are none of the six forms, whatever follows,
and refused (60_exceptions.md section 1, 00_scope.md section 5; log 15), and in protected and compatibility mode so are, whatever operand 2, an EVEX form with an extension bit stored
as 0 and one with a 16-bit memory operand (30_encoding.md sections 3 and 5), where the encoding's own fields raise no #UD,
whatever override or 67 stands before. That these names come before those of zeroing without a mask and of b = 1 with a
register, and before the exceptions of enabling, #NM and the operand, is the model's choice (log 20). `src` ranges over the operands ModRM and SIB can spell. -/
def Obligations.RefusalsOutside64BitMode : Prop :=
  ∀ (c : Ctx) (lead rest : List Byte) (p0 p1 p2 : Byte), c.mode ≠ .mode64 → p0.extractLsb' 6 2 = 3 →
    (∀ x ∈ lead, isLeading c x = true) →
    (c.vex = false → decode c (lead ++ 0xC5 :: p0 :: rest) = .refused .notPSHUFHW ∧
      decode c (lead ++ 0xC4 :: p0 :: rest) = .refused .notPSHUFHW) ∧
    (c.evex = false → decode c (lead ++ 0x62 :: p0 :: rest) = .refused .notPSHUFHW) ∧
    ∀ (d : VNum) (src : Operand) (imm : BitVec 8), c.mode = .mode32 → c.evex = true →
      (∀ x ∈ lead, isSegByte x = true ∨ x = 0x67) →
      src.ok (c.asz (decide ((0x67 : Byte) ∈ lead))) 8 8 = true →
      p0.extractLsb' 0 4 = 1 → p1.extractLsb' 0 3 = 6 → p2.extractLsb' 5 2 ≠ 3 →
      p1.extractLsb' 3 4 = 15 → p2.getLsbD 3 = true → p2.getLsbD 4 = false ∨ (∃ r, src = .reg r) →
      (p0.extractLsb' 4 2 ≠ 3 →
        decode c (lead ++ 0x62 :: p0 :: p1 :: p2 :: (encodeBody d src imm ++ rest)) =
          .refused .evexExtensionBitsMode32) ∧
      (p0.extractLsb' 4 2 = 3 → c.asz (decide ((0x67 : Byte) ∈ lead)) = .a16 → (∃ a, src = .mem a) →
        decode c (lead ++ 0x62 :: p0 :: p1 :: p2 :: (encodeBody d src imm ++ rest)) = .refused .evex16BitAddressing)

/-! ## Addresses -/

/-- 30_encoding.md R63: RIP-relative addressing in 64-bit mode, which mod = 00 with rm = 101 spells; the length counts
the immediate. -/
def Obligations.RipRelativeOffset : Prop :=
  (∀ (e : Ext) (d : BitVec 32) (rest : List Byte),
    takeOperand .a64 e 0 5 (bytes32 d ++ rest) = some (.mem (.disp32 d), rest) ∧
      takeOperand .a32 e 0 5 (bytes32 d ++ rest) = some (.mem (.disp32 d), rest)) ∧
  ∀ (s : State) (i : Instr) (d : BitVec 32), s.mode = .mode64 → i.source = .mem (.disp32 d) →
    (s.place i.form i.prefixes i.length (.disp32 d)).off =
        (if i.prefixes.addrSize = true then
          ((s.ip + BitVec.ofNat 64 i.length + d.signExtend 64).setWidth 32).setWidth 64
        else s.ip + BitVec.ofNat 64 i.length + d.signExtend 64) ∧
      i.length = i.prefixes.size + i.opcodeSize + 1 + 4 + 1 ∧
      (i.prefixes.seg = none → (s.place i.form i.prefixes i.length (.disp32 d)).seg = .ds)

/-- 30_encoding.md R79: a one-byte displacement is scaled by the operand size in EVEX forms and by one in the others, at
every address size; a two- or four-byte one is not scaled. -/
def Obligations.CompressedDisplacement : Prop :=
  ∀ (s : State) (f : Form) (asz : AddrSize) (len : Nat) (b x : GNum) (sc : BitVec 2) (form : BitVec 3) (v : BitVec 8)
    (h : BitVec 16) (w : BitVec 32),
    let N : Nat := match f with
      | .sse | .vex128 | .vex256 => 1
      | .evex128 => 16
      | .evex256 => 32
      | .evex512 => 64
    s.offset asz f.dispScale len (.base b (.d8 v)) =
        truncAddr asz (s.getG asz b + v.signExtend 64 * BitVec.ofNat 64 N) ∧
      s.offset asz f.dispScale len (.sib b x sc (.d8 v)) =
        truncAddr asz (s.getG asz b + s.indexValue asz x sc + v.signExtend 64 * BitVec.ofNat 64 N) ∧
      (f.isEvex = false → s.offset .a16 f.dispScale len (.idx16 form (.d8 v)) =
        truncAddr .a16 (s.base16 form + v.signExtend 64)) ∧
      s.offset .a16 f.dispScale len (.idx16 form (.d16 h)) = truncAddr .a16 (s.base16 form + h.signExtend 64) ∧
      s.offset asz f.dispScale len (.base b (.d32 w)) = truncAddr asz (s.getG asz b + w.signExtend 64) ∧
      s.offset asz f.dispScale len (.sib b x sc (.d32 w)) =
        truncAddr asz (s.getG asz b + s.indexValue asz x sc + w.signExtend 64)

/-- 30_encoding.md section 3: the default segment, the overrides, and the bases in 64-bit mode, and the override bytes of
section 1. That an override which 64-bit mode ignores leaves the default segment, SS included, is DEDUCED (log 16). The
16-bit forms are in `AddressFormation`. -/
def Obligations.SegmentSelection : Prop :=
  ∀ (s : State) (p : Prefixes) (b x : GNum) (sc : BitVec 2) (disp : Disp) (w : BitVec 32) (off : Word64),
    (defaultSeg (.base b disp) = if b = 4 ∨ b = 5 then .ss else .ds) ∧
      (defaultSeg (.sib b x sc disp) = if b = 4 ∨ b = 5 then .ss else .ds) ∧
      defaultSeg (.sibNoBase x sc w) = .ds ∧ defaultSeg (.disp32 w) = .ds ∧
      (∀ a, p.seg = none → s.segOf p a = defaultSeg a) ∧
      (∀ a r, p.seg = some r → s.mode ≠ .mode64 → s.segOf p a = r) ∧
      (∀ a r, p.seg = some r → s.mode = .mode64 →
        s.segOf p a = if r = .fs ∨ r = .gs then r else defaultSeg a) ∧
      (s.mode = .mode64 → s.linear .fs off = s.fs.base + off ∧ s.linear .gs off = s.gs.base + off ∧
        s.linear .cs off = off ∧ s.linear .ds off = off ∧ s.linear .es off = off ∧ s.linear .ss off = off) ∧
      [0x2E, 0x36, 0x3E, 0x26, 0x64, 0x65].map segOverride =
        [some .cs, some .ss, some .ds, some .es, some .fs, some .gs]

/-- 30_encoding.md section 3: what a general register gives at each address size, the address size, 32- and 64-bit base and
SIB addressing, the eight forms of 16-bit addressing with each displacement and their segments, and the linear address
outside 64-bit mode and of each byte (log 17). mod = 00 has no form 110, which spells the displacement alone. -/
def Obligations.AddressFormation : Prop :=
  ∀ (s : State) (n len : Nat) (b x : GNum) (sc : BitVec 2) (w : BitVec 32) (h : BitVec 16) (v : BitVec 8) (off : Word64)
    (r : SegReg) (disp : Disp) (k : Nat),
    let G : Word64 := s.g[b.toNat]'b.isLt
    (s.getG .a64 b = G ∧ s.getG .a32 b = (G.setWidth 32).setWidth 64 ∧ s.getG .a16 b = (G.setWidth 16).setWidth 64) ∧
      (s.mode = .mode64 → s.asz ⟨none, false⟩ = .a64 ∧ s.asz ⟨none, true⟩ = .a32) ∧
      (s.mode ≠ .mode64 → s.defAddr = .a32 → s.asz ⟨none, false⟩ = .a32 ∧ s.asz ⟨none, true⟩ = .a16) ∧
      (s.mode ≠ .mode64 → s.defAddr = .a16 → s.asz ⟨none, false⟩ = .a16 ∧ s.asz ⟨none, true⟩ = .a32) ∧
      s.offset .a64 n len (.base b .none) = s.getG .a64 b ∧
      s.offset .a32 n len (.base b (.d32 w)) = ((s.getG .a64 b + w.signExtend 64).setWidth 32).setWidth 64 ∧
      (x ≠ 4 → s.offset .a64 n len (.sib b x sc .none) = s.getG .a64 b + s.getG .a64 x <<< sc.toNat) ∧
      s.offset .a64 n len (.sib b 4 sc .none) = s.getG .a64 b ∧
      (x ≠ 4 → s.offset .a64 n len (.sibNoBase x sc w) = s.getG .a64 x <<< sc.toNat + w.signExtend 64) ∧
      s.offset .a64 n len (.sibNoBase 4 sc w) = w.signExtend 64 ∧
      (let R := fun i : GNum => (s.getG .a64 i).setWidth 32;
        s.offset .a32 n len (.base b .none) = (R b).setWidth 64 ∧
          (x ≠ 4 → s.offset .a32 n len (.sib b x sc .none) = (R b + R x <<< sc.toNat).setWidth 64) ∧
          s.offset .a32 n len (.sib b 4 sc .none) = (R b).setWidth 64 ∧
          (x ≠ 4 → s.offset .a32 n len (.sibNoBase x sc w) = (R x <<< sc.toNat + w).setWidth 64) ∧
          s.offset .a32 n len (.sibNoBase 4 sc w) = w.setWidth 64) ∧
      (s.mode ≠ .mode64 → s.offset .a32 n len (.disp32 w) = w.setWidth 64) ∧
      (let R := fun i : GNum => (s.getG .a64 i).setWidth 16;
        [0, 1, 2, 3, 4, 5, 6, 7].map (fun form => s.offset .a16 1 len (.idx16 form (.d8 v))) =
            [R 3 + R 6, R 3 + R 7, R 5 + R 6, R 5 + R 7, R 6, R 7, R 5, R 3].map
              (fun o => (o + v.signExtend 16).setWidth 64) ∧
          [0, 1, 2, 3, 4, 5, 6, 7].map (fun form => s.offset .a16 1 len (.idx16 form (.d16 h))) =
            [R 3 + R 6, R 3 + R 7, R 5 + R 6, R 5 + R 7, R 6, R 7, R 5, R 3].map (fun o => (o + h).setWidth 64) ∧
          [0, 1, 2, 3, 4, 5, 7].map (fun form => s.offset .a16 n len (.idx16 form .none)) =
            [R 3 + R 6, R 3 + R 7, R 5 + R 6, R 5 + R 7, R 6, R 7, R 3].map (fun o => o.setWidth 64)) ∧
      s.offset .a16 n len (.disp16 h) = h.setWidth 64 ∧
      [0, 1, 2, 3, 4, 5, 6, 7].map (fun form => defaultSeg (.idx16 form disp)) =
        [.ds, .ds, .ss, .ss, .ds, .ds, .ss, .ds] ∧
      defaultSeg (.disp16 h) = .ds ∧
      (s.mode ≠ .mode64 → s.linear r off = (((s.segment r).base + off).setWidth 32).setWidth 64) ∧
      (s.mode = .mode64 → s.byteAddr off k = off.toNat + k) ∧
      (s.mode ≠ .mode64 → s.byteAddr off k = (off.toNat + k) % 2 ^ 32)

/-- 20_memory.md R39: a 64-bit linear address is canonical when its bits 63 down to 47, or down to 56, are all equal. An
operand byte at 2^64 or above counts as not canonical (log 17, DEDUCED). -/
def Obligations.CanonicalAddresses : Prop :=
  (∀ lin : Word64,
    (canonical .w48 lin.toNat = true ↔ ∀ j, 47 ≤ j → j < 64 → lin.getLsbD j = lin.getLsbD 63) ∧
      (canonical .w57 lin.toNat = true ↔ ∀ j, 56 ≤ j → j < 64 → lin.getLsbD j = lin.getLsbD 63)) ∧
    ∀ (w : LaWidth) (a : Nat), 2 ^ 64 ≤ a → canonical w a = false

/-! ## Exceptions -/

/-- `vvvv` other than 1111 raises #UD in all four VEX and all three EVEX constructors, and V' = 0 in the EVEX ones
(60_exceptions.md section 1 (b), 30_encoding.md sections 4 and 5), in every state. -/
def Obligations.VvvvMustBeOnes : Prop :=
  ∀ (s : State) (p : Prefixes) (v : BitVec 4) (e : EvexCtl) (d : VNum) (src : Operand) (imm : BitVec 8),
    (v ≠ 15 → exec (.vex128C5 p v d src imm) s = .fault .ud ∧ exec (.vex128C4 p v d src imm) s = .fault .ud ∧
      exec (.vex256C5 p v d src imm) s = .fault .ud ∧ exec (.vex256C4 p v d src imm) s = .fault .ud) ∧
      (e.vvvv ≠ 15 ∨ e.vp = false → exec (.evex128 p e d src imm) s = .fault .ud ∧
        exec (.evex256 p e d src imm) s = .fault .ud ∧ exec (.evex512 p e d src imm) s = .fault .ud)

/-- 30_encoding.md section 5: b = 1 raises #UD with a memory operand; with a register operand the encoding is refused,
where no other #UD condition holds. That the refusal comes before #NM, and before that of zeroing without a mask, is the
model's choice (log 19). -/
def Obligations.EvexBBit : Prop :=
  ∀ (f : Form) (i : Instr) (p : Prefixes) (e : EvexCtl) (d : VNum) (src : Operand) (imm : BitVec 8) (s : State),
    (f = .evex128 ∧ i = .evex128 p e d src imm) ∨ (f = .evex256 ∧ i = .evex256 p e d src imm) ∨
      (f = .evex512 ∧ i = .evex512 p e d src imm) →
    e.b = true →
    (∀ a, src = .mem a → exec i s = .fault .ud) ∧
      (∀ r, src = .reg r → e.vvvv = 15 → e.vp = true → Powered f s → exec i s = .refused .evexBWithRegister)

/-- 30_encoding.md section 5: z = 1 with aaa = 000 is refused, where no #UD condition holds; before #NM, the model's
choice (log 19). -/
def Obligations.ZeroingWithoutMaskIsRefused : Prop :=
  ∀ (f : Form) (i : Instr) (p : Prefixes) (e : EvexCtl) (d : VNum) (src : Operand) (imm : BitVec 8) (s : State),
    (f = .evex128 ∧ i = .evex128 p e d src imm) ∨ (f = .evex256 ∧ i = .evex256 p e d src imm) ∨
      (f = .evex512 ∧ i = .evex512 p e d src imm) →
    e.vvvv = 15 → e.vp = true → e.b = false → e.z = true → e.aaa = 0 → Powered f s →
    exec i s = .refused .zeroingWithoutMask

/-- 60_exceptions.md R134. -/
def Obligations.SseNeedsOsEnabling : Prop :=
  ∀ (i : Instr) (s : State), i.form = .sse → s.cr0.getLsbD 2 = true ∨ s.cr4.getLsbD 9 = false →
    exec i s = .fault .ud

/-- 60_exceptions.md R135: the enabling bits of the VEX and EVEX forms, and that CR0.EM and CR4.OSFXSR are not tested for
them. -/
def Obligations.VexAndEvexNeedOsEnabling : Prop :=
  ∀ (i : Instr) (s : State), i.form ≠ .sse →
    (s.cr4.getLsbD 18 = false ∨ s.xcr0.extractLsb' 1 2 ≠ 3 → exec i s = .fault .ud) ∧
      (i.form.isEvex = true → s.xcr0.extractLsb' 5 3 ≠ 7 → exec i s = .fault .ud) ∧
      ∀ x y : Word64, (∀ j, j ≠ 2 → x.getLsbD j = s.cr0.getLsbD j) → (∀ j, j ≠ 9 → y.getLsbD j = s.cr4.getLsbD j) →
        exec i { s with cr0 := x, cr4 := y } = mapNext (fun t => { t with cr0 := x, cr4 := y }) (exec i s)

/-- 60_exceptions.md section 1 and 00_scope.md sections 2 and 4: a form whose CPUID condition is false, or whose VL
exceeds MAXVL, raises #UD; the conditions are those of the table. -/
def Obligations.UnsupportedFormsRaiseUd : Prop :=
  (∀ (i : Instr) (s : State),
    i.form.supported s.cpu.features = false ∨ s.cpu.maxvl.lanes < i.form.lanes → exec i s = .fault .ud) ∧
    ∀ c : Features,
      Form.supported .sse c = c.sse2 ∧ Form.supported .vex128 c = c.avx ∧ Form.supported .vex256 c = c.avx2 ∧
        Form.supported .evex128 c = ((c.avx512vl && c.avx512bw) || c.avx10_1) ∧
        Form.supported .evex256 c = ((c.avx512vl && c.avx512bw) || c.avx10_1) ∧
        Form.supported .evex512 c = (c.avx512bw || c.avx10_1)

/-- 60_exceptions.md R136: with CR0.TS = 1 every form raises #NM, where no #UD condition holds. The two encodings the
spec refuses because it does not know whether they raise #UD are in `EvexBBit` and `ZeroingWithoutMaskIsRefused`. -/
def Obligations.TaskSwitchedRaisesNm : Prop :=
  ∀ (i : Instr) (s : State), FieldsOk i → Powered i.form s → s.cr0.getLsbD 3 = true → exec i s = .fault .nm

/-- 60_exceptions.md R133: the SSE form executes in every mode, VEX and EVEX forms execute in 64-bit, protected and
compatibility mode and raise #UD in real-address and virtual-8086 mode, and a launch in those modes is refused; a launch in the other two is not, by that name. -/
def Obligations.ModesOfTheForms : Prop :=
  (∀ (i : Instr) (s : State), i.form = .sse ∨ s.mode = .mode64 ∨ s.mode = .mode32 → FieldsOk i → Enabled i.form s →
    SourceReady i.form s i.prefixes i.length i.source → ∃ t, exec i s = .next t) ∧
    (∀ (i : Instr) (s : State), i.form ≠ .sse → s.mode = .real ∨ s.mode = .v86 → exec i s = .fault .ud) ∧
    (∀ s : State, launch s = .refused .unsupportedMode ↔ s.mode = .real ∨ s.mode = .v86)

/-- 20_memory.md section 3: a memory operand of the SSE form that is not on a 16-byte boundary raises #GP(0), in every
mode, where no other fault applies. That the other forms have no such condition is in `VexCompletes` and
`EvexCompletes`: `Readable` asks them for no alignment. -/
def Obligations.MisalignedSseOperandRaisesGp : Prop :=
  ∀ (i : Instr) (s : State) (a : Addr), i.form = .sse → i.source = .mem a → Enabled .sse s →
    AddressOk s (s.place .sse i.prefixes i.length a) 16 → Untouched s (s.place .sse i.prefixes i.length a) 16 →
    (s.place .sse i.prefixes i.length a).lin.toNat % 16 ≠ 0 → exec i s = .fault .gp0

/-- 20_memory.md section 5 and 60_exceptions.md section 1: a byte of the operand at a non-canonical address (64-bit mode;
that bytes at 2^64 and above are such is log 17, DEDUCED), past the segment limit (protected and compatibility mode;
log 8, DESIGN CHOICE) or past FFFFH (the two older modes; log 29, DEDUCED) raises #SS(0) through the stack segment and
#GP(0) otherwise, in the older modes always #GP(0), where no other fault applies. In 64-bit mode the stack segment is
that of a base RSP or RBP under an ignored override too (log 16, DEDUCED). -/
def Obligations.BadAddressRaisesSsOrGp : Prop :=
  ∀ (i : Instr) (s : State) (a : Addr), FieldsOk i → Enabled i.form s → i.source = .mem a →
    (i.form = .sse → (s.place i.form i.prefixes i.length a).lin.toNat % 16 = 0) →
    Untouched s (s.place i.form i.prefixes i.length a) i.form.bytes →
    (match s.mode with
      | .mode64 => ∃ k < i.form.bytes,
          canonical s.cpu.laWidth ((s.place i.form i.prefixes i.length a).lin.toNat + k) = false
      | .mode32 => (s.segment (s.place i.form i.prefixes i.length a).seg).limit.toNat + 1 <
          (s.place i.form i.prefixes i.length a).off.toNat + i.form.bytes
      | .real | .v86 => 0x10000 < (s.place i.form i.prefixes i.length a).off.toNat + i.form.bytes) →
    exec i s = .fault
      (if (s.mode = .mode64 ∨ s.mode = .mode32) ∧ (s.place i.form i.prefixes i.length a).seg = .ss then .ss0 else .gp0)

/-- 20_memory.md sections 1 and 5 and 60_exceptions.md section 2: a page that Translate reports a fault for (log 7), touched by any byte of
the operand, raises #PF whatever the mask; the code says a data read, and the address is that of an operand byte in
the page. -/
def Obligations.PageFaultIsReported : Prop :=
  ∀ (i : Instr) (s : State) (a : Addr) (base size report : Nat) (present user reserved : Bool),
    FieldsOk i → Enabled i.form s → i.source = .mem a → s.mode ≠ .real →
    (i.form = .sse → (s.place i.form i.prefixes i.length a).lin.toNat % 16 = 0) →
    AddressOk s (s.place i.form i.prefixes i.length a) i.form.bytes →
    s.xlat = [{ base := base, size := size, kind := .page present user reserved, report := report }] →
    (∃ k < i.form.bytes, base ≤ s.byteAddr (s.place i.form i.prefixes i.length a).lin k ∧
      s.byteAddr (s.place i.form i.prefixes i.length a).lin k < base + size) →
    ∃ code : BitVec 5, ∃ k < i.form.bytes,
      exec i s = .fault (.pf code (BitVec.ofNat 64 (s.byteAddr (s.place i.form i.prefixes i.length a).lin k))) ∧
        base ≤ s.byteAddr (s.place i.form i.prefixes i.length a).lin k ∧
        s.byteAddr (s.place i.form i.prefixes i.length a).lin k < base + size ∧
        code.getLsbD 0 = present ∧ code.getLsbD 1 = false ∧ code.getLsbD 2 = user ∧ code.getLsbD 3 = reserved ∧
        code.getLsbD 4 = false

/-- 20_memory.md section 5 and 60_exceptions.md section 1: in protected and compatibility mode a segment check that
Translate fails for the operand's own segment (an entry of the list, touched by any byte; log 7, DESIGN CHOICE) raises
#SS(0) through the stack segment and #GP(0) otherwise, where no other fault applies, whatever other segment checks fail. -/
def Obligations.SegmentCheckIsReported : Prop :=
  ∀ (i : Instr) (s : State) (a : Addr), FieldsOk i → Enabled i.form s → i.source = .mem a →
    (i.form = .sse → (s.place i.form i.prefixes i.length a).lin.toNat % 16 = 0) →
    AddressOk s (s.place i.form i.prefixes i.length a) i.form.bytes →
    SegmentCheckFails s (s.place i.form i.prefixes i.length a) i.form.bytes →
    (∀ e ∈ s.xlat, ∀ present user reserved, e.kind = .page present user reserved →
      ∀ k < i.form.bytes, ¬(e.base ≤ s.byteAddr (s.place i.form i.prefixes i.length a).lin k ∧
        s.byteAddr (s.place i.form i.prefixes i.length a).lin k < e.base + e.size)) →
    exec i s = .fault (if (s.place i.form i.prefixes i.length a).seg = .ss then .ss0 else .gp0)

/-- 20_memory.md section 1, the class name E4NF: whatever the mask register, its number and the zeroing bit, a memory
operand of an EVEX form raises the same fault. -/
def Obligations.MaskSuppressesNoFault : Prop :=
  ∀ (p : Prefixes) (e : EvexCtl) (d : VNum) (a : Addr) (imm : BitVec 8) (s : State) (x : Fault) (z : Bool)
    (aaa : BitVec 3) (k : Vector Word64 8), (z = true → aaa ≠ 0) →
    (exec (.evex128 p e d (.mem a) imm) s = .fault x →
      exec (.evex128 p { e with z := z, aaa := aaa } d (.mem a) imm) { s with k := k } = .fault x) ∧
    (exec (.evex256 p e d (.mem a) imm) s = .fault x →
      exec (.evex256 p { e with z := z, aaa := aaa } d (.mem a) imm) { s with k := k } = .fault x) ∧
    (exec (.evex512 p e d (.mem a) imm) s = .fault x →
      exec (.evex512 p { e with z := z, aaa := aaa } d (.mem a) imm) { s with k := k } = .fault x)

/-- 60_exceptions.md section 3: the fault reported is one whose condition holds, #UD comes before #NM and #NM before a
fault on the memory operand. Which of several memory faults is reported is a free choice (log 6), of which nothing is
said. That the two doubtful EVEX encodings (z = 1 with aaa = 000, b = 1 with a register) raise neither #NM nor a fault on
the operand is the model's choice, which refuses them first (log 19). The conditions on the operand are the model's readings: entries of Translate (log 7), the segment limit (log 8),
SS under an override that 64-bit mode ignores (log 16), bytes at 2^64 and above (log 17), the older modes' range (log 29). -/
def Obligations.ReportedFaultApplies : Prop :=
  ∀ (i : Instr) (s : State) (x : Fault), exec i s = .fault x →
    match x with
    | .ud => ¬(FieldsOk i ∧ Powered i.form s)
    | .nm => FieldsOk i ∧ Powered i.form s ∧ s.cr0.getLsbD 3 = true
    | .ss0 => FieldsOk i ∧ Enabled i.form s ∧ ∃ a, i.source = .mem a ∧
        let q := s.place i.form i.prefixes i.length a
        q.seg = .ss ∧ (s.mode = .mode64 ∨ s.mode = .mode32) ∧
          (¬AddressOk s q i.form.bytes ∨ SegmentCheckFails s q i.form.bytes)
    | .gp0 => FieldsOk i ∧ Enabled i.form s ∧ ∃ a, i.source = .mem a ∧
        let q := s.place i.form i.prefixes i.length a
        ((q.seg ≠ .ss ∨ s.mode = .real ∨ s.mode = .v86) ∧
            (¬AddressOk s q i.form.bytes ∨ SegmentCheckFails s q i.form.bytes)) ∨
          (i.form = .sse ∧ q.lin.toNat % 16 ≠ 0)
    | .pf code addr => FieldsOk i ∧ Enabled i.form s ∧ s.mode ≠ .real ∧ ∃ a, i.source = .mem a ∧
        let q := s.place i.form i.prefixes i.length a
        ∃ e ∈ s.xlat, ∃ present user reserved, e.kind = .page present user reserved ∧
          code = pageFaultCode present user reserved ∧
          ∃ k < i.form.bytes, addr = BitVec.ofNat 64 (s.byteAddr q.lin k) ∧ e.base ≤ s.byteAddr q.lin k ∧
            s.byteAddr q.lin k < e.base + e.size

/-- 60_exceptions.md section 1 and group 4 of section 3: where at least one fault applies to the memory operand, however
many do, the step ends in a fault, and not in #UD or #NM. `ReportedFaultApplies` says that it is one that applies, the
conditions being the same readings of the model's (logs 7, 8, 16, 17, 29); which one is free (log 6). -/
def Obligations.ApplicableOperandFaultIsRaised : Prop :=
  ∀ (i : Instr) (s : State) (a : Addr), FieldsOk i → Enabled i.form s → i.source = .mem a →
    let q := s.place i.form i.prefixes i.length a
    ¬AddressOk s q i.form.bytes ∨ (i.form = .sse ∧ q.lin.toNat % 16 ≠ 0) ∨ SegmentCheckFails s q i.form.bytes ∨
      (s.mode ≠ .real ∧ ∃ e ∈ s.xlat, (∃ present user reserved, e.kind = .page present user reserved) ∧
        ∃ k < i.form.bytes, e.base ≤ s.byteAddr q.lin k ∧ s.byteAddr q.lin k < e.base + e.size) →
    ∃ x, exec i s = .fault x ∧ x ≠ .ud ∧ x ≠ .nm

/-- 60_exceptions.md section 2: vector numbers, error codes and what CR2 is to hold. That an error code has 32 bits, and
that a page fault's bits from 5 up are zero, is the model's (log 33). -/
def Obligations.ExceptionRecords : Prop :=
  [Fault.ud, .nm, .ss0, .gp0].map (fun x => (x.vector, x.errorCode, x.cr2)) =
      [(6, none, none), (7, none, none), (12, some 0, none), (13, some 0, none)] ∧
    ∀ (present user reserved : Bool) (addr : Word64),
      (Fault.pf (pageFaultCode present user reserved) addr).vector = 14 ∧
        (Fault.pf (pageFaultCode present user reserved) addr).cr2 = some addr ∧
        (Fault.pf (pageFaultCode present user reserved) addr).errorCode =
          some (BitVec.ofNat 32 (present.toNat + 4 * user.toNat + 8 * reserved.toNat))

/-! ## Refusals on memory operands -/

/-- 20_memory.md sections 3 and 4: an operand that would be read without a fault is refused where some byte of it is not
ordinary memory, and, while alignment checking is on, where it is not aligned to its own size (log 10). Where both hold
the name is the second's, and a fault comes before either (the order is the model's, log 30, DESIGN CHOICE). -/
def Obligations.DoubtfulReadsAreRefused : Prop :=
  ∀ (i : Instr) (s : State) (a : Addr), FieldsOk i → Enabled i.form s → i.source = .mem a →
    (i.form = .sse → (s.place i.form i.prefixes i.length a).lin.toNat % 16 = 0) →
    AddressOk s (s.place i.form i.prefixes i.length a) i.form.bytes →
    Untouched s (s.place i.form i.prefixes i.length a) i.form.bytes →
    (AlignmentChecked s → (s.place i.form i.prefixes i.length a).lin.toNat % i.form.bytes ≠ 0 →
      exec i s = .refused .alignmentCheckEnabled) ∧
      (¬(AlignmentChecked s ∧ (s.place i.form i.prefixes i.length a).lin.toNat % i.form.bytes ≠ 0) →
        ¬InOrdinaryMemory s (s.place i.form i.prefixes i.length a) i.form.bytes →
        exec i s = .refused .nonMemoryAddress)

/-! ## The step -/

/-- A step runs the decoded instruction (00_scope.md section 5): where nothing stops the fetch and the bytes at ip decode
to `i`, `step` is `exec i`, with nothing around it. The decoder's other answers become #UD, for bytes that end too soon
#GP(0) after all fifteen (30_encoding.md section 7) and else a refusal (log 13), and the refusal of the same name. The bytes are memory's from ip on (in the CS segment outside 64-bit
mode; log 13): the program's (20_memory.md section 6), up to its end and at most fifteen. -/
def Obligations.StepRunsDecoded : Prop :=
  (∀ (s : State) (i : Instr) (rest : List Byte), s.fetchStop = none → decode s.ctx s.window = .instr i rest →
    step s = exec i s) ∧
    (∀ s : State, s.fetchStop = none →
      (decode s.ctx s.window = .undefined → step s = .fault .ud) ∧
        (decode s.ctx s.window = .truncated →
          step s = if s.window.length = 15 then .fault .gp0 else .refused .codeNotFetchable) ∧
        ∀ r : DecodeRefusal, decode s.ctx s.window = .refused r →
          step s = .refused (match r with
            | .notPSHUFHW => .notPSHUFHW
            | .prefixCombination => .prefixCombination
            | .evexExtensionBitsMode32 => .evexExtensionBitsMode32
            | .evex16BitAddressing => .evex16BitAddressing)) ∧
    ∀ (s : State) (n : Nat), n ≤ 15 → (∀ k < n, InProgram s (s.codeByte k)) →
      n = 15 ∨ ¬InProgram s (s.codeByte n) →
      s.window = (List.range n).map fun k => memRead s.mem (s.codeByte k)

/-- 30_encoding.md section 7 and 60_exceptions.md section 3: an instruction of more than 15 bytes, here fifteen legacy
bytes with no opcode among them, raises #GP(0). -/
def Obligations.TooLongRaisesGp : Prop :=
  ∀ s : State, s.fetchStop = none → s.window.length = 15 → (∀ x ∈ s.window, isLeading s.ctx x = true) →
    step s = .fault .gp0

/-- What refuses a step before decoding: debug features on (60_exceptions.md section 7, log 11), then ip or the program
near a boundary ip may not pass (10_state.md section 4, log 12), then in 64-bit mode an ip that is not canonical, then an
ip outside the program (60_exceptions.md section 3, 20_memory.md section 6; log 13). The order is the model's (log 30). -/
def Obligations.StepsRefusedBeforeDecoding : Prop :=
  ∀ s : State,
    (s.rflags.getLsbD 8 = true ∨ s.breakpointsArmed = true → step s = .refused .debugEnabled) ∧
      (s.rflags.getLsbD 8 = false → s.breakpointsArmed = false →
        (¬ClearOfTop s → step s = .refused .ipWrap) ∧
          (ClearOfTop s → (s.mode = .mode64 → canonical s.cpu.laWidth s.ip.toNat = true) → s.fetchStop = none) ∧
          (ClearOfTop s → (s.mode = .mode64 ∧ canonical s.cpu.laWidth s.ip.toNat = false) ∨
            ¬InProgram s (s.codeByte 0) → step s = .refused .codeNotFetchable))

/-- 70_reset_and_hazards.md section 2: a launch goes on, with the state itself, exactly where the mode is 64-bit or
32-bit, alignment checking (its bits: log 10) and debug features (their bit: log 11) are off, and neither ip nor the
program lies near the top (the boundaries: log 12). Otherwise it is refused by name, as unsupportedMode,
alignmentCheckEnabled, debugEnabled or ipWrap, the first of them whose premise fails (the order is the model's, log 30).
Bytes that cannot be fetched and operands outside ordinary memory are refused by the step that reaches them. -/
def Obligations.LaunchPremises : Prop :=
  ∀ s : State,
    let mode := s.mode = .mode64 ∨ s.mode = .mode32
    let ac := s.cr0.getLsbD 18 = true ∧ s.rflags.getLsbD 18 = true ∧ s.cpl = 3
    let debug := s.rflags.getLsbD 8 = true ∨ s.breakpointsArmed = true
    (launch s = .next s ↔ mode ∧ ¬ac ∧ ¬debug ∧ ClearOfTop s) ∧
      (∀ t, launch s = .next t → t = s) ∧ (∀ x, launch s ≠ .fault x) ∧
      (¬mode → launch s = .refused .unsupportedMode) ∧
      (mode → ac → launch s = .refused .alignmentCheckEnabled) ∧
      (mode → ¬ac → debug → launch s = .refused .debugEnabled) ∧
      (mode → ¬ac → ¬debug → ¬ClearOfTop s → launch s = .refused .ipWrap)

/-- The end of a run (70_reset_and_hazards.md section 3): ip at the address after the last byte of the one program. Outside
64-bit mode that is read as a linear address, the CS base plus ip modulo 2^32 (log 13, DEDUCED). A program of at least one byte that has just been loaded (log 3) is not over, whatever
program was there before. -/
def Obligations.RunEndsAtProgramEnd : Prop :=
  ∀ s : State,
    (s.runOver = true ↔ ∃ r, s.program = some r ∧ s.codeByte 0 = r.base + r.size) ∧
      ∀ bytes : List Byte, bytes ≠ [] →
        (s.load bytes).runOver = false ∧
          (s.load bytes).program = some { base := (s.load bytes).codeByte 0, size := bytes.length }

/-- Every instruction well-formed in 64-bit mode, with a register source and the fields an executing encoding has, runs
as the first instruction of a launched machine that supports its form, and the run is then over (log 3;
70_reset_and_hazards.md section 3). -/
def Obligations.LoadedInstructionRuns : Prop :=
  ∀ (s : State) (i : Instr) (r : VNum), memWf s.mem = true → i.source = .reg r → FieldsOk i →
    i.form.supported s.cpu.features = true → i.form.lanes ≤ s.cpu.maxvl.lanes → i.wf s.launched.ctx = true →
    ∃ t, step (s.load (encode i)) = .next t ∧ t.runOver = true ∧
      t.ip.toNat = (s.load (encode i)).ip.toNat + i.length ∧ exec i (s.load (encode i)) = .next t

/-! ## Invariant and reset -/

/-- Every step keeps the invariant: canonical memory, registers of MAXVL bits, registers the machine does not have at
zero, ip legal. -/
def Obligations.StepKeepsInvariant : Prop :=
  ∀ s t : State, s.Inv → step s = .next t → t.Inv

/-- The state after reset meets the invariant (its register values are the family's, log 2). -/
def Obligations.ResetMeetsInvariant : Prop := State.reset.Inv

/-- 10_state.md section 8: with the reset values of its right-hand column, which the model takes (log 2, PRESUMED), every
form raises #UD. -/
def Obligations.EveryFormRaisesUdAfterReset : Prop := ∀ i : Instr, exec i State.reset = .fault .ud
end

