-- ==== Sys2Proof/Laws/Decode.lean ====
section
/-! SUPPORT. Decoding undoes encoding, part by part: fields of bytes, displacements, operand 2, leading bytes. -/

namespace Sys2Proof

/-! ## Fields -/

theorem fieldTop_ofFields : ∀ t m l, fieldTop (ofFields t m l) = t := by decide +kernel
theorem fieldMid_ofFields : ∀ t m l, fieldMid (ofFields t m l) = m := by decide +kernel
theorem fieldLow_ofFields : ∀ t m l, fieldLow (ofFields t m l) = l := by decide +kernel
theorem ofFields_fields : ∀ b : Byte, ofFields (fieldTop b) (fieldMid b) (fieldLow b) = b := by decide +kernel

theorem gnum_low : ∀ r : GNum, gnum (r.getLsbD 3) r.low = r := by decide +kernel
theorem low_gnum : ∀ x f, (gnum x f).low = f := by decide +kernel
theorem gnum_toNat_lt : ∀ x f, (gnum x f).toNat < if x then 16 else 8 := by decide +kernel
theorem bit3_of_lt : ∀ r : GNum, r.toNat < 8 → r.getLsbD 3 = false := by decide +kernel

theorem vnum_low : ∀ d : VNum, vnum (d.getLsbD 4) (d.getLsbD 3) (d.extractLsb' 0 3) = d := by decide +kernel
theorem vnum_toNat_lt : ∀ x' x f, (vnum x' x f).toNat < if x' then 32 else if x then 16 else 8 := by
  decide +kernel
theorem vbit3_of_lt : ∀ d : VNum, d.toNat < 8 → d.getLsbD 3 = false := by decide +kernel
theorem vbit4_of_lt : ∀ d : VNum, d.toNat < 16 → d.getLsbD 4 = false := by decide +kernel

theorem join16 (v : BitVec 16) : v.extractLsb' 8 8 ++ v.extractLsb' 0 8 = v := by
  apply BitVec.eq_of_getLsbD_eq
  intro i hi
  simp only [BitVec.getLsbD_append, BitVec.getLsbD_extractLsb']
  split
  · simp [*]
  · rw [show 8 + (i - 8) = i by omega]
    simp only [Bool.and_eq_right_iff_imp, decide_eq_true_eq]
    omega

theorem join32 (v : BitVec 32) :
    v.extractLsb' 24 8 ++ v.extractLsb' 16 8 ++ v.extractLsb' 8 8 ++ v.extractLsb' 0 8 = v := by
  apply BitVec.eq_of_getLsbD_eq
  intro i hi
  simp only [BitVec.getLsbD_append, BitVec.getLsbD_extractLsb']
  split
  · simp [*]
  · split
    · rw [show 8 + (i - 8) = i by omega]
      simp only [Bool.and_eq_right_iff_imp, decide_eq_true_eq]
      omega
    · split
      · rw [show 16 + (i - 8 - 8) = i by omega]
        simp only [Bool.and_eq_right_iff_imp, decide_eq_true_eq]
        omega
      · rw [show 24 + (i - 8 - 8 - 8) = i by omega]
        simp only [Bool.and_eq_right_iff_imp, decide_eq_true_eq]
        omega

theorem take16_bytes16 (v : BitVec 16) (rest : List Byte) : take16 (bytes16 v ++ rest) = some (v, rest) := by
  simp [take16, bytes16, join16]

theorem take32_bytes32 (v : BitVec 32) (rest : List Byte) : take32 (bytes32 v ++ rest) = some (v, rest) := by
  simp [take32, bytes32, join32]

/-! ## Operand 2 -/

theorem takeDisp16_bytes (disp : Disp) (h : disp.ok16 = true) (rest : List Byte) :
    takeDisp .a16 disp.mod (disp.bytes ++ rest) = some (disp, rest) := by
  cases disp <;> simp_all [takeDisp, Disp.mod, Disp.bytes, Disp.ok16, take16_bytes16]

theorem takeDisp32_bytes (disp : Disp) (h : disp.ok32 = true) (rest : List Byte) :
    takeDisp .a32 disp.mod (disp.bytes ++ rest) = some (disp, rest) := by
  cases disp <;> simp_all [takeDisp, Disp.mod, Disp.bytes, Disp.ok32, take32_bytes32]

theorem mod_ne_three (disp : Disp) : disp.mod ≠ 3 := by
  cases disp <;> simp [Disp.mod]

theorem mod_eq_zero_iff (disp : Disp) : disp.mod = 0 ↔ disp = .none := by
  cases disp <;> simp [Disp.mod]

/-- The extension bits an operand's encoding needs (30_encoding.md R60). -/
def Ext.fits (e : Ext) : Operand → Prop
  | .reg s => e.b = s.getLsbD 3 ∧ e.xs = s.getLsbD 4
  | .mem (.base b _) => e.b = b.getLsbD 3
  | .mem (.sib b i _ _) => e.b = b.getLsbD 3 ∧ e.x = i.getLsbD 3
  | .mem (.sibNoBase i _ _) => e.x = i.getLsbD 3
  | .mem _ => True

/-- Operand 2 is read back from its encoding, with the bytes after it. -/
theorem takeOperand_encode (asz : AddrSize) (nv ng : Nat) (e : Ext) (reg : BitVec 3) (src : Operand)
    (rest : List Byte) (hok : src.ok asz nv ng = true) (he : e.fits src) :
    ∃ modrm tail, encodeOperand reg src = modrm :: tail ∧ fieldMid modrm = reg ∧
      takeOperand asz e (fieldTop modrm) (fieldLow modrm) (tail ++ rest) = some (src, rest) := by
  have h03 : (0 : BitVec 2) ≠ 3 := by decide
  have h54 : (5 : BitVec 3) ≠ 4 := by decide
  cases src with
  | reg s =>
    refine ⟨_, [], rfl, fieldMid_ofFields _ _ _, ?_⟩
    obtain ⟨hb, hx⟩ := he
    simp only [takeOperand, fieldTop_ofFields, fieldLow_ofFields, hb, hx, vnum_low, if_true, List.nil_append]
  | mem a =>
    cases a with
    | base b disp =>
      simp only [Operand.ok, Addr.ok, Bool.and_eq_true, Bool.or_eq_true, decide_eq_true_eq] at hok
      obtain ⟨⟨⟨⟨ha, -⟩, h4⟩, hd⟩, h5⟩ := hok
      refine ⟨_, disp.bytes, rfl, fieldMid_ofFields _ _ _, ?_⟩
      have h5' : ¬(disp.mod = 0 ∧ b.low = 5) := by
        rw [mod_eq_zero_iff]
        rintro ⟨h1, h2⟩
        exact h5.elim (fun h => h h1) (fun h => h h2)
      have he' : e.b = b.getLsbD 3 := he
      simp only [takeOperand, fieldTop_ofFields, fieldLow_ofFields, if_neg (mod_ne_three disp), if_neg ha,
        takeAddr32, if_neg h4, if_neg h5', takeDisp32_bytes disp hd, he', gnum_low, Option.map_some]
    | sib b i sc disp =>
      simp only [Operand.ok, Addr.ok, Bool.and_eq_true, Bool.or_eq_true, decide_eq_true_eq] at hok
      obtain ⟨⟨⟨⟨ha, -⟩, -⟩, hd⟩, h5⟩ := hok
      refine ⟨_, ofFields sc i.low b.low :: disp.bytes, rfl, fieldMid_ofFields _ _ _, ?_⟩
      have h5' : ¬(disp.mod = 0 ∧ b.low = 5) := by
        rw [mod_eq_zero_iff]
        rintro ⟨h1, h2⟩
        exact h5.elim (fun h => h h1) (fun h => h h2)
      obtain ⟨hb, hx⟩ := he
      simp only [takeOperand, fieldTop_ofFields, fieldLow_ofFields, fieldMid_ofFields,
        if_neg (mod_ne_three disp), if_neg ha, takeAddr32, if_true, List.cons_append, takeSib, if_neg h5',
        takeDisp32_bytes disp hd, hb, hx, gnum_low, Option.map_some]
    | sibNoBase i sc d =>
      simp only [Operand.ok, Addr.ok, Bool.and_eq_true, decide_eq_true_eq] at hok
      refine ⟨_, ofFields sc i.low 5 :: bytes32 d, rfl, fieldMid_ofFields _ _ _, ?_⟩
      have he' : e.x = i.getLsbD 3 := he
      simp only [takeOperand, fieldTop_ofFields, fieldLow_ofFields, fieldMid_ofFields, if_neg h03,
        if_neg hok.1, takeAddr32, if_true, List.cons_append, takeSib, and_self, take32_bytes32, he', gnum_low,
        Option.map_some]
    | disp32 d =>
      simp only [Operand.ok, Addr.ok, decide_eq_true_eq] at hok
      refine ⟨_, bytes32 d, rfl, fieldMid_ofFields _ _ _, ?_⟩
      simp only [takeOperand, fieldTop_ofFields, fieldLow_ofFields, if_neg h03, if_neg hok, takeAddr32,
        if_neg h54, and_self, if_true, take32_bytes32, Option.map_some]
    | idx16 form disp =>
      simp only [Operand.ok, Addr.ok, Bool.and_eq_true, Bool.or_eq_true, decide_eq_true_eq] at hok
      obtain ⟨⟨ha, hd⟩, h6⟩ := hok
      refine ⟨_, disp.bytes, rfl, fieldMid_ofFields _ _ _, ?_⟩
      have h6' : ¬(disp.mod = 0 ∧ form = 6) := by
        rw [mod_eq_zero_iff]
        rintro ⟨h1, h2⟩
        exact h6.elim (fun h => h h1) (fun h => h h2)
      simp only [takeOperand, fieldTop_ofFields, fieldLow_ofFields, if_neg (mod_ne_three disp), if_pos ha,
        takeAddr16, if_neg h6', takeDisp16_bytes disp hd, Option.map_some]
    | disp16 d =>
      simp only [Operand.ok, Addr.ok, decide_eq_true_eq] at hok
      refine ⟨_, bytes16 d, rfl, fieldMid_ofFields _ _ _, ?_⟩
      simp only [takeOperand, fieldTop_ofFields, fieldLow_ofFields, if_neg h03, if_pos hok, takeAddr16,
        and_self, if_true, take16_bytes16, Option.map_some]

/-- What follows the opcode byte is read back from its encoding. -/
theorem takeBody_encode (asz : AddrSize) (nv ng : Nat) (e : Ext) (d : VNum) (src : Operand) (imm : BitVec 8)
    (rest : List Byte) (hok : src.ok asz nv ng = true) (he : e.fits src) (hr' : e.r' = d.getLsbD 4)
    (hr : e.r = d.getLsbD 3) :
    takeBody asz e (encodeOperand (d.extractLsb' 0 3) src ++ imm :: rest) =
      some (⟨d, src, imm⟩, rest) := by
  obtain ⟨modrm, tail, henc, hmid, htake⟩ :=
    takeOperand_encode asz nv ng e (d.extractLsb' 0 3) src (imm :: rest) hok he
  rw [henc, List.cons_append, takeBody, htake, hmid, hr', hr, vnum_low]

theorem map_fst_eq_some {α β γ : Type} {o : Option (α × β)} {f : α → γ} {x : γ} {r : β} (g : α → γ)
    (h : (o.map fun p => (f p.1, p.2)) = some (x, r)) : ∃ x', (o.map fun p => (g p.1, p.2)) = some (x', r) := by
  obtain ⟨p, hp, hr⟩ := Option.map_eq_some_iff.1 h
  simp only [Prod.mk.injEq] at hr
  exact ⟨g p.1, by rw [hp, Option.map_some, hr.2]⟩

theorem takeAddr32_ext {e : Ext} {mod : BitVec 2} {rm : BitVec 3} {bs rest : List Byte} {a : Addr}
    (h : takeAddr32 e mod rm bs = some (a, rest)) (e' : Ext) : ∃ a', takeAddr32 e' mod rm bs = some (a', rest) := by
  unfold takeAddr32 at h ⊢
  by_cases h4 : rm = 4
  · rw [if_pos h4] at h ⊢
    cases bs with
    | nil => simp [takeSib] at h
    | cons sib bs =>
      simp only [takeSib] at h ⊢
      by_cases h5 : mod = 0 ∧ fieldLow sib = 5
      · rw [if_pos h5] at h ⊢
        exact map_fst_eq_some _ h
      · rw [if_neg h5] at h ⊢
        exact map_fst_eq_some _ h
  · rw [if_neg h4] at h ⊢
    by_cases h5 : mod = 0 ∧ rm = 5
    · rw [if_pos h5] at h ⊢
      exact ⟨a, h⟩
    · rw [if_neg h5] at h ⊢
      exact map_fst_eq_some _ h

/-- Register-extension bits change which registers an operand names, not its kind or how many bytes it takes. -/
theorem takeOperand_ext {asz : AddrSize} {e : Ext} {mod : BitVec 2} {rm : BitVec 3} {bs rest : List Byte}
    {src : Operand} (h : takeOperand asz e mod rm bs = some (src, rest)) (e' : Ext) :
    ∃ src', takeOperand asz e' mod rm bs = some (src', rest) ∧ ((∃ r, src = .reg r) ↔ ∃ r, src' = .reg r) := by
  unfold takeOperand at h ⊢
  by_cases h3 : mod = 3
  · rw [if_pos h3] at h ⊢
    simp only [Option.some.injEq, Prod.mk.injEq] at h
    exact ⟨_, by rw [h.2], by simp [← h.1]⟩
  · rw [if_neg h3] at h ⊢
    obtain ⟨⟨a, r⟩, ha, hr⟩ := Option.map_eq_some_iff.1 h
    simp only [Prod.mk.injEq] at hr
    obtain ⟨rfl, rfl⟩ := hr
    by_cases hz : asz = .a16
    · rw [if_pos hz] at ha ⊢
      exact ⟨.mem a, by rw [ha]; rfl, by simp⟩
    · rw [if_neg hz] at ha ⊢
      obtain ⟨a', ha'⟩ := takeAddr32_ext ha e'
      exact ⟨.mem a', by rw [ha']; rfl, by simp⟩

/-- The same of everything after the opcode byte. -/
theorem takeBody_ext {asz : AddrSize} {e : Ext} {bs rest : List Byte} {y : Body}
    (h : takeBody asz e bs = some (y, rest)) (e' : Ext) :
    ∃ y', takeBody asz e' bs = some (y', rest) ∧ y'.imm = y.imm ∧
      ((∃ r, y.src = .reg r) ↔ ∃ r, y'.src = .reg r) := by
  cases bs with
  | nil => simp [takeBody] at h
  | cons modrm bs =>
    simp only [takeBody] at h ⊢
    split at h
    · rename_i src imm r heq
      simp only [Option.some.injEq, Prod.mk.injEq] at h
      obtain ⟨rfl, rfl⟩ := h
      obtain ⟨src', h1, h2⟩ := takeOperand_ext heq e'
      exact ⟨⟨_, src', imm⟩, by rw [h1], rfl, h2⟩
    · simp at h

/-! ## Leading bytes -/

theorem splitLeading_append (c : Ctx) (lead : List Byte) (b : Byte) (bs : List Byte)
    (h : ∀ x ∈ lead, isLeading c x = true) (hb : isLeading c b = false) :
    splitLeading c (lead ++ b :: bs) = (lead, b :: bs) := by
  induction lead with
  | nil => simp [splitLeading, hb]
  | cons x lead ih =>
    have hx := h x List.mem_cons_self
    have := ih fun y hy => h y (List.mem_cons_of_mem _ hy)
    simp [splitLeading, hx, this]

theorem splitLeading_all (c : Ctx) (bs : List Byte) : ∀ x ∈ (splitLeading c bs).1, isLeading c x = true := by
  induction bs with
  | nil => simp [splitLeading]
  | cons b bs ih =>
    intro x hx
    unfold splitLeading at hx
    split at hx
    · rcases List.mem_cons.1 hx with rfl | hx
      · assumption
      · exact ih x hx
    · simp at hx

theorem splitLeading_join (c : Ctx) (bs : List Byte) :
    (splitLeading c bs).1 ++ (splitLeading c bs).2 = bs := by
  induction bs with
  | nil => rfl
  | cons b bs ih =>
    unfold splitLeading
    split
    · simp [ih]
    · rfl

/-- The bytes an encoder puts first are leading bytes, none of them F3, F2, 66, LOCK or REX. -/
theorem encodePrefixes_leading (c : Ctx) (p : Prefixes) : ∀ x ∈ encodePrefixes p, isLeading c x = true := by
  obtain ⟨seg, a⟩ := p
  rcases seg with _ | seg
  · cases a <;> simp [encodePrefixes, isLeading]
  · cases seg <;> cases a <;> simp [encodePrefixes, isLeading, isSegByte, segOverride, segByte]

theorem prefixesOf_encode (p : Prefixes) : prefixesOf (encodePrefixes p) = p := by
  obtain ⟨seg, a⟩ := p
  rcases seg with _ | seg
  · cases a <;> rfl
  · cases seg <;> cases a <;> rfl

theorem singleOverrides_encode (p : Prefixes) : singleOverrides (encodePrefixes p) = true := by
  obtain ⟨seg, a⟩ := p
  rcases seg with _ | seg
  · cases a <;> rfl
  · cases seg <;> cases a <;> rfl

theorem not_spoilsVex_encode (c : Ctx) (p : Prefixes) : (encodePrefixes p).any (spoilsVex c) = false := by
  obtain ⟨seg, a⟩ := p
  rcases seg with _ | seg
  · cases a <;> simp [encodePrefixes, spoilsVex, isRex]
  · cases seg <;> cases a <;> simp [encodePrefixes, spoilsVex, isRex, segByte]

/-! ## Prefix payloads -/

theorem c5Byte_fields : ∀ (d : VNum) (v : BitVec 4) (l : Bool),
    (c5Byte d v l).getLsbD 7 = !d.getLsbD 3 ∧ (c5Byte d v l).extractLsb' 3 4 = v ∧
      (c5Byte d v l).getLsbD 2 = l ∧ (c5Byte d v l).extractLsb' 0 2 = 2 ∧
      (fieldTop (c5Byte d v l) = 3 ↔ d.getLsbD 3 = false ∧ v.getLsbD 3 = true) := by
  decide +kernel

theorem c4Byte2_fields : ∀ (v : BitVec 4) (l : Bool),
    (c4Byte2 v l).extractLsb' 3 4 = v ∧ (c4Byte2 v l).getLsbD 2 = l ∧ (c4Byte2 v l).extractLsb' 0 2 = 2 := by
  decide +kernel

theorem c4Byte1_fields (d : VNum) (src : Operand) :
    (c4Byte1 d src).getLsbD 7 = !d.getLsbD 3 ∧ (c4Byte1 d src).getLsbD 6 = !src.extX ∧
      (c4Byte1 d src).getLsbD 5 = !src.extB ∧ (c4Byte1 d src).extractLsb' 0 5 = 1 ∧
      (fieldTop (c4Byte1 d src) = 3 ↔ d.getLsbD 3 = false ∧ src.extX = false) := by
  unfold c4Byte1
  generalize d.getLsbD 3 = r
  generalize src.extX = x
  generalize src.extB = b
  revert r x b
  decide +kernel

theorem evexP0_fields (d : VNum) (src : Operand) :
    (evexP0 d src).getLsbD 7 = !d.getLsbD 3 ∧ (evexP0 d src).getLsbD 6 = !src.extX ∧
      (evexP0 d src).getLsbD 5 = !src.extB ∧ (evexP0 d src).getLsbD 4 = !d.getLsbD 4 ∧
      (evexP0 d src).extractLsb' 2 2 = 0 ∧ (evexP0 d src).extractLsb' 0 2 = 1 ∧
      (fieldTop (evexP0 d src) = 3 ↔ d.getLsbD 3 = false ∧ src.extX = false) ∧
      ((evexP0 d src).extractLsb' 4 4 = 15 ↔
        d.getLsbD 3 = false ∧ src.extX = false ∧ src.extB = false ∧ d.getLsbD 4 = false) := by
  unfold evexP0
  generalize d.getLsbD 3 = r
  generalize d.getLsbD 4 = r'
  generalize src.extX = x
  generalize src.extB = b
  revert r r' x b
  decide +kernel

theorem evexP1_fields (e : EvexCtl) :
    (evexP1 e).getLsbD 2 = true ∧ (evexP1 e).extractLsb' 0 2 = 2 ∧ (evexP1 e).extractLsb' 3 4 = e.vvvv := by
  unfold evexP1
  generalize e.vvvv = v
  revert v
  decide +kernel

theorem evexP2_fields (e : EvexCtl) (ll : BitVec 2) :
    (evexP2 e ll).extractLsb' 5 2 = ll ∧ (evexP2 e ll).getLsbD 3 = e.vp ∧ (evexP2 e ll).getLsbD 4 = e.b ∧
      (evexP2 e ll).getLsbD 7 = e.z ∧ (evexP2 e ll).extractLsb' 0 3 = e.aaa := by
  unfold evexP2
  generalize e.vp = vp
  generalize e.b = b
  generalize e.z = z
  generalize e.aaa = a
  revert ll vp b z a
  decide +kernel

theorem evexCtl_encode (e : EvexCtl) (ll : BitVec 2) : evexCtl (evexP1 e) (evexP2 e ll) = e := by
  obtain ⟨-, h3, h4, h7, h0⟩ := evexP2_fields e ll
  obtain ⟨-, -, hv⟩ := evexP1_fields e
  simp only [evexCtl, hv, h3, h4, h7, h0]

theorem rexByte_fields (d : VNum) (src : Operand) :
    (rexByte d src).extractLsb' 4 4 = 4 ∧ (rexByte d src).getLsbD 2 = d.getLsbD 3 ∧
      (rexByte d src).getLsbD 1 = src.extX ∧ (rexByte d src).getLsbD 0 = src.extB := by
  unfold rexByte
  generalize d.getLsbD 3 = r
  generalize src.extX = x
  generalize src.extB = b
  revert r x b
  decide +kernel

/-! ## Well-formed operands and the bits their encodings need -/

theorem regsOk_split {c : Ctx} {p : Prefixes} {a b g : Nat} {d : VNum} {src : Operand}
    (h : c.regsOk p a b g d src = true) :
    d.toNat < (if c.long then a else 8) ∧
      src.ok (c.asz p.addrSize) (if c.long then b else 8) (if c.long then g else 8) = true := by
  simpa [Ctx.regsOk] using h

theorem ext_of_lt {asz : AddrSize} {src : Operand} (h : src.ok asz 8 8 = true) :
    src.extX = false ∧ src.extB = false := by
  cases src with
  | reg s =>
    have : s.toNat < 8 := by simpa [Operand.ok] using h
    exact ⟨vbit4_of_lt s (by omega), vbit3_of_lt s this⟩
  | mem a =>
    cases a <;> simp_all [Operand.ok, Addr.ok, Operand.extX, Operand.extB] <;>
      (try constructor) <;> apply bit3_of_lt <;> simp_all

theorem fits_sse (e : Ext) (src : Operand) {asz : AddrSize} {ng : Nat} (h : src.ok asz 16 ng = true)
    (hb : e.b = src.extB) (hx : e.x = src.extX) (hs : e.xs = false) : e.fits src := by
  cases src with
  | reg s =>
    have : s.toNat < 16 := by simpa [Operand.ok] using h
    exact ⟨hb, by rw [hs, vbit4_of_lt s this]⟩
  | mem a => cases a <;> first | exact ⟨hb, hx⟩ | exact hb | exact hx | trivial

theorem fits_evex (e : Ext) (src : Operand)
    (hb : e.b = src.extB) (hx : e.x = src.extX) (hs : e.xs = src.extX) : e.fits src := by
  cases src with
  | reg s => exact ⟨hb, hs⟩
  | mem a => cases a <;> first | exact ⟨hb, hx⟩ | exact hb | exact hx | trivial

theorem ok_mono {asz : AddrSize} {src : Operand} {nv ng nv' ng' : Nat} (h : src.ok asz nv ng = true)
    (h1 : nv ≤ nv') (h2 : ng ≤ ng') : src.ok asz nv' ng' = true := by
  cases src with
  | reg s => simp_all [Operand.ok]; omega
  | mem a => cases a <;> simp_all [Operand.ok, Addr.ok] <;> omega

theorem decode_lead (c : Ctx) (p : Prefixes) (b : Byte) (bs : List Byte) (hb : isLeading c b = false) :
    splitLeading c (encodePrefixes p ++ b :: bs) = (encodePrefixes p, b :: bs) :=
  splitLeading_append c _ b bs (encodePrefixes_leading c p) hb

theorem notLeading_C5 (c : Ctx) : isLeading c 0xC5 = false := by
  simp [isLeading, isSegByte, segOverride, isRex]
theorem notLeading_C4 (c : Ctx) : isLeading c 0xC4 = false := by
  simp [isLeading, isSegByte, segOverride, isRex]
theorem notLeading_62 (c : Ctx) : isLeading c 0x62 = false := by
  simp [isLeading, isSegByte, segOverride, isRex]
theorem notLeading_0F (c : Ctx) : isLeading c 0x0F = false := by
  simp [isLeading, isSegByte, segOverride, isRex]

/-! ## The leading bytes of the SSE form -/

theorem sseLead_encode (c : Ctx) (p : Prefixes) :
    sseLeadOk c (encodePrefixes p ++ [0xF3]) = true ∧ rexOf c (encodePrefixes p ++ [0xF3]) = none ∧
    prefixesOf (encodePrefixes p ++ [0xF3]) = p ∧ (encodePrefixes p ++ [0xF3]).contains 0xF0 = false ∧
    (encodePrefixes p ++ [0xF3]).count 0xF3 = 1 := by
  have h : ∀ l : List Byte, rexOf c (l ++ [0xF3]) = none := by intro l; simp [rexOf, isRex]
  refine ⟨?_, h _, ?_⟩
  · simp only [sseLeadOk, h]
    obtain ⟨seg, a⟩ := p
    rcases seg with _ | seg
    · cases a <;> simp [encodePrefixes, isRex, singleOverrides, isSegByte, segOverride, List.filter_cons, List.count_cons]
    · cases seg <;> cases a <;> simp [encodePrefixes, segByte, isRex, singleOverrides, isSegByte, segOverride, List.filter_cons, List.count_cons]
  · obtain ⟨seg, a⟩ := p
    rcases seg with _ | seg
    · cases a <;> refine ⟨?_, ?_, ?_⟩ <;> rfl
    · cases seg <;> cases a <;> refine ⟨?_, ?_, ?_⟩ <;> rfl

theorem rex_not_other : ∀ x : Byte, x.extractLsb' 4 4 = 4 → isSegByte x = false ∧ segOverride x = none ∧
    x ≠ 0x66 ∧ x ≠ 0x67 ∧ x ≠ 0xF0 ∧ x ≠ 0xF2 ∧
    x ≠ 0xF3 := by decide +kernel

theorem prefixes_facts (p : Prefixes) :
    (∀ l, singleOverrides (encodePrefixes p ++ l) = true ↔ 
      ((if p.seg.isSome then 1 else 0) + (l.filter isSegByte).length ≤ 1 ∧ (if p.addrSize then 1 else 0) + l.count 0x67 ≤ 1)) ∧
    (∀ b ∈ ([0x66, 0xF0, 0xF2, 0xF3] : List Byte), (encodePrefixes p).count b = 0) ∧
    (∀ c, (encodePrefixes p).filter (isRex c) = []) := by
  obtain ⟨seg, a⟩ := p
  rcases seg with _ | seg
  · cases a <;> simp [encodePrefixes, singleOverrides, isSegByte, segOverride, isRex, Nat.add_comm]
  · cases seg <;> cases a <;> simp [encodePrefixes, segByte, singleOverrides, isSegByte, segOverride, isRex,Nat.add_comm]

theorem prefixesOf_append (p : Prefixes) (l : List Byte) (h1 : l.findSome? segOverride = none) (h2 : l.contains 0x67 = false) :
    prefixesOf (encodePrefixes p ++ l) = p := by
  obtain ⟨seg, a⟩ := p
  rcases seg with _ | seg
  · cases a <;> simp_all [prefixesOf, encodePrefixes, segOverride]
  · cases seg <;> cases a <;> simp_all [prefixesOf, encodePrefixes, segByte, segOverride]

theorem sseLead_encode_rex (c : Ctx) (p : Prefixes) (x : Byte) (hl : c.long = true) (hx : x.extractLsb' 4 4 = 4) :
    sseLeadOk c (encodePrefixes p ++ [0xF3, x]) = true ∧ rexOf c (encodePrefixes p ++ [0xF3, x]) = some x ∧
    prefixesOf (encodePrefixes p ++ [0xF3, x]) = p ∧ (encodePrefixes p ++ [0xF3, x]).contains 0xF0 = false ∧
    (encodePrefixes p ++ [0xF3, x]).count 0xF3 = 1 := by
  have hrx : isRex c x = true := by simp [isRex, hl, hx]
  have h : ∀ l : List Byte, rexOf c (l ++ [0xF3, x]) = some x := by intro l; simp [rexOf, hrx]
  obtain ⟨x1, x2, x3, x4, x5, x6, x7⟩ := rex_not_other x hx
  obtain ⟨p1, p2, p3⟩ := prefixes_facts p
  have q := fun b hb => p2 b hb
  simp only [List.mem_cons, List.not_mem_nil, or_false, forall_eq_or_imp, forall_eq] at q
  obtain ⟨q1, q2, q3, q4⟩ := q
  simp only [BitVec.ofNat_eq_ofNat] at x3 x4 x5 x6 x7 q1 q2 q3 q4
  have hf3 : isRex c 243#8 = false := by simp [isRex]
  have hs3 : isSegByte 243#8 = false := by decide
  refine ⟨?_, h _, ?_, ?_, ?_⟩
  · have : singleOverrides (encodePrefixes p ++ [0xF3, x]) = true := by
      rw [p1]
      simp [List.filter_cons, x1, hs3, List.count_cons, x4]
      constructor <;> split <;> omega
    have h' := h (encodePrefixes p)
    simp only [BitVec.ofNat_eq_ofNat] at this h'
    simp [sseLeadOk, h', this, List.count_append, q1, q2, q3, q4, List.count_cons, x3, x5, x6, x7, p3, List.filter_cons, hf3, hrx]
  · apply prefixesOf_append
    · simp [segOverride, x2]
      simpa [segOverride] using x2
    · simp [Ne.symm x4]
  · rw [Bool.eq_false_iff]
    simp only [ne_eq, List.contains_iff_mem]
    intro hm
    have := List.count_pos_iff.2 hm
    simp [List.count_append, q2, List.count_cons, x5] at this
  · simp [List.count_append, q4, List.count_cons, x7]

end Sys2Proof
end

