-- ==== Sys2Proof/Laws/Decoding.lean ====
section
/-! SUPPORT. Everything decoding can answer: for each reader of bytes and each shape, what must hold when it gives a value. -/

namespace Sys2Proof

theorem take16_eq_some {bs rest : List Byte} {v : BitVec 16} (h : take16 bs = some (v, rest)) :
    bs.length = 2 + rest.length ∧ ∃ pre, bs = pre ++ rest := by
  match bs with
  | b0 :: b1 :: bs =>
    simp only [take16, Option.some.injEq, Prod.mk.injEq] at h
    exact ⟨by simp [← h.2]; omega, [b0, b1], by simp [h.2]⟩
  | [] | [_] => simp [take16] at h

theorem take32_eq_some {bs rest : List Byte} {v : BitVec 32} (h : take32 bs = some (v, rest)) :
    bs.length = 4 + rest.length ∧ ∃ pre, bs = pre ++ rest := by
  match bs with
  | b0 :: b1 :: b2 :: b3 :: bs =>
    simp only [take32, Option.some.injEq, Prod.mk.injEq] at h
    exact ⟨by simp [← h.2]; omega, [b0, b1, b2, b3], by simp [h.2]⟩
  | [] | [_] | [_, _] | [_, _, _] => simp [take32] at h

/-- A displacement read has the size its kind says, a kind the addressing has, and is absent only for mod = 00. -/
theorem takeDisp_eq_some {asz : AddrSize} {mod : BitVec 2} {bs rest : List Byte} {disp : Disp}
    (h : takeDisp asz mod bs = some (disp, rest)) :
    (bs.length = disp.size + rest.length ∧ ∃ pre, bs = pre ++ rest) ∧
      (if asz = .a16 then disp.ok16 else disp.ok32) = true ∧ (disp = .none → mod = 0) := by
  unfold takeDisp at h
  split at h
  · obtain ⟨rfl, rfl⟩ := by simpa using h
    exact ⟨⟨by simp [Disp.size], [], rfl⟩, by split <;> rfl, fun _ => by assumption⟩
  · split at h
    · split at h
      · rename_i b bs
        obtain ⟨rfl, rfl⟩ := by simpa using h
        exact ⟨⟨by simp [Disp.size]; omega, [b], rfl⟩, by split <;> rfl, by simp⟩
      · simp at h
    · split at h
      · rename_i ha
        obtain ⟨⟨v, r⟩, hv, he⟩ := Option.map_eq_some_iff.1 h
        obtain ⟨rfl, rfl⟩ := by simpa using he
        exact ⟨take16_eq_some hv, by simp [ha, Disp.ok16], by simp⟩
      · rename_i ha
        obtain ⟨⟨v, r⟩, hv, he⟩ := Option.map_eq_some_iff.1 h
        obtain ⟨rfl, rfl⟩ := by simpa using he
        exact ⟨take32_eq_some hv, by simp [ha, Disp.ok32], by simp⟩

/-- How many register numbers an extension bit reaches. -/
def reach (x : Bool) : Nat := if x then 16 else 8

theorem gnum_lt_of_le (x : Bool) (f : BitVec 3) {ng : Nat} (h : reach x ≤ ng) : (gnum x f).toNat < ng :=
  Nat.lt_of_lt_of_le (gnum_toNat_lt x f) h

/-- Everything reading operand 2 can answer: an operand the encoding has, of the size it says. -/
theorem takeOperand_eq_some {asz : AddrSize} {e : Ext} {mod : BitVec 2} {rm : BitVec 3} {bs rest : List Byte}
    {src : Operand} {nv ng : Nat} (h : takeOperand asz e mod rm bs = some (src, rest))
    (hv : (if e.xs then 32 else if e.b then 16 else 8) ≤ nv) (hb : reach e.b ≤ ng) (hx : reach e.x ≤ ng) :
    (bs.length = src.size + rest.length ∧ ∃ pre, bs = pre ++ rest) ∧ src.ok asz nv ng = true := by
  unfold takeOperand at h
  split at h
  · obtain ⟨rfl, rfl⟩ := by simpa using h
    refine ⟨⟨by simp [Operand.size], [], rfl⟩, ?_⟩
    simp only [Operand.ok, decide_eq_true_eq]
    exact Nat.lt_of_lt_of_le (vnum_toNat_lt e.xs e.b rm) hv
  · obtain ⟨⟨a, r⟩, ha, he⟩ := Option.map_eq_some_iff.1 h
    obtain ⟨rfl, rfl⟩ := by simpa using he
    split at ha
    · rename_i h16
      unfold takeAddr16 at ha
      split at ha
      · obtain ⟨⟨v, r'⟩, hv', he⟩ := Option.map_eq_some_iff.1 ha
        obtain ⟨rfl, rfl⟩ := by simpa using he
        exact ⟨take16_eq_some hv', by simp [Operand.ok, Addr.ok, h16]⟩
      · rename_i hn
        obtain ⟨⟨v, r'⟩, hv', he⟩ := Option.map_eq_some_iff.1 ha
        obtain ⟨rfl, rfl⟩ := by simpa using he
        obtain ⟨hl, hok, hm⟩ := takeDisp_eq_some hv'
        refine ⟨hl, ?_⟩
        simp only [Operand.ok, Addr.ok, h16, decide_true, Bool.true_and, Bool.and_eq_true, Bool.or_eq_true,
          decide_eq_true_eq]
        refine ⟨by simpa using hok, ?_⟩
        by_contra hc
        simp only [not_or, not_not] at hc
        exact hn ⟨hm hc.1, hc.2⟩
    · rename_i h16
      unfold takeAddr32 at ha
      split at ha
      · unfold takeSib at ha
        split at ha
        · simp at ha
        · rename_i sib bs'
          split at ha
          · obtain ⟨⟨v, r'⟩, hv', he⟩ := Option.map_eq_some_iff.1 ha
            obtain ⟨rfl, rfl⟩ := by simpa using he
            obtain ⟨hl, pre, hp⟩ := take32_eq_some hv'
            exact ⟨⟨by simp [Operand.size, hl]; omega, sib :: pre, by simp [hp]⟩,
              by simp [Operand.ok, Addr.ok, h16, gnum_lt_of_le e.x _ hx]⟩
          · rename_i hn
            obtain ⟨⟨v, r'⟩, hv', he⟩ := Option.map_eq_some_iff.1 ha
            obtain ⟨rfl, rfl⟩ := by simpa using he
            obtain ⟨⟨hl, pre, hp⟩, hok, hm⟩ := takeDisp_eq_some hv'
            refine ⟨⟨by simp [Operand.size, hl]; omega, sib :: pre, by simp [hp]⟩, ?_⟩
            simp only [Operand.ok, Addr.ok, Bool.and_eq_true, Bool.or_eq_true, decide_eq_true_eq, low_gnum]
            refine ⟨⟨⟨⟨h16, gnum_lt_of_le e.b _ hb⟩, gnum_lt_of_le e.x _ hx⟩, by simpa using hok⟩, ?_⟩
            by_contra hc
            simp only [not_or, not_not] at hc
            exact hn ⟨hm hc.1, hc.2⟩
      · rename_i h4
        split at ha
        · obtain ⟨⟨v, r'⟩, hv', he⟩ := Option.map_eq_some_iff.1 ha
          obtain ⟨rfl, rfl⟩ := by simpa using he
          exact ⟨take32_eq_some hv', by simp [Operand.ok, Addr.ok, h16]⟩
        · rename_i hn
          obtain ⟨⟨v, r'⟩, hv', he⟩ := Option.map_eq_some_iff.1 ha
          obtain ⟨rfl, rfl⟩ := by simpa using he
          obtain ⟨hl, hok, hm⟩ := takeDisp_eq_some hv'
          refine ⟨hl, ?_⟩
          simp only [Operand.ok, Addr.ok, Bool.and_eq_true, Bool.or_eq_true, decide_eq_true_eq, low_gnum]
          refine ⟨⟨⟨⟨h16, gnum_lt_of_le e.b _ hb⟩, h4⟩, by simpa using hok⟩, ?_⟩
          by_contra hc
          simp only [not_or, not_not] at hc
          exact hn ⟨hm hc.1, hc.2⟩

/-- Everything reading the bytes after the opcode can answer. -/
theorem takeBody_eq_some {asz : AddrSize} {e : Ext} {bs rest : List Byte} {y : Body} {nv ng : Nat}
    (h : takeBody asz e bs = some (y, rest)) (hv : (if e.xs then 32 else if e.b then 16 else 8) ≤ nv)
    (hb : reach e.b ≤ ng) (hx : reach e.x ≤ ng) :
    (bs.length = 1 + y.src.size + 1 + rest.length ∧ ∃ pre, bs = pre ++ rest) ∧
      y.src.ok asz nv ng = true ∧ y.d.toNat < if e.r' then 32 else if e.r then 16 else 8 := by
  unfold takeBody at h
  split at h
  · simp at h
  · rename_i modrm bs
    split at h
    · rename_i src imm r heq
      obtain ⟨rfl, rfl⟩ := by simpa using h
      obtain ⟨⟨hl, pre, hp⟩, hok⟩ := takeOperand_eq_some heq hv hb hx
      refine ⟨⟨by simp [hl]; omega, modrm :: (pre ++ [imm]), by simp [hp]⟩, hok, vnum_toNat_lt _ _ _⟩
    · simp at h

/-! ## Everything each shape can decode to -/

theorem decodeSse_eq_instr {c : Ctx} {lead bs rest : List Byte} {i : Instr}
    (h : decodeSse c lead bs = .instr i rest) :
    ∃ bs' y, bs = 0x70 :: bs' ∧ sseLeadOk c lead = true ∧ lead.contains 0xF0 = false ∧
      takeBody (c.asz (prefixesOf lead).addrSize)
        { r' := false, r := ((rexOf c lead).getD 0x40).getLsbD 2, x := ((rexOf c lead).getD 0x40).getLsbD 1,
          b := ((rexOf c lead).getD 0x40).getLsbD 0, xs := false } bs' = some (y, rest) ∧
      i = if (rexOf c lead).isSome then .sseRex (prefixesOf lead) y.d y.src y.imm
        else .sse (prefixesOf lead) y.d y.src y.imm := by
  unfold decodeSse at h
  split at h
  · simp at h
  · rename_i op bs'
    split at h
    · simp at h
    · rename_i hop
      split at h
      · simp at h
      · rename_i hlead
        simp only at h
        split at h
        · simp at h
        · rename_i y r heq
          split at h
          · simp at h
          · rename_i hF0
            simp only [not_or, not_not] at hop
            refine ⟨bs', y, by rw [hop.1], by simpa using hlead, by simpa using hF0, ?_⟩
            split at h <;> rename_i hrex <;> obtain ⟨rfl, rfl⟩ := by simpa using h
            · exact ⟨heq, by rw [if_pos hrex]⟩
            · exact ⟨heq, by rw [if_neg hrex]⟩

theorem afterLead_eq_instr {c : Ctx} {lead rest rest' : List Byte} {i i' : Instr}
    (h : afterLead c lead i rest = .instr i' rest') :
    lead.any (spoilsVex c) = false ∧ singleOverrides lead = true ∧ i' = i ∧ rest' = rest := by
  unfold afterLead at h
  split at h
  · simp at h
  · rename_i h1
    split at h
    · obtain ⟨rfl, rfl⟩ := by simpa using h
      exact ⟨by simpa using h1, by assumption, rfl, rfl⟩
    · split at h <;> simp at h

theorem decodeVexBody_eq_instr {c : Ctx} {lead bs rest : List Byte} {e : Ext}
    {mk : Prefixes → VNum → Operand → BitVec 8 → Instr} {i : Instr}
    (h : decodeVexBody c lead e mk bs = .instr i rest) :
    ∃ y, takeBody (c.asz (prefixesOf lead).addrSize) e bs = some (y, rest) ∧
      lead.any (spoilsVex c) = false ∧ singleOverrides lead = true ∧
      i = mk (prefixesOf lead) y.d y.src y.imm := by
  unfold decodeVexBody at h
  simp only at h
  split at h
  · simp at h
  · rename_i y r heq
    obtain ⟨h1, h2, rfl, rfl⟩ := afterLead_eq_instr h
    exact ⟨y, heq, h1, h2, rfl⟩

theorem decodeC5_eq_instr {c : Ctx} {lead bs rest : List Byte} {i : Instr}
    (h : decodeC5 c lead bs = .instr i rest) :
    ∃ v1 bs' y, bs = v1 :: 0x70 :: bs' ∧ v1.extractLsb' 0 2 = 2 ∧ (c.long = true ∨ fieldTop v1 = 3 ∧ c.vex = true) ∧
      takeBody (c.asz (prefixesOf lead).addrSize)
        { r' := false, r := !v1.getLsbD 7, x := false, b := false, xs := false } bs' = some (y, rest) ∧
      lead.any (spoilsVex c) = false ∧ singleOverrides lead = true ∧
      i = if v1.getLsbD 2 then .vex256C5 (prefixesOf lead) (v1.extractLsb' 3 4) y.d y.src y.imm
        else .vex128C5 (prefixesOf lead) (v1.extractLsb' 3 4) y.d y.src y.imm := by
  unfold decodeC5 at h
  split at h
  · simp at h
  · rename_i v1 bs
    split at h
    · simp at h
    · rename_i h1
      split at h
      · simp at h
      · rename_i h2
        split at h
        · simp at h
        · rename_i op bs'
          split at h
          · simp at h
          · rename_i h3
            simp only [not_or, not_not] at h3
            have hl : c.long = true ∨ fieldTop v1 = 3 ∧ c.vex = true := by
              cases hc : c.long
              · simp_all
              · simp
            simp only at h
            split at h <;> rename_i hL <;> obtain ⟨y, hy, hs, ho, rfl⟩ := decodeVexBody_eq_instr h <;>
              exact ⟨v1, bs', y, by rw [h3.1], h3.2, hl, hy, hs, ho, by first | rw [if_pos hL] | rw [if_neg hL]⟩

theorem decodeC4_eq_instr {c : Ctx} {lead bs rest : List Byte} {i : Instr}
    (h : decodeC4 c lead bs = .instr i rest) :
    ∃ v1 v2 bs' y, bs = v1 :: v2 :: 0x70 :: bs' ∧ v2.extractLsb' 0 2 = 2 ∧ v1.extractLsb' 0 5 = 1 ∧
      (c.long = true ∨ fieldTop v1 = 3 ∧ c.vex = true) ∧
      takeBody (c.asz (prefixesOf lead).addrSize)
        { r' := false, r := !v1.getLsbD 7, x := !v1.getLsbD 6, b := c.long && !v1.getLsbD 5, xs := false } bs' =
          some (y, rest) ∧
      lead.any (spoilsVex c) = false ∧ singleOverrides lead = true ∧
      i = if v2.getLsbD 2 then .vex256C4 (prefixesOf lead) (v2.extractLsb' 3 4) y.d y.src y.imm
        else .vex128C4 (prefixesOf lead) (v2.extractLsb' 3 4) y.d y.src y.imm := by
  unfold decodeC4 at h
  split at h
  · simp at h
  · rename_i v1 bs
    split at h
    · simp at h
    · rename_i h1
      split at h
      · simp at h
      · rename_i h2
        split at h
        · rename_i v2 op bs'
          split at h
          · simp at h
          · rename_i h3
            simp only [not_or, not_not] at h3
            have hl : c.long = true ∨ fieldTop v1 = 3 ∧ c.vex = true := by
              cases hc : c.long
              · simp_all
              · simp
            simp only at h
            split at h <;> rename_i hL <;> obtain ⟨y, hy, hs, ho, rfl⟩ := decodeVexBody_eq_instr h <;>
              exact ⟨v1, v2, bs', y, by rw [h3.1], h3.2.1, h3.2.2, hl, hy, hs, ho, by first | rw [if_pos hL] | rw [if_neg hL]⟩
        · simp at h

theorem decodeEvexBody_eq_instr {c : Ctx} {lead bs rest : List Byte} {p0 : Byte} {ctl : EvexCtl}
    {mk : Prefixes → EvexCtl → VNum → Operand → BitVec 8 → Instr} {i : Instr}
    (h : decodeEvexBody c lead p0 ctl mk bs = .instr i rest) :
    ∃ y, takeBody (c.asz (prefixesOf lead).addrSize) (evexExt p0) bs = some (y, rest) ∧
      (c.long = true ∨ p0.extractLsb' 4 4 = 15) ∧ c.refusesMem16 (prefixesOf lead) y.src = false ∧
      lead.any (spoilsVex c) = false ∧ singleOverrides lead = true ∧ i = mk (prefixesOf lead) ctl y.d y.src y.imm := by
  unfold decodeEvexBody at h
  simp only at h
  split at h
  · simp at h
  · rename_i y r hy
    split at h
    · simp at h
    · split at h
      · split at h <;> simp at h
      · rename_i hd
        unfold evexDoubt at hd
        split at hd
        · simp at hd
        · rename_i hx
          split at hd
          · simp at hd
          · rename_i hm
            obtain ⟨hs, ho, rfl, rfl⟩ := afterLead_eq_instr h
            refine ⟨y, hy, ?_, by simpa using hm, hs, ho, rfl⟩
            cases hc : c.long
            · simp_all
            · simp

theorem undefinedBody_ne_instr (c : Ctx) (lead bs rest : List Byte) (e : Ext) (i : Instr) :
    undefinedBody c lead e bs ≠ .instr i rest := by
  unfold undefinedBody
  split <;> simp

theorem decodeEvex_eq_instr {c : Ctx} {lead bs rest : List Byte} {i : Instr}
    (h : decodeEvex c lead bs = .instr i rest) :
    ∃ p0 p1 p2 bs' y mk, bs = p0 :: p1 :: p2 :: 0x70 :: bs' ∧ p0.extractLsb' 2 2 = 0 ∧ p1.getLsbD 2 = true ∧
      p1.extractLsb' 0 2 = 2 ∧ p0.extractLsb' 0 2 = 1 ∧ evexForm (p2.extractLsb' 5 2) = some mk ∧
      (c.long = true ∨ p0.extractLsb' 4 4 = 15 ∧ c.evex = true) ∧
      takeBody (c.asz (prefixesOf lead).addrSize) (evexExt p0) bs' = some (y, rest) ∧
      c.refusesMem16 (prefixesOf lead) y.src = false ∧
      lead.any (spoilsVex c) = false ∧ singleOverrides lead = true ∧
      i = mk (prefixesOf lead) (evexCtl p1 p2) y.d y.src y.imm := by
  unfold decodeEvex at h
  split at h
  · simp at h
  · rename_i p0 bs
    split at h
    · simp at h
    · split at h
      · simp at h
      · rename_i h2
        split at h
        · rename_i p1 p2 op bs'
          simp only at h
          split at h
          · split at h <;> simp at h
          · rename_i h3
            simp only [not_or, not_not] at h3
            split at h
            · exact absurd h (undefinedBody_ne_instr _ _ _ _ _ _)
            · rename_i mk hmk
              split at h
              · exact absurd h (undefinedBody_ne_instr _ _ _ _ _ _)
              · rename_i h4
                obtain ⟨y, hy, hl, hm, hs, ho, rfl⟩ := decodeEvexBody_eq_instr h
                simp only [Bool.or_eq_true, decide_eq_true_eq, Bool.not_eq_true', not_or, not_not,
                  Bool.not_eq_false] at h4
                refine ⟨p0, p1, p2, bs', y, mk, by rw [h3.1], h4.1, h4.2, h3.2.1, h3.2.2, hmk, ?_, hy, hm, hs, ho, rfl⟩
                cases hc : c.long
                · simp_all
                · simp
        · simp at h

/-- The shape an instruction was decoded from: the leading bytes are leading bytes, and one of the four shapes
answered it. -/
theorem decode_eq_instr {c : Ctx} {bytes rest : List Byte} {i : Instr} (h : decode c bytes = .instr i rest) :
    ∃ lead b bs, bytes = lead ++ b :: bs ∧ (∀ x ∈ lead, isLeading c x = true) ∧
      ((b = 0x0F ∧ decodeSse c lead bs = .instr i rest) ∨ (b = 0xC5 ∧ decodeC5 c lead bs = .instr i rest) ∨
        (b = 0xC4 ∧ decodeC4 c lead bs = .instr i rest) ∨ (b = 0x62 ∧ decodeEvex c lead bs = .instr i rest)) := by
  unfold decode at h
  simp only at h
  split at h
  · simp at h
  · rename_i b bs heq
    refine ⟨(splitLeading c bytes).1, b, bs, by rw [← heq, splitLeading_join], splitLeading_all c bytes, ?_⟩
    split at h
    · exact .inl ⟨by assumption, h⟩
    · split at h
      · exact .inr (.inl ⟨by assumption, h⟩)
      · split at h
        · exact .inr (.inr (.inl ⟨by assumption, h⟩))
        · split at h
          · exact .inr (.inr (.inr ⟨by assumption, h⟩))
          · simp at h

/-! ## How many leading bytes there are -/

/-- The leading bytes before a VEX or EVEX prefix are the two optional ones (30_encoding.md R82). -/
theorem lead_vex_length (c : Ctx) (lead : List Byte) (h : ∀ x ∈ lead, isLeading c x = true)
    (hs : lead.any (spoilsVex c) = false) (ho : singleOverrides lead = true) :
    lead.length = (prefixesOf lead).size := by
  have hk : ∀ x ∈ lead, isSegByte x = true ∨ x = 0x67 := by
    intro x hx
    have h1 := h x hx
    have h2 := (List.any_eq_false.1 hs) x hx
    simp only [isLeading, spoilsVex, Bool.or_eq_true, decide_eq_true_eq, not_or] at h1 h2
    tauto
  simp only [singleOverrides, Bool.and_eq_true, decide_eq_true_eq] at ho
  match lead, hk, ho with
  | [], _, _ => rfl
  | [a], hk, _ =>
    rcases hk a (by simp) with h1 | h1
    · have hne : a ≠ 0x67 := by rintro rfl; revert h1; decide
      have : segOverride a ≠ none := by intro hn; simp [isSegByte, hn] at h1
      obtain ⟨r, hr⟩ := Option.ne_none_iff_exists'.1 this
      simp only [BitVec.ofNat_eq_ofNat] at hne
      simp [prefixesOf, Prefixes.size, hr, Ne.symm hne]
    · subst h1; rfl
  | [a, b], hk, ho =>
    rcases hk a (by simp) with h1 | h1 <;> rcases hk b (by simp) with h2 | h2
    · simp [h1, h2, List.filter_cons] at ho
    · subst h2
      have : segOverride a ≠ none := by intro hn; simp [isSegByte, hn] at h1
      obtain ⟨r, hr⟩ := Option.ne_none_iff_exists'.1 this
      simp [prefixesOf, Prefixes.size, hr]
    · subst h1
      have : segOverride b ≠ none := by intro hn; simp [isSegByte, hn] at h2
      obtain ⟨r, hr⟩ := Option.ne_none_iff_exists'.1 this
      have : segOverride 103#8 = none := by decide
      simp [prefixesOf, Prefixes.size, hr, List.findSome?_cons, this]
    · subst h1 h2; simp at ho
  | a :: b :: d :: l, hk, ho =>
    exfalso
    have h67 : isSegByte 103#8 = false := by decide
    rcases hk a (by simp) with h1 | h1 <;> rcases hk b (by simp) with h2 | h2 <;> rcases hk d (by simp) with h3 | h3 <;>
      simp_all [List.filter_cons, List.count_cons] <;> omega

/-- The leading bytes before `0F 70` are the two optional ones, `F3`, and the REX byte if there is one (R82). -/
theorem lead_sse_length (c : Ctx) (lead : List Byte) (h : ∀ x ∈ lead, isLeading c x = true)
    (ho : sseLeadOk c lead = true) (hf : lead.contains 0xF0 = false) :
    lead.length = (prefixesOf lead).size + 1 + (if (rexOf c lead).isSome then 1 else 0) := by
  simp only [sseLeadOk, singleOverrides, Bool.and_eq_true, decide_eq_true_eq] at ho
  obtain ⟨⟨⟨⟨⟨h3, hseg, h67⟩, h66⟩, h2⟩, h0⟩, hrex⟩ := ho
  have hf' : lead.count 0xF0 = 0 := by
    rw [List.count_eq_zero]; intro hm; simp at hf; exact hf hm
  have key : ∀ l : List Byte, (∀ x ∈ l, isLeading c x = true) →
      l.length = (l.filter isSegByte).length + l.count 0x66 + l.count 0x67 + l.count 0xF0 + l.count 0xF2 + l.count 0xF3 + (l.filter (isRex c)).length := by
    intro l hl
    induction l with
    | nil => rfl
    | cons x l ih =>
      have hx := hl x (by simp)
      have ih := ih fun y hy => hl y (by simp [hy])
      have this := ih
      have hd : ∀ y : Byte, y.extractLsb' 4 4 = 4 → segOverride y = none ∧ y ≠ 0x66 ∧ y ≠ 0x67 ∧ y ≠ 0xF0 ∧ y ≠ 0xF2 ∧ y ≠ 0xF3 := by decide +kernel
      have hs : ∀ y : Byte, isSegByte y = true → y.extractLsb' 4 4 ≠ 4 ∧ y ≠ 0x66 ∧ y ≠ 0x67 ∧ y ≠ 0xF0 ∧ y ≠ 0xF2 ∧ y ≠ 0xF3 := by decide +kernel
      by_cases c1 : isSegByte x = true
      · obtain ⟨a1, a2, a3, a4, a5, a6⟩ := hs x c1
        simp only [BitVec.ofNat_eq_ofNat] at *
        simp [List.filter_cons, c1, List.count_cons, a2, a3, a4, a5, a6, isRex, a1, this]; omega
      by_cases c2 : isRex c x = true
      · obtain ⟨a1, a2, a3, a4, a5, a6⟩ := hd x (by simp [isRex] at c2; exact c2.2)
        simp only [BitVec.ofNat_eq_ofNat] at *
        simp [List.filter_cons, c1, c2, List.count_cons, a2, a3, a4, a5, a6, this]
        omega
      · have : x = 0x66 ∨ x = 0x67 ∨ x = 0xF0 ∨ x = 0xF2 ∨ x = 0xF3 := by
          simp only [isLeading, Bool.or_eq_true, decide_eq_true_eq] at hx; tauto
        have g1 : isSegByte x = false := by simpa using c1
        have g2 : isRex c x = false := by simpa using c2
        rcases this with rfl | rfl | rfl | rfl | rfl <;> simp only [BitVec.ofNat_eq_ofNat] at g1 g2 <;>
          simp [List.filter_cons, g1, g2, List.count_cons] <;> simp only [BitVec.ofNat_eq_ofNat] at ih <;> omega
  have hk := key lead h
  have e1 : (if (prefixesOf lead).seg.isSome then 1 else 0) = (lead.filter isSegByte).length := by
    have : (prefixesOf lead).seg.isSome = true ↔ (lead.filter isSegByte).length ≠ 0 := by
      simp [prefixesOf, List.filter_eq_nil_iff, isSegByte, List.findSome?_isSome_iff, Option.isSome_iff_ne_none]
    split <;> rename_i hh
    · have := this.1 hh; omega
    · have : ¬ (lead.filter isSegByte).length ≠ 0 := fun h => hh (this.2 h); omega
  have e2 : (if (prefixesOf lead).addrSize then 1 else 0) = lead.count 0x67 := by
    have : (prefixesOf lead).addrSize = true ↔ 0 < lead.count 0x67 := by
      simp [prefixesOf, List.count_pos_iff]
    split <;> rename_i hh
    · have := this.1 hh; omega
    · have : ¬ 0 < lead.count 0x67 := fun h => hh (this.2 h); omega
  simp only [Prefixes.size, e1, e2]
  omega

end Sys2Proof
end

