-- ==== Sys2Proof/Laws/State.lean ====
section
/-! SUPPORT. What the named updates of the state do to each field: one lemma for each field and update, so that no
proof unfolds a record update. -/

namespace Sys2Proof.Machine

variable (s : State) (i j d : VNum) (x : VReg) (n : Nat)

/-! ## `setV` -/

@[simp] theorem setV_k : (s.setV i x).k = s.k := rfl
@[simp] theorem setV_g : (s.setV i x).g = s.g := rfl
@[simp] theorem setV_ip : (s.setV i x).ip = s.ip := rfl
@[simp] theorem setV_rflags : (s.setV i x).rflags = s.rflags := rfl
@[simp] theorem setV_mxcsr : (s.setV i x).mxcsr = s.mxcsr := rfl
@[simp] theorem setV_x87 : (s.setV i x).x87 = s.x87 := rfl
@[simp] theorem setV_cr0 : (s.setV i x).cr0 = s.cr0 := rfl
@[simp] theorem setV_cr2 : (s.setV i x).cr2 = s.cr2 := rfl
@[simp] theorem setV_cr4 : (s.setV i x).cr4 = s.cr4 := rfl
@[simp] theorem setV_xcr0 : (s.setV i x).xcr0 = s.xcr0 := rfl
@[simp] theorem setV_cpl : (s.setV i x).cpl = s.cpl := rfl
@[simp] theorem setV_es : (s.setV i x).es = s.es := rfl
@[simp] theorem setV_cs : (s.setV i x).cs = s.cs := rfl
@[simp] theorem setV_ss : (s.setV i x).ss = s.ss := rfl
@[simp] theorem setV_ds : (s.setV i x).ds = s.ds := rfl
@[simp] theorem setV_fs : (s.setV i x).fs = s.fs := rfl
@[simp] theorem setV_gs : (s.setV i x).gs = s.gs := rfl
@[simp] theorem setV_mode : (s.setV i x).mode = s.mode := rfl
@[simp] theorem setV_defAddr : (s.setV i x).defAddr = s.defAddr := rfl
@[simp] theorem setV_cpu : (s.setV i x).cpu = s.cpu := rfl
@[simp] theorem setV_breakpointsArmed : (s.setV i x).breakpointsArmed = s.breakpointsArmed := rfl
@[simp] theorem setV_mem : (s.setV i x).mem = s.mem := rfl
@[simp] theorem setV_map : (s.setV i x).map = s.map := rfl
@[simp] theorem setV_program : (s.setV i x).program = s.program := rfl
@[simp] theorem setV_xlat : (s.setV i x).xlat = s.xlat := rfl
@[simp] theorem setV_oracle : (s.setV i x).oracle = s.oracle := rfl
@[simp] theorem setV_fresh : (s.setV i x).fresh = s.fresh := rfl

@[simp] theorem getV_setV_same : (s.setV i x).getV i = x.fit s.cpu.maxvl := by
  simp [State.getV, State.setV]

theorem getV_setV_of_ne (h : j ≠ i) : (s.setV i x).getV j = s.getV j := by
  have : i.toNat ≠ j.toNat := fun e => h (BitVec.eq_of_toNat_eq e.symm)
  simp [State.getV, State.setV, this]

/-! ## `complete` -/

@[simp] theorem complete_k : (s.complete d x n).k = s.k := rfl
@[simp] theorem complete_g : (s.complete d x n).g = s.g := rfl
@[simp] theorem complete_rflags : (s.complete d x n).rflags = s.rflags := rfl
@[simp] theorem complete_mxcsr : (s.complete d x n).mxcsr = s.mxcsr := rfl
@[simp] theorem complete_x87 : (s.complete d x n).x87 = s.x87 := rfl
@[simp] theorem complete_cr0 : (s.complete d x n).cr0 = s.cr0 := rfl
@[simp] theorem complete_cr2 : (s.complete d x n).cr2 = s.cr2 := rfl
@[simp] theorem complete_cr4 : (s.complete d x n).cr4 = s.cr4 := rfl
@[simp] theorem complete_xcr0 : (s.complete d x n).xcr0 = s.xcr0 := rfl
@[simp] theorem complete_cpl : (s.complete d x n).cpl = s.cpl := rfl
@[simp] theorem complete_es : (s.complete d x n).es = s.es := rfl
@[simp] theorem complete_cs : (s.complete d x n).cs = s.cs := rfl
@[simp] theorem complete_ss : (s.complete d x n).ss = s.ss := rfl
@[simp] theorem complete_ds : (s.complete d x n).ds = s.ds := rfl
@[simp] theorem complete_fs : (s.complete d x n).fs = s.fs := rfl
@[simp] theorem complete_gs : (s.complete d x n).gs = s.gs := rfl
@[simp] theorem complete_mode : (s.complete d x n).mode = s.mode := rfl
@[simp] theorem complete_defAddr : (s.complete d x n).defAddr = s.defAddr := rfl
@[simp] theorem complete_cpu : (s.complete d x n).cpu = s.cpu := rfl
@[simp] theorem complete_breakpointsArmed : (s.complete d x n).breakpointsArmed = s.breakpointsArmed := rfl
@[simp] theorem complete_mem : (s.complete d x n).mem = s.mem := rfl
@[simp] theorem complete_map : (s.complete d x n).map = s.map := rfl
@[simp] theorem complete_program : (s.complete d x n).program = s.program := rfl
@[simp] theorem complete_xlat : (s.complete d x n).xlat = s.xlat := rfl
@[simp] theorem complete_oracle : (s.complete d x n).oracle = s.oracle := rfl
@[simp] theorem complete_fresh : (s.complete d x n).fresh = s.fresh := rfl
@[simp] theorem complete_ip : (s.complete d x n).ip = s.nextIp n := rfl
@[simp] theorem complete_v : (s.complete d x n).v = (s.setV d x).v := rfl

@[simp] theorem getV_complete_same : (s.complete d x n).getV d = x.fit s.cpu.maxvl :=
  getV_setV_same s d x

theorem getV_complete_of_ne (h : j ≠ d) : (s.complete d x n).getV j = s.getV j :=
  getV_setV_of_ne s d j x h

/-! ## `afterRead` -/

@[simp] theorem afterRead_v : (s.afterRead n).v = s.v := by
  unfold State.afterRead; split <;> rfl
@[simp] theorem afterRead_k : (s.afterRead n).k = s.k := by
  unfold State.afterRead; split <;> rfl
@[simp] theorem afterRead_g : (s.afterRead n).g = s.g := by
  unfold State.afterRead; split <;> rfl
@[simp] theorem afterRead_ip : (s.afterRead n).ip = s.ip := by
  unfold State.afterRead; split <;> rfl
@[simp] theorem afterRead_rflags : (s.afterRead n).rflags = s.rflags := by
  unfold State.afterRead; split <;> rfl
@[simp] theorem afterRead_mxcsr : (s.afterRead n).mxcsr = s.mxcsr := by
  unfold State.afterRead; split <;> rfl
@[simp] theorem afterRead_x87 : (s.afterRead n).x87 = s.x87 := by
  unfold State.afterRead; split <;> rfl
@[simp] theorem afterRead_cr0 : (s.afterRead n).cr0 = s.cr0 := by
  unfold State.afterRead; split <;> rfl
@[simp] theorem afterRead_cr2 : (s.afterRead n).cr2 = s.cr2 := by
  unfold State.afterRead; split <;> rfl
@[simp] theorem afterRead_cr4 : (s.afterRead n).cr4 = s.cr4 := by
  unfold State.afterRead; split <;> rfl
@[simp] theorem afterRead_xcr0 : (s.afterRead n).xcr0 = s.xcr0 := by
  unfold State.afterRead; split <;> rfl
@[simp] theorem afterRead_cpl : (s.afterRead n).cpl = s.cpl := by
  unfold State.afterRead; split <;> rfl
@[simp] theorem afterRead_es : (s.afterRead n).es = s.es := by
  unfold State.afterRead; split <;> rfl
@[simp] theorem afterRead_cs : (s.afterRead n).cs = s.cs := by
  unfold State.afterRead; split <;> rfl
@[simp] theorem afterRead_ss : (s.afterRead n).ss = s.ss := by
  unfold State.afterRead; split <;> rfl
@[simp] theorem afterRead_ds : (s.afterRead n).ds = s.ds := by
  unfold State.afterRead; split <;> rfl
@[simp] theorem afterRead_fs : (s.afterRead n).fs = s.fs := by
  unfold State.afterRead; split <;> rfl
@[simp] theorem afterRead_gs : (s.afterRead n).gs = s.gs := by
  unfold State.afterRead; split <;> rfl
@[simp] theorem afterRead_mode : (s.afterRead n).mode = s.mode := by
  unfold State.afterRead; split <;> rfl
@[simp] theorem afterRead_defAddr : (s.afterRead n).defAddr = s.defAddr := by
  unfold State.afterRead; split <;> rfl
@[simp] theorem afterRead_cpu : (s.afterRead n).cpu = s.cpu := by
  unfold State.afterRead; split <;> rfl
@[simp] theorem afterRead_breakpointsArmed : (s.afterRead n).breakpointsArmed = s.breakpointsArmed := by
  unfold State.afterRead; split <;> rfl
@[simp] theorem afterRead_mem : (s.afterRead n).mem = s.mem := by
  unfold State.afterRead; split <;> rfl
@[simp] theorem afterRead_map : (s.afterRead n).map = s.map := by
  unfold State.afterRead; split <;> rfl
@[simp] theorem afterRead_program : (s.afterRead n).program = s.program := by
  unfold State.afterRead; split <;> rfl
@[simp] theorem afterRead_xlat : (s.afterRead n).xlat = s.xlat := by
  unfold State.afterRead; split <;> rfl
@[simp] theorem afterRead_oracle : (s.afterRead n).oracle = s.oracle := by
  unfold State.afterRead; split <;> rfl

@[simp] theorem getV_afterRead : (s.afterRead n).getV i = s.getV i := by
  simp [State.getV]

@[simp] theorem getK_afterRead (a : BitVec 3) : (s.afterRead n).getK a = s.getK a := by
  simp [State.getK]

@[simp] theorem nextIp_afterRead (m : Nat) : (s.afterRead n).nextIp m = s.nextIp m := by
  simp [State.nextIp]

theorem afterRead_quiet (h : s.oracle = .quietMemory) : s.afterRead n = s := by
  simp [State.afterRead, h]

theorem afterRead_anyWriter (h : s.oracle = .anyWriter) : (s.afterRead n).fresh = s.fresh + n := by
  simp [State.afterRead, h]

/-! ## `VReg.fit` -/

@[simp] theorem fit_fit (m : MaxVL) : (x.fit m).fit m = x.fit m := by
  cases m <;> rfl

@[simp] theorem fit_zero (m : MaxVL) : VReg.zero.fit m = VReg.zero := by
  cases m <;> rfl

@[simp] theorem fit_l0 (m : MaxVL) : (x.fit m).l0 = x.l0 := by
  cases m <;> rfl

/-- A value of a form's vector length fits where the form executes. -/
theorem fit_low (m : MaxVL) (k : Nat) (h : k ≤ m.lanes) : (VReg.low k x).fit m = VReg.low k x := by
  cases m <;> simp [VReg.fit, VReg.low, VReg.zero, MaxVL.lanes] at * <;> omega

end Sys2Proof.Machine
end

