-- ==== Sys2Proof/Laws/Ops.lean ====
section
/-! SUPPORT. For each shared operation, once, everything it can do when it answers a next state, and when it must. -/

namespace Sys2Proof.Machine

/-! ## Outcomes -/

theorem andThen_eq_next {α β : Type} {o : Host.Outcome α Fault Refusal}
    {f : α → Host.Outcome β Fault Refusal} {b : β} :
    andThen o f = .next b ↔ ∃ a, o = .next a ∧ f a = .next b := by
  cases o <;> simp [andThen]

@[simp] theorem andThen_next {α β : Type} (a : α) (f : α → Host.Outcome β Fault Refusal) :
    andThen (.next a) f = f a := rfl

@[simp] theorem andThen_fault {α β : Type} (e : Fault) (f : α → Host.Outcome β Fault Refusal) :
    andThen (.fault e) f = .fault e := rfl

@[simp] theorem andThen_refused {α β : Type} (r : Refusal) (f : α → Host.Outcome β Fault Refusal) :
    andThen (.refused r) f = .refused r := rfl

theorem raise_ne_next {α : Type} (e : Fault) (a : α) : raise e ≠ .next a := by
  simp [raise]

/-! ## Enabling -/

theorem guarded_eq_next {f : Form} {ud : Bool} {rf : Option Refusal} {s t : State}
    {go : Host.Outcome State Fault Refusal} :
    guarded f ud rf s go = .next t ↔
      ud = false ∧ s.notEnabled f = false ∧ rf = none ∧ s.ts = false ∧ go = .next t := by
  unfold guarded
  cases ud <;> cases h : s.notEnabled f <;> cases rf <;> cases h2 : s.ts <;> simp [raise]

theorem ymmEnabled_iff (s : State) :
    s.ymmEnabled = true ↔ s.xcr0.getLsbD 1 = true ∧ s.xcr0.getLsbD 2 = true := by
  simp only [State.ymmEnabled, decide_eq_true_eq]
  constructor
  · intro h
    have h0 := congrArg (fun v => v.getLsbD 0) h
    have h1 := congrArg (fun v => v.getLsbD 1) h
    simpa [BitVec.getLsbD_extractLsb'] using And.intro h0 h1
  · rintro ⟨h1, h2⟩
    apply BitVec.eq_of_getLsbD_eq
    intro i hi
    match i, hi with
    | 0, _ => simpa [BitVec.getLsbD_extractLsb'] using h1
    | 1, _ => simpa [BitVec.getLsbD_extractLsb'] using h2

theorem zmmEnabled_iff (s : State) :
    s.zmmEnabled = true ↔
      s.xcr0.getLsbD 5 = true ∧ s.xcr0.getLsbD 6 = true ∧ s.xcr0.getLsbD 7 = true := by
  simp only [State.zmmEnabled, decide_eq_true_eq]
  constructor
  · intro h
    have h0 := congrArg (fun v => v.getLsbD 0) h
    have h1 := congrArg (fun v => v.getLsbD 1) h
    have h2 := congrArg (fun v => v.getLsbD 2) h
    simp only [BitVec.getLsbD_extractLsb'] at h0 h1 h2
    exact ⟨by simpa using h0, by simpa using h1, by simpa using h2⟩
  · rintro ⟨h0, h1, h2⟩
    apply BitVec.eq_of_getLsbD_eq
    intro i hi
    match i, hi with
    | 0, _ => simpa [BitVec.getLsbD_extractLsb'] using h0
    | 1, _ => simpa [BitVec.getLsbD_extractLsb'] using h1
    | 2, _ => simpa [BitVec.getLsbD_extractLsb'] using h2

/-- The enabling checks pass exactly where `Powered` says. -/
theorem notEnabled_eq_false_iff (f : Form) (s : State) : s.notEnabled f = false ↔ Powered f s := by
  have hy := ymmEnabled_iff s
  have hz := zmmEnabled_iff s
  cases f <;> cases hm : s.mode <;> cases hy' : s.ymmEnabled <;> cases hz' : s.zmmEnabled <;>
    simp_all [State.notEnabled, Powered, State.em, State.osfxsr, State.osxsave, and_assoc]

/-! ## Memory operands -/

theorem pickFault_eq_none_iff (n : Nat) (es : List Fault) : pickFault n es = none ↔ es = [] := by
  cases es <;> simp [pickFault]

/-- The fault reported is one of those that apply. -/
theorem pickFault_mem {n : Nat} {es : List Fault} {e : Fault} (h : pickFault n es = some e) : e ∈ es := by
  cases es with
  | nil => simp [pickFault] at h
  | cons a es =>
    simp only [pickFault, Option.some.injEq] at h
    subst h
    split
    · exact List.mem_cons_self
    · have : Config.faultPick n % (es.length + 1) < (a :: es).length := by
        simpa using Nat.mod_lt _ (Nat.succ_pos _)
      rw [List.getD_eq_getElem _ _ this]
      exact List.getElem_mem this

/-- A single kind of fault leaves no choice. -/
theorem pickFault_of_all {n : Nat} {es : List Fault} {e : Fault} (hne : es ≠ []) (h : ∀ e' ∈ es, e' = e) :
    pickFault n es = some e := by
  cases es with
  | nil => exact absurd rfl hne
  | cons a es =>
    have ha : a = e := h a List.mem_cons_self
    subst ha
    have : (es.all fun e' => decide (e' = a)) = true := by
      simp only [List.all_eq_true, decide_eq_true_eq]
      exact fun x hx => h x (List.mem_cons_of_mem _ hx)
    simp [pickFault, this]

theorem addressFaults_eq_nil_iff (s : State) (q : Place) (n : Nat) :
    s.addressFaults q n = [] ↔ AddressOk s q n := by
  cases hm : s.mode <;> simp [State.addressFaults, AddressOk, State.byteAddr, hm]

theorem alignmentFaults_eq_nil_iff (f : Form) (q : Place) :
    alignmentFaults f q = [] ↔ (f = .sse → q.lin.toNat % 16 = 0) := by
  cases f <;> simp [alignmentFaults]

theorem touched_eq_nil_iff (s : State) (e : TransRange) (lin : Word64) (n : Nat) :
    s.touched e lin n = [] ↔
      ∀ i < n, ¬(e.base ≤ s.byteAddr lin i ∧ s.byteAddr lin i < e.base + e.size) := by
  simp [State.touched, List.filter_eq_nil_iff]

theorem transFaults_of_untouched {s : State} {q : Place} {n : Nat} (h : Untouched s q n) :
    s.xlat.filterMap (s.transFault q n) = [] := by
  rw [List.filterMap_eq_nil_iff]
  intro e he
  have := (touched_eq_nil_iff s e q.lin n).2 (h e he)
  simp [State.transFault, this]

theorem memFaults_of_readable {f : Form} {s : State} {q : Place} (h : Readable f s q) :
    s.memFaults f q = [] := by
  obtain ⟨h1, h2, h3, -, -⟩ := h
  simp [State.memFaults, (addressFaults_eq_nil_iff s q _).2 h1, (alignmentFaults_eq_nil_iff f q).2 h2,
    transFaults_of_untouched h3]

theorem allOrdinary_iff (s : State) (f : Form) (q : Place) :
    s.allOrdinary f q.lin = true ↔ InOrdinaryMemory s q f.bytes := by
  simp [State.allOrdinary, InOrdinaryMemory]

theorem alignmentChecking_iff (s : State) : s.alignmentChecking = true ↔ AlignmentChecked s := by
  simp [State.alignmentChecking, AlignmentChecked, and_assoc]

/-- Where a memory operand is readable, the read answers its value. -/
theorem readMem_of_readable {f : Form} {s : State} {q : Place} (h : Readable f s q) :
    s.readMem f q = .next (s.memValue f q.lin, s.afterRead f.bytes) := by
  have ha : s.alignmentDoubt f q.lin = false := by
    have := mt (alignmentChecking_iff s).1 h.2.2.2.1
    simp [State.alignmentDoubt, this]
  simp [State.readMem, memFaults_of_readable h, pickFault, ha, (allOrdinary_iff s f q).2 h.2.2.2.2]

/-- Everything a read that answers can have done. -/
theorem readMem_eq_next {f : Form} {s : State} {q : Place} {r : VReg × State}
    (h : s.readMem f q = .next r) :
    s.memFaults f q = [] ∧ s.allOrdinary f q.lin = true ∧
      r = (s.memValue f q.lin, s.afterRead f.bytes) := by
  unfold State.readMem at h
  split at h
  · simp [raise] at h
  · rename_i hp
    split at h
    · simp at h
    · split at h
      · rename_i ho
        exact ⟨(pickFault_eq_none_iff _ _).1 hp, ho, by simpa using h.symm⟩
      · simp at h

/-- The value of operand 2 where it can be read. -/
def sourceValue (s : State) (f : Form) (p : Prefixes) (len : Nat) : Operand → VReg
  | .reg r => VReg.low f.lanes (s.getV r)
  | .mem a => s.memValue f (s.place f p len a).lin

/-- The state after operand 2 is read. -/
def afterSource (s : State) (f : Form) : Operand → State
  | .reg _ => s
  | .mem _ => s.afterRead f.bytes

theorem readSource_of_ready {f : Form} {s : State} {p : Prefixes} {len : Nat} {src : Operand}
    (h : SourceReady f s p len src) :
    s.readSource f p len src = .next (sourceValue s f p len src, afterSource s f src) := by
  cases src with
  | reg r => rfl
  | mem a => exact readMem_of_readable h

theorem readSource_eq_next {f : Form} {s : State} {p : Prefixes} {len : Nat} {src : Operand}
    {r : VReg × State} (h : s.readSource f p len src = .next r) :
    r = (sourceValue s f p len src, afterSource s f src) := by
  cases src with
  | reg _ => simpa [State.readSource, sourceValue, afterSource] using h.symm
  | mem _ => exact (readMem_eq_next h).2.2

/-! ## The shared meanings -/

theorem runSse_eq_next {p : Prefixes} {len : Nat} {d : VNum} {src : Operand} {imm : BitVec 8} {s t : State}
    (h : runSse p len d src imm s = .next t) :
    Enabled .sse s ∧
      t = (afterSource s .sse src).complete d
        ((s.getV d).keepUpper (shufHi (sourceValue s .sse p len src) imm)) len := by
  obtain ⟨-, hn, -, hts, hgo⟩ := guarded_eq_next.1 h
  obtain ⟨r, hr, ht⟩ := andThen_eq_next.1 hgo
  rw [readSource_eq_next hr] at ht
  exact ⟨⟨(notEnabled_eq_false_iff _ _).1 hn, hts⟩, by simpa using ht.symm⟩

theorem runSse_of_ready {p : Prefixes} {len : Nat} {d : VNum} {src : Operand} {imm : BitVec 8} {s : State}
    (he : Enabled .sse s) (hr : SourceReady .sse s p len src) :
    runSse p len d src imm s =
      .next ((afterSource s .sse src).complete d
        ((s.getV d).keepUpper (shufHi (sourceValue s .sse p len src) imm)) len) :=
  guarded_eq_next.2 ⟨rfl, (notEnabled_eq_false_iff _ _).2 he.1, rfl, he.2,
    by rw [readSource_of_ready hr, andThen_next]⟩

theorem runVex_eq_next {f : Form} {p : Prefixes} {vvvv : BitVec 4} {len : Nat} {d : VNum} {src : Operand}
    {imm : BitVec 8} {s t : State} (h : runVex f p vvvv len d src imm s = .next t) :
    vvvv = 15 ∧ Enabled f s ∧
      t = (afterSource s f src).complete d
        (VReg.low f.lanes (shufHi (sourceValue s f p len src) imm)) len := by
  obtain ⟨hv, hn, -, hts, hgo⟩ := guarded_eq_next.1 h
  obtain ⟨r, hr, ht⟩ := andThen_eq_next.1 hgo
  rw [readSource_eq_next hr] at ht
  exact ⟨by simpa using hv, ⟨(notEnabled_eq_false_iff _ _).1 hn, hts⟩, by simpa using ht.symm⟩

theorem runVex_of_ready {f : Form} {p : Prefixes} {len : Nat} {d : VNum} {src : Operand}
    {imm : BitVec 8} {s : State} (he : Enabled f s) (hr : SourceReady f s p len src) :
    runVex f p 15 len d src imm s =
      .next ((afterSource s f src).complete d
        (VReg.low f.lanes (shufHi (sourceValue s f p len src) imm)) len) :=
  guarded_eq_next.2 ⟨by simp, (notEnabled_eq_false_iff _ _).2 he.1, rfl, he.2,
    by rw [readSource_of_ready hr, andThen_next]⟩

theorem runEvex_eq_next {f : Form} {p : Prefixes} {e : EvexCtl} {len : Nat} {d : VNum} {src : Operand}
    {imm : BitVec 8} {s t : State} (h : runEvex f p e len d src imm s = .next t) :
    e.undefined src = false ∧ e.refusal src = none ∧ Enabled f s ∧
      t = (afterSource s f src).complete d
        (VReg.low f.lanes
          (maskMerge (shufHi (sourceValue s f p len src) imm) (s.getV d) (s.getK e.aaa)
            (decide (e.aaa = 0)) e.z)) len := by
  obtain ⟨hv, hn, hrf, hts, hgo⟩ := guarded_eq_next.1 h
  obtain ⟨r, hr, ht⟩ := andThen_eq_next.1 hgo
  rw [readSource_eq_next hr] at ht
  exact ⟨hv, hrf, ⟨(notEnabled_eq_false_iff _ _).1 hn, hts⟩, by simpa using ht.symm⟩

theorem runEvex_of_ready {f : Form} {p : Prefixes} {e : EvexCtl} {len : Nat} {d : VNum} {src : Operand}
    {imm : BitVec 8} {s : State} (hu : e.undefined src = false) (hf : e.refusal src = none)
    (he : Enabled f s) (hr : SourceReady f s p len src) :
    runEvex f p e len d src imm s =
      .next ((afterSource s f src).complete d
        (VReg.low f.lanes
          (maskMerge (shufHi (sourceValue s f p len src) imm) (s.getV d) (s.getK e.aaa)
            (decide (e.aaa = 0)) e.z)) len) :=
  guarded_eq_next.2 ⟨hu, (notEnabled_eq_false_iff _ _).2 he.1, hf, he.2,
    by rw [readSource_of_ready hr, andThen_next]⟩

end Sys2Proof.Machine
end

