-- ==== Sys2Proof/Laws/Exec.lean ====
section
/-! SUPPORT. The nine meanings in one shape: checks, one read of the source, one write of the destination. What a meaning
can answer, when it answers, and how a change it does not look at passes through it. -/

namespace Sys2Proof.Machine

/-- The #UD conditions in an instruction's own fields. -/
def udFields : Instr → Bool
  | .sse _ _ _ _ | .sseRex _ _ _ _ => false
  | .vex128C5 _ v _ _ _ | .vex128C4 _ v _ _ _ | .vex256C5 _ v _ _ _ | .vex256C4 _ v _ _ _ => decide (v ≠ 15)
  | .evex128 _ e _ src _ | .evex256 _ e _ src _ | .evex512 _ e _ src _ => e.undefined src

/-- The refusal an instruction's own fields earn. -/
def refusedFields : Instr → Option Refusal
  | .sse _ _ _ _ | .sseRex _ _ _ _ => none
  | .vex128C5 _ _ _ _ _ | .vex128C4 _ _ _ _ _ | .vex256C5 _ _ _ _ _ | .vex256C4 _ _ _ _ _ => none
  | .evex128 _ e _ src _ | .evex256 _ e _ src _ | .evex512 _ e _ src _ => e.refusal src

/-- What an instruction writes to its destination in the state `s`, when its source operand's value is `x`. -/
def result (i : Instr) (s : State) (x : VReg) : VReg :=
  match i with
  | .sse _ d _ imm | .sseRex _ d _ imm => (s.getV d).keepUpper (shufHi x imm)
  | .vex128C5 _ _ _ _ imm | .vex128C4 _ _ _ _ imm | .vex256C5 _ _ _ _ imm | .vex256C4 _ _ _ _ imm =>
    VReg.low i.form.lanes (shufHi x imm)
  | .evex128 _ e d _ imm | .evex256 _ e d _ imm | .evex512 _ e d _ imm =>
    VReg.low i.form.lanes (maskMerge (shufHi x imm) (s.getV d) (s.getK e.aaa) (decide (e.aaa = 0)) e.z)

/-- The one shape of the nine meanings. -/
theorem exec_eq (i : Instr) (s : State) :
    exec i s = guarded i.form (udFields i) (refusedFields i) s
      (andThen (s.readSource i.form i.prefixes i.length i.source) fun (x, s') =>
        .next (s'.complete i.dest (result i s x) i.length)) := by
  cases i <;> rfl

theorem evexFields_ok {e : EvexCtl} {src : Operand} :
    e.undefined src = false ∧ e.refusal src = none ↔
      e.vvvv = 15 ∧ e.vp = true ∧ e.b = false ∧ (e.z = true → e.aaa ≠ 0) := by
  constructor
  · rintro ⟨h1, h2⟩
    cases src <;> simp only [EvexCtl.undefined, EvexCtl.refusal] at h1 h2 <;> cases hb : e.b <;> simp_all
  · rintro ⟨h1, h2, h3, h4⟩
    cases src <;> cases hz : e.z <;> simp_all [EvexCtl.undefined, EvexCtl.refusal]

/-- `FieldsOk` is that the fields earn neither #UD nor a refusal. -/
theorem fieldsOk_iff (i : Instr) : FieldsOk i ↔ udFields i = false ∧ refusedFields i = none := by
  cases i with
  | sse | sseRex => exact ⟨fun _ => ⟨rfl, rfl⟩, fun _ => trivial⟩
  | vex128C5 | vex128C4 | vex256C5 | vex256C4 =>
    simp [FieldsOk, udFields, refusedFields]
  | evex128 | evex256 | evex512 => exact evexFields_ok.symm

/-- Everything a meaning that answers a next state can have done. -/
theorem exec_eq_next {i : Instr} {s t : State} (h : exec i s = .next t) :
    FieldsOk i ∧ Enabled i.form s ∧
      t = (afterSource s i.form i.source).complete i.dest
        (result i s (sourceValue s i.form i.prefixes i.length i.source)) i.length := by
  rw [exec_eq, guarded_eq_next] at h
  obtain ⟨h1, h2, h3, h4, h5⟩ := h
  obtain ⟨r, hr, ht⟩ := andThen_eq_next.1 h5
  rw [readSource_eq_next hr] at ht
  exact ⟨(fieldsOk_iff i).2 ⟨h1, h3⟩, ⟨(notEnabled_eq_false_iff _ _).1 h2, h4⟩, by simpa using ht.symm⟩

/-- When a meaning must answer a next state. -/
theorem exec_of_ready {i : Instr} {s : State} (hf : FieldsOk i) (he : Enabled i.form s)
    (hr : SourceReady i.form s i.prefixes i.length i.source) :
    exec i s = .next ((afterSource s i.form i.source).complete i.dest
      (result i s (sourceValue s i.form i.prefixes i.length i.source)) i.length) := by
  obtain ⟨h1, h2⟩ := (fieldsOk_iff i).1 hf
  rw [exec_eq, guarded_eq_next]
  exact ⟨h1, (notEnabled_eq_false_iff _ _).2 he.1, h2, he.2, by rw [readSource_of_ready hr]; rfl⟩

/-- When a meaning that is enabled must raise a fault on its memory operand. -/
theorem exec_of_pickFault {i : Instr} {s : State} {a : Addr} {x : Fault} (hf : FieldsOk i)
    (he : Enabled i.form s) (hs : i.source = .mem a)
    (h : pickFault s.fresh (s.memFaults i.form (s.place i.form i.prefixes i.length a)) = some x) :
    exec i s = .fault x := by
  obtain ⟨h1, h2⟩ := (fieldsOk_iff i).1 hf
  have hts : s.ts = false := he.2
  rw [exec_eq, h1, h2, hs]
  unfold guarded
  rw [(notEnabled_eq_false_iff _ _).2 he.1, hts]
  simp [State.readSource, State.readMem, h, raise, andThen]

/-- When a meaning must raise #UD whatever its fields. -/
theorem exec_of_notEnabled {i : Instr} {s : State} (h : s.notEnabled i.form = true) : exec i s = .fault .ud := by
  rw [exec_eq]
  unfold guarded
  rw [if_pos (by simp [h])]
  rfl

@[simp] theorem afterSource_v (s : State) (f : Form) (src : Operand) : (afterSource s f src).v = s.v := by
  cases src <;> simp [afterSource]

@[simp] theorem getV_afterSource (s : State) (f : Form) (src : Operand) (r : VNum) :
    (afterSource s f src).getV r = s.getV r := by
  simp [State.getV]

@[simp] theorem afterSource_cpu (s : State) (f : Form) (src : Operand) :
    (afterSource s f src).cpu = s.cpu := by
  cases src <;> simp [afterSource]

@[simp] theorem afterSource_mode (s : State) (f : Form) (src : Operand) :
    (afterSource s f src).mode = s.mode := by
  cases src <;> simp [afterSource]

@[simp] theorem afterSource_mem (s : State) (f : Form) (src : Operand) :
    (afterSource s f src).mem = s.mem := by
  cases src <;> simp [afterSource]

@[simp] theorem nextIp_afterSource (s : State) (f : Form) (src : Operand) (n : Nat) :
    (afterSource s f src).nextIp n = s.nextIp n := by
  cases src <;> simp [afterSource]

theorem afterSource_quiet {s : State} (f : Form) (src : Operand) (h : s.oracle = .quietMemory) :
    afterSource s f src = s := by
  cases src <;> simp [afterSource, afterRead_quiet _ _ h]

/-! ## Changes a meaning does not look at -/

theorem mapNext_guarded (f : Form) (ud : Bool) (rf : Option Refusal) (s : State) (g : State → State)
    (go : Host.Outcome State Fault Refusal) :
    mapNext g (guarded f ud rf s go) = guarded f ud rf s (mapNext g go) := by
  unfold guarded
  split
  · rfl
  · split
    · rfl
    · split <;> rfl

/-- A change of the state that neither the checks nor the read see, and that the write commutes with, passes through. -/
theorem exec_mapNext (g : State → State) (i : Instr) (s : State)
    (hg : ∀ go, guarded i.form (udFields i) (refusedFields i) (g s) go =
      guarded i.form (udFields i) (refusedFields i) s go)
    (hr : (g s).readSource i.form i.prefixes i.length i.source =
      andThen (s.readSource i.form i.prefixes i.length i.source) fun (x, s') => .next (x, g s'))
    (hc : ∀ x, (g (afterSource s i.form i.source)).complete i.dest (result i (g s) x) i.length =
      g ((afterSource s i.form i.source).complete i.dest (result i s x) i.length)) :
    exec i (g s) = mapNext g (exec i s) := by
  rw [exec_eq, exec_eq, hg, mapNext_guarded, hr]
  congr 1
  cases h : s.readSource i.form i.prefixes i.length i.source with
  | next a =>
    have := readSource_eq_next h
    subst this
    simp only [andThen_next, mapNext, hc]
  | fault e => rfl
  | refused r => rfl

/-- A change that leaves alone everything the read looks at passes through the read. -/
theorem readSource_map (g : State → State) (s : State) (f : Form) (p : Prefixes) (len : Nat) (src : Operand)
    (hv : ∀ r, (g s).getV r = s.getV r) (hp : ∀ a, (g s).place f p len a = s.place f p len a)
    (hm : ∀ q, (g s).memFaults f q = s.memFaults f q) (hn : (g s).fresh = s.fresh)
    (ha : ∀ l, (g s).alignmentDoubt f l = s.alignmentDoubt f l)
    (ho : ∀ l, (g s).allOrdinary f l = s.allOrdinary f l) (hx : ∀ l, (g s).memValue f l = s.memValue f l)
    (hr : (g s).afterRead f.bytes = g (s.afterRead f.bytes)) :
    (g s).readSource f p len src = andThen (s.readSource f p len src) fun (x, s') => .next (x, g s') := by
  cases src with
  | reg r => simp [State.readSource, hv]
  | mem a =>
    simp only [State.readSource, State.readMem, hp, hm, hn, ha, ho, hx, hr]
    split
    · rfl
    · split
      · rfl
      · split <;> rfl

end Sys2Proof.Machine
end

