-- ==== Sys2Proof/Laws/Fetch.lean ====
section
/-! SUPPORT. Where code lies and how it is fetched, in the terms of Safety.lean: one lemma for each check and address
that fetching, the launch check and `step` share. -/

namespace Sys2Proof.Machine

theorem nextIp_toNat (s : State) (len : Nat) : (s.nextIp len).toNat = s.ipAfter len := by
  cases hm : s.mode <;> simp [State.nextIp, State.ipAfter, hm, truncAddr] <;> omega

@[simp] theorem codeAddr_eq (s : State) (k : Nat) : s.codeAddr k = s.codeByte k := rfl

theorem programByte_iff (s : State) (a : Nat) : s.programByte a = true ↔ InProgram s a := by
  simp [State.programByte, InProgram, Region.holds, Option.any_eq_true]

theorem fetchable_iff (s : State) (a : Nat) : s.fetchable a = true ↔ InProgram s a := programByte_iff s a

theorem debugOn_iff (s : State) : s.debugOn = true ↔ s.rflags.getLsbD 8 = true ∨ s.breakpointsArmed = true := by
  simp [State.debugOn]

theorem nearTop_eq_false_iff (top a : Nat) : nearTop top a = false ↔ ¬(a < top ∧ top ≤ a + 15) := by
  rw [← Bool.not_eq_true, nearTop, Bool.and_eq_true, decide_eq_true_eq, decide_eq_true_eq, maxLength]

/-- ip and the program keep clear of the top: no boundary lies within 15 bytes. -/
theorem codeWraps_eq_false_iff (s : State) : s.codeWraps = false ↔ ClearOfTop s := by
  cases hp : s.program <;> cases hm : s.mode <;> cases hw : s.cpu.laWidth <;>
    simp only [State.codeWraps, State.ipWraps, State.regionWraps, ClearOfTop, hp, hm, hw,
      nearTop_eq_false_iff, Bool.or_eq_false_iff, Option.any_none, Option.any_some, Bool.and_eq_false_iff,
      decide_eq_false_iff_not, List.forall_mem_cons, List.not_mem_nil, Option.some.injEq, reduceCtorEq, forall_eq',
      false_imp_iff, implies_true, and_true] <;>
    simp only [canonicalHalf, maxLength, State.codeOffset] <;> omega

/-- Fetching takes the program bytes up to the first address outside the program. -/
theorem fetchFrom_eq (s : State) (i n m : Nat) (hn : n ≤ m) (hin : ∀ k < n, InProgram s (s.codeByte (i + k)))
    (hout : n = m ∨ ¬InProgram s (s.codeByte (i + n))) :
    s.fetchFrom i m = (List.range n).map fun k => memRead s.mem (s.codeByte (i + k)) := by
  induction n generalizing i m with
  | zero =>
    cases m with
    | zero => rfl
    | succ m =>
      have := hout.resolve_left (by omega)
      rw [← fetchable_iff] at this
      rw [State.fetchFrom, codeAddr_eq, if_neg (by simpa using this)]
      rfl
  | succ n ih =>
    obtain ⟨m, rfl⟩ : ∃ m', m = m' + 1 := ⟨m - 1, by omega⟩
    have h0 := (fetchable_iff s _).2 (hin 0 (by omega))
    rw [State.fetchFrom, codeAddr_eq, if_pos (by simpa using h0), List.range_succ_eq_map, List.map_cons, List.map_map,
      ih (i + 1) m (by omega) (fun k hk => by simpa [Nat.add_assoc, Nat.add_comm 1] using hin (k + 1) (by omega))
        (by simpa [Nat.add_assoc, Nat.add_comm 1] using hout)]
    simp [Function.comp_def, Nat.add_assoc, Nat.add_comm 1]

end Sys2Proof.Machine
end

