-- ==== Sys2Proof/Laws/Memory.lean ====
section
/-! SUPPORT. Memory: a write is read back, leaves every other address alone, and keeps the canonical form. -/

namespace Sys2Proof.Machine

@[simp] theorem memRead_nil (a : Nat) : memRead [] a = 0 := rfl

@[simp] theorem memRead_cons_self (m : List Host.Cell) (a : Nat) (b : Byte) : memRead ((a, b) :: m) a = b :=
  if_pos rfl

theorem memRead_cons_ne (m : List Host.Cell) (b : Byte) {k a : Nat} (h : a ≠ k) :
    memRead ((k, b) :: m) a = memRead m a := if_neg fun e => h e.symm

theorem memRead_of_lt {lo : Nat} {m : List Host.Cell} (h : memSorted lo m = true) {a : Nat} (ha : a < lo) :
    memRead m a = 0 := by
  induction m generalizing lo with
  | nil => rfl
  | cons c m ih =>
    obtain ⟨k, b⟩ := c
    simp only [memSorted, Bool.and_eq_true, decide_eq_true_eq] at h
    obtain ⟨⟨⟨hk, _⟩, _⟩, hm⟩ := h
    rw [memRead, if_neg (by omega), ih hm (by omega)]

theorem memSorted_mono {lo lo' : Nat} {m : List Host.Cell} (hle : lo' ≤ lo) (h : memSorted lo m = true) :
    memSorted lo' m = true := by
  cases m with
  | nil => rfl
  | cons c m =>
    simp only [memSorted, Bool.and_eq_true, decide_eq_true_eq] at h ⊢
    exact ⟨⟨⟨by omega, h.1.1.2⟩, h.1.2⟩, h.2⟩

theorem memInsert_sorted {lo : Nat} {m : List Host.Cell} (h : memSorted lo m = true) {a : Nat} {b : Byte}
    (hlo : lo ≤ a) (ha : a < 2 ^ 64) : memSorted lo (memInsert m a b) = true := by
  induction m generalizing lo with
  | nil =>
    unfold memInsert
    split
    · rfl
    · rename_i hb
      simp only [memSorted, Bool.and_eq_true, decide_eq_true_eq]
      exact ⟨⟨⟨hlo, ha⟩, hb⟩, trivial⟩
  | cons c m ih =>
    obtain ⟨k, c⟩ := c
    have h' := h
    simp only [memSorted, Bool.and_eq_true, decide_eq_true_eq] at h'
    obtain ⟨⟨⟨hk, hk2⟩, hc⟩, hm⟩ := h'
    unfold memInsert
    split
    · split
      · exact h
      · rename_i hlt hb
        simp only [memSorted, Bool.and_eq_true, decide_eq_true_eq]
        exact ⟨⟨⟨hlo, ha⟩, hb⟩, ⟨⟨by omega, hk2⟩, hc⟩, hm⟩
    · split
      · rename_i hlt he
        subst he
        split
        · exact memSorted_mono (by omega) hm
        · rename_i hb
          simp only [memSorted, Bool.and_eq_true, decide_eq_true_eq]
          exact ⟨⟨⟨hlo, ha⟩, hb⟩, hm⟩
      · simp only [memSorted, Bool.and_eq_true, decide_eq_true_eq]
        exact ⟨⟨⟨hk, hk2⟩, hc⟩, ih hm (by omega)⟩

theorem memRead_memInsert {lo : Nat} {m : List Host.Cell} (h : memSorted lo m = true) (a : Nat) (b : Byte)
    (x : Nat) : memRead (memInsert m a b) x = if x = a then b else memRead m x := by
  induction m generalizing lo with
  | nil =>
    unfold memInsert
    split
    · rename_i hb
      simp [hb]
    · by_cases hx : x = a
      · simp [hx]
      · rw [if_neg hx, memRead_cons_ne _ _ hx]
  | cons c m ih =>
    obtain ⟨k, c⟩ := c
    have h' := h
    simp only [memSorted, Bool.and_eq_true, decide_eq_true_eq] at h'
    obtain ⟨⟨⟨hk, hk2⟩, hc⟩, hm⟩ := h'
    unfold memInsert
    split
    · rename_i hlt
      split
      · rename_i hb
        by_cases hx : x = a
        · rw [if_pos hx, memRead_cons_ne _ _ (by omega), memRead_of_lt hm (by omega), hb]
        · rw [if_neg hx]
      · by_cases hx : x = a
        · simp [hx]
        · rw [if_neg hx, memRead_cons_ne _ _ hx]
    · split
      · rename_i hlt he
        subst he
        by_cases hx : x = a
        · subst hx
          split
          · rename_i hb
            simp [memRead_of_lt hm (Nat.lt_succ_self x), hb]
          · simp
        · rw [if_neg hx, memRead_cons_ne _ _ hx]
          split
          · rfl
          · rw [memRead_cons_ne _ _ hx]
      · rename_i h1 h2
        by_cases hx : x = k
        · subst hx
          rw [memRead_cons_self, if_neg (fun e => h2 e.symm), memRead_cons_self]
        · rw [memRead_cons_ne _ _ hx, ih hm, memRead_cons_ne _ _ hx]

/-- A write keeps the canonical form. -/
theorem memWrite_wf {m : List Host.Cell} (h : memWf m = true) (a : Nat) (b : Byte) :
    memWf (memWrite m a b) = true := by
  unfold memWrite
  split
  · exact memInsert_sorted h (Nat.zero_le _) ‹_›
  · exact h

/-- A write is read back, and leaves every other address alone. -/
theorem memRead_memWrite {m : List Host.Cell} (h : memWf m = true) {a : Nat} (ha : a < 2 ^ 64) (b : Byte)
    (x : Nat) : memRead (memWrite m a b) x = if x = a then b else memRead m x := by
  rw [memWrite, if_pos ha, memRead_memInsert h]

/-- Writing a list of bytes keeps the canonical form. -/
theorem memWriteList_wf {m : List Host.Cell} (h : memWf m = true) (a : Nat) (bs : List Byte) :
    memWf (memWriteList m a bs) = true := by
  induction bs generalizing m a with
  | nil => exact h
  | cons b bs ih => exact ih (memWrite_wf h a b) (a + 1)

/-- Written bytes are read back, and every other address is left alone. -/
theorem memRead_memWriteList {m : List Host.Cell} (h : memWf m = true) (a : Nat) (bs : List Byte)
    (ha : a + bs.length ≤ 2 ^ 64) (x : Nat) :
    memRead (memWriteList m a bs) x =
      if a ≤ x ∧ x < a + bs.length then bs.getD (x - a) 0 else memRead m x := by
  induction bs generalizing m a with
  | nil =>
    rw [memWriteList, if_neg (by simp)]
  | cons b bs ih =>
    simp only [List.length_cons] at ha ⊢
    rw [memWriteList, ih (memWrite_wf h a b) (a + 1) (by omega), memRead_memWrite h (by omega)]
    by_cases hx : x = a
    · subst hx
      simp
    · by_cases hin : a + 1 ≤ x ∧ x < a + 1 + bs.length
      · rw [if_pos hin, if_pos (by omega), show x - a = (x - (a + 1)) + 1 by omega]
        rfl
      · rw [if_neg hin, if_neg hx, if_neg (by omega)]

end Sys2Proof.Machine
end

