-- ==== Sys2Proof/Laws/PerInstr.lean ====
section
/-! SUPPORT. Laws stated for every instruction, one lemma for each constructor. -/

namespace Sys2Proof

theorem Prefixes.length_encode (p : Prefixes) : (encodePrefixes p).length = p.size := by
  rcases p with ⟨_ | r, _ | _⟩ <;> rfl

theorem Disp.length_bytes (d : Disp) : d.bytes.length = d.size := by
  cases d <;> rfl

theorem Operand.length_encode (reg : BitVec 3) (src : Operand) :
    (encodeOperand reg src).length = 1 + src.size := by
  cases src with
  | reg s => rfl
  | mem a =>
    cases a <;> simp [encodeOperand, Operand.size, Disp.length_bytes, bytes16, bytes32] <;> omega

theorem length_encodeBody (d : VNum) (src : Operand) (imm : BitVec 8) :
    (encodeBody d src imm).length = 3 + src.size := by
  simp [encodeBody, Operand.length_encode]
  omega

/-! ## The encoder writes as many bytes as the instruction's length says (30_encoding.md R82) -/

namespace Laws.EncodeLength

def Statement (i : Instr) : Prop := (encode i).length = i.length

theorem sse (p : Prefixes) (d : VNum) (src : Operand) (imm : BitVec 8) : Statement (.sse p d src imm) := by
  simp [Statement, encode, Prefixes.length_encode, length_encodeBody, Instr.length, Instr.prefixes,
    Instr.opcodeSize, Instr.source]
  omega

theorem sseRex (p : Prefixes) (d : VNum) (src : Operand) (imm : BitVec 8) : Statement (.sseRex p d src imm) := by
  simp [Statement, encode, Prefixes.length_encode, length_encodeBody, Instr.length, Instr.prefixes,
    Instr.opcodeSize, Instr.source]
  omega

theorem vex128C5 (p : Prefixes) (vvvv : BitVec 4) (d : VNum) (src : Operand) (imm : BitVec 8) :
    Statement (.vex128C5 p vvvv d src imm) := by
  simp [Statement, encode, Prefixes.length_encode, length_encodeBody, Instr.length, Instr.prefixes,
    Instr.opcodeSize, Instr.source]
  omega

theorem vex128C4 (p : Prefixes) (vvvv : BitVec 4) (d : VNum) (src : Operand) (imm : BitVec 8) :
    Statement (.vex128C4 p vvvv d src imm) := by
  simp [Statement, encode, Prefixes.length_encode, length_encodeBody, Instr.length, Instr.prefixes,
    Instr.opcodeSize, Instr.source]
  omega

theorem vex256C5 (p : Prefixes) (vvvv : BitVec 4) (d : VNum) (src : Operand) (imm : BitVec 8) :
    Statement (.vex256C5 p vvvv d src imm) := by
  simp [Statement, encode, Prefixes.length_encode, length_encodeBody, Instr.length, Instr.prefixes,
    Instr.opcodeSize, Instr.source]
  omega

theorem vex256C4 (p : Prefixes) (vvvv : BitVec 4) (d : VNum) (src : Operand) (imm : BitVec 8) :
    Statement (.vex256C4 p vvvv d src imm) := by
  simp [Statement, encode, Prefixes.length_encode, length_encodeBody, Instr.length, Instr.prefixes,
    Instr.opcodeSize, Instr.source]
  omega

theorem evex128 (p : Prefixes) (e : EvexCtl) (d : VNum) (src : Operand) (imm : BitVec 8) :
    Statement (.evex128 p e d src imm) := by
  simp [Statement, encode, encodeEvex, Prefixes.length_encode, length_encodeBody, Instr.length, Instr.prefixes,
    Instr.opcodeSize, Instr.source]
  omega

theorem evex256 (p : Prefixes) (e : EvexCtl) (d : VNum) (src : Operand) (imm : BitVec 8) :
    Statement (.evex256 p e d src imm) := by
  simp [Statement, encode, encodeEvex, Prefixes.length_encode, length_encodeBody, Instr.length, Instr.prefixes,
    Instr.opcodeSize, Instr.source]
  omega

theorem evex512 (p : Prefixes) (e : EvexCtl) (d : VNum) (src : Operand) (imm : BitVec 8) :
    Statement (.evex512 p e d src imm) := by
  simp [Statement, encode, encodeEvex, Prefixes.length_encode, length_encodeBody, Instr.length, Instr.prefixes,
    Instr.opcodeSize, Instr.source]
  omega

end Laws.EncodeLength

end Sys2Proof
end

