-- ==== Sys2Proof/Laws/Shuffle.lean ====
section
/-! SUPPORT. Words and lanes of vectors: how they meet, when they determine a vector, and what cutting to a vector
length, fitting to MAXVL, building from words and reading from memory do to them. -/

namespace Sys2Proof.Machine

theorem Form.lanes_le (f : Form) : f.lanes ≤ 4 := by cases f <;> decide

theorem VReg.word_eq (x : VReg) (j : Nat) : x.word j = Machine.word (x.lane (j / 8)) (j % 8) := rfl

theorem selector_lt (imm : BitVec 8) (i : Nat) : selector imm i < 4 := (imm.extractLsb' (2 * i) 2).isLt

/-- A lane is its eight words. -/
theorem lane_ext {a b : Lane} (h : ∀ i < 8, word a i = word b i) : a = b := by
  apply BitVec.eq_of_getLsbD_eq
  intro j hj
  have := congrArg (fun v => v.getLsbD (j % 16)) (h (j / 16) (by omega))
  simp only [word, BitVec.getLsbD_extractLsb', Nat.mod_lt j (by decide : 0 < 16), decide_true,
    Bool.true_and] at this
  rwa [show 16 * (j / 16) + j % 16 = j by omega] at this

/-- The words a lane was built from. -/
theorem word_ofWords (w : Nat → BitVec 16) {i : Nat} (hi : i < 8) :
    word (ofWords (w 7) (w 6) (w 5) (w 4) (w 3) (w 2) (w 1) (w 0)) i = w i := by
  apply BitVec.eq_of_getLsbD_eq
  intro j hj
  simp only [word, ofWords, BitVec.getLsbD_extractLsb', BitVec.getLsbD_append, hj, decide_true, Bool.true_and]
  match i, hi with
  | 0, _ | 1, _ | 2, _ | 3, _ | 4, _ | 5, _ | 6, _ | 7, _ =>
    simp (disch := omega) only [if_neg, if_pos]
    congr 1
    omega

theorem lane_low (x : VReg) (f : Form) {n : Nat} (h : n < f.lanes) : (VReg.low f.lanes x).lane n = x.lane n := by
  cases f <;> simp only [Form.lanes] at * <;>
    (match n, h with | 0, _ | 1, _ | 2, _ | 3, _ => first | rfl | (exfalso; omega))

theorem lane_low_of_le (x : VReg) (f : Form) {n : Nat} (h : f.lanes ≤ n) : (VReg.low f.lanes x).lane n = 0 := by
  match n with
  | 0 | 1 | 2 | 3 => cases f <;> simp only [Form.lanes] at * <;> first | rfl | (exfalso; omega)
  | n + 4 => rfl

/-- Below VL the words stay. -/
theorem word_low (x : VReg) (f : Form) {j : Nat} (h : j < 8 * f.lanes) :
    (VReg.low f.lanes x).word j = x.word j := by
  rw [VReg.word_eq, VReg.word_eq, lane_low _ _ (by omega)]

/-- At and above VL they are zero. -/
theorem word_low_of_le (x : VReg) (f : Form) {j : Nat} (h : 8 * f.lanes ≤ j) :
    (VReg.low f.lanes x).word j = 0 := by
  rw [VReg.word_eq, lane_low_of_le _ _ (by omega)]
  simp [word]

/-- The words below VL determine what is cut to VL. -/
theorem low_ext (f : Form) {x y : VReg} (h : ∀ j < 8 * f.lanes, x.word j = y.word j) :
    VReg.low f.lanes x = VReg.low f.lanes y := by
  have hl : ∀ n < f.lanes, x.lane n = y.lane n := by
    intro n hn
    apply lane_ext
    intro i hi
    have := h (8 * n + i) (by omega)
    rwa [VReg.word_eq, VReg.word_eq, show (8 * n + i) / 8 = n by omega,
      show (8 * n + i) % 8 = i by omega] at this
  cases f <;> simp only [Form.lanes] at * <;> simp only [VReg.low]
  all_goals first
    | (have h0 := hl 0 (by omega); have h1 := hl 1 (by omega); have h2 := hl 2 (by omega)
       have h3 := hl 3 (by omega); simp only [VReg.lane] at *; simp_all)
    | (have h0 := hl 0 (by omega); have h1 := hl 1 (by omega); simp only [VReg.lane] at *; simp_all)
    | (have h0 := hl 0 (by omega); simp only [VReg.lane] at *; simp_all)

/-- A vector register is its 32 words. -/
theorem reg_ext {x y : VReg} (h : ∀ j < 32, x.word j = y.word j) : x = y :=
  low_ext .evex512 h

/-- Fitting to MAXVL keeps the words that exist. -/
theorem word_fit (x : VReg) (m : MaxVL) {j : Nat} (h : j < 8 * m.lanes) : (x.fit m).word j = x.word j := by
  rw [VReg.word_eq, VReg.word_eq]
  obtain ⟨n, hn⟩ : ∃ n, n = j / 8 := ⟨_, rfl⟩
  rw [← hn]
  congr 1
  have hlt : n < m.lanes := by omega
  cases m <;> simp only [MaxVL.lanes] at * <;>
    (match n, hlt with | 0, _ | 1, _ | 2, _ | 3, _ => first | rfl | (exfalso; omega))

/-- A word of sixteen bytes read little-endian is made of its two bytes (20_memory.md R33). -/
theorem word_littleEndian (f : Nat → Byte) {i : Nat} (hi : i < 8) :
    word (littleEndian f) i = f (2 * i + 1) ++ f (2 * i) := by
  apply BitVec.eq_of_getLsbD_eq
  intro j hj
  simp only [word, littleEndian, BitVec.getLsbD_extractLsb', BitVec.getLsbD_append, hj, decide_true,
    Bool.true_and]
  match i, hi with
  | 0, _ | 1, _ | 2, _ | 3, _ | 4, _ | 5, _ | 6, _ | 7, _ =>
    simp only [Nat.reduceMul, Nat.reduceAdd]
    by_cases h8 : j < 8
    · simp (disch := omega) only [if_neg, if_pos]
      try (refine congrArg (BitVec.getLsbD _) ?_; omega)
    · simp (disch := omega) only [if_neg, if_pos]
      try (refine congrArg (BitVec.getLsbD _) ?_; omega)

/-- When no other agent writes, the source operand's words are those of `sourceWord`. -/
theorem word_sourceValue (s : State) (f : Form) (p : Prefixes) (len : Nat) (src : Operand)
    (hq : s.oracle = .quietMemory) {j : Nat} (hj : j < 8 * f.lanes) :
    (sourceValue s f p len src).word j = sourceWord f s p len src j := by
  cases src with
  | reg r => exact word_low _ _ hj
  | mem a =>
    simp only [sourceValue, State.memValue, sourceWord]
    rw [word_low _ _ hj, VReg.word_eq]
    have hl := Form.lanes_le f
    obtain ⟨n, hn⟩ : ∃ n, n = j / 8 := ⟨_, rfl⟩
    have h8 : j % 8 < 8 := by omega
    have hn4 : n < 4 := by omega
    rw [← hn]
    match n, hn4 with
    | 0, _ | 1, _ | 2, _ | 3, _ =>
      simp only [VReg.lane]
      rw [word_littleEndian _ h8]
      simp only [State.oracleByte, hq]
      congr 3 <;> omega

end Sys2Proof.Machine
end

