-- ==== Sys2Proof/Tests/Slice0.lean ====
section
/-! SUPPORT. Tests of the model, with expected results from spec/95_test_vectors.md (V..), the spec's worked examples,
and bytes written out by hand from 30_encoding.md; then, for every obligation with hypotheses, a concrete state and
operands that meet them. -/

namespace Sys2Proof.Tests

open Sys2Proof.Machine

/-! ## Small states -/

/-- The vectors' standing configuration with a program at 1000H. -/
def at1000 (bytes : List Byte) : State := { State.reset with ip := 0x1000 }.load bytes

/-- The same with no program placed. -/
def idle : State := { State.reset with ip := 0x1000 }.launched

/-- In protected mode with flat segments. -/
def flat (s : State) : State :=
  { s with
    mode := .mode32
    defAddr := .a32
    cs := ⟨0, 0xFFFFFFFF⟩
    ds := ⟨0, 0xFFFFFFFF⟩
    ss := ⟨0, 0xFFFFFFFF⟩ }

def State.withG (s : State) (i : Fin 16) (x : Word64) : State := { s with g := s.g.set i x }

def State.withK (s : State) (i : Fin 8) (x : Word64) : State := { s with k := s.k.set i x }

/-- Memory bytes from `a` on, the byte at address x being `x - k` (the vectors' convention). -/
def State.withBytes (s : State) (a n k : Nat) : State :=
  { s with mem := memWriteList s.mem a ((List.range n).map fun i => BitVec.ofNat 8 (a + i - k)) }

def plain : Prefixes := ⟨none, false⟩

/-- EVEX fields of an executing encoding. -/
def ctl (aaa : BitVec 3) (z : Bool) : EvexCtl := ⟨15, true, false, z, aaa⟩

abbrev Out := Host.Outcome State Fault Refusal

def outV (o : Out) (i : VNum) : Option VReg :=
  match o with
  | .next t => some (t.getV i)
  | .fault _ | .refused _ => none

def outIp (o : Out) : Option Word64 :=
  match o with
  | .next t => some t.ip
  | .fault _ | .refused _ => none

def outFault (o : Out) : Option Fault :=
  match o with
  | .fault e => some e
  | .next _ | .refused _ => none

def outRefusal (o : Out) : Option Refusal :=
  match o with
  | .refused r => some r
  | .next _ | .fault _ => none

/-! `S128`, `S256`, ones above it, and the words B000 + k and D000 + k (95_test_vectors.md section 1). -/

def s128 : Lane := 0x77776666555544443333222211110000
def u : VReg := ⟨s128, BitVec.allOnes 128, BitVec.allOnes 128, BitVec.allOnes 128⟩
def s256 : VReg := ⟨s128, 0xFFFFEEEEDDDDCCCCBBBBAAAA99998888, 0, 0⟩
def s512 : VReg :=
  ⟨0xB007B006B005B004B003B002B001B000, 0xB00FB00EB00DB00CB00BB00AB009B008,
    0xB017B016B015B014B013B012B011B010, 0xB01FB01EB01DB01CB01BB01AB019B018⟩
def d512 : VReg :=
  ⟨0xD007D006D005D004D003D002D001D000, 0xD00FD00ED00DD00CD00BD00AD009D008,
    0xD017D016D015D014D013D012D011D010, 0xD01FD01ED01DD01CD01BD01AD019D018⟩
def ones : VReg := ⟨BitVec.allOnes 128, BitVec.allOnes 128, BitVec.allOnes 128, BitVec.allOnes 128⟩

/-! ## Well-formedness: an ill-formed term for each check -/

def ctx32 : Ctx := { mode := .mode32, defAddr := .a32, vex := true, evex := true }
def ctx16 : Ctx := { ctx32 with defAddr := .a16 }
def ctxOld : Ctx := { ctx32 with mode := .real, defAddr := .a16 }

/-- A well-formed instruction of every constructor, operands at the end of their ranges. -/
def samples : List Instr :=
  [.sse ⟨some .gs, true⟩ 7 (.mem (.sib 7 7 3 (.d8 0xFF))) 0xFF,
    .sseRex plain 15 (.mem (.base 15 (.d32 0xFFFFFFFF))) 0,
    .vex128C5 plain 0 15 (.reg 7) 0x1B, .vex128C4 plain 15 15 (.mem (.sibNoBase 15 2 0x80000000)) 0x1B,
    .vex256C5 plain 15 15 (.mem (.disp32 0x7FFFFFFF)) 0x1B, .vex256C4 plain 15 15 (.reg 15) 0x1B,
    .evex128 plain (ctl 7 true) 31 (.reg 31) 0x1B, .evex256 plain (ctl 0 false) 31 (.mem (.base 13 (.d8 0))) 0x1B,
    .evex512 plain ⟨0, false, true, true, 7⟩ 31 (.mem (.sib 15 15 3 (.d8 0x80))) 0x1B]

theorem test_wf_accepts : ∀ i ∈ samples, i.wf tableCtx = true := by decide

/-- Register numbers past what the encoding reaches, and past eight outside 64-bit mode. -/
theorem test_wf_registers :
    (∀ i ∈ [Instr.sse plain 8 (.reg 0) 0, .sse plain 0 (.reg 8) 0, .sseRex plain 16 (.reg 0) 0,
      .vex128C5 plain 15 16 (.reg 0) 0, .vex128C5 plain 15 0 (.reg 8) 0, .vex256C4 plain 15 0 (.reg 16) 0],
      i.wf tableCtx = false) ∧
      (Instr.evex512 plain (ctl 0 false) 8 (.reg 0) 0).wf ctx32 = false ∧
      (Instr.vex128C4 plain 15 0 (.mem (.base 8 .none)) 0).wf ctx32 = false := by decide

/-- Addressing forms ModRM and SIB cannot spell at the address size. -/
theorem test_wf_addresses :
    (∀ a ∈ [Addr.base 4 .none, .base 5 .none, .base 0 (.d16 0), .base 8 .none, .sib 5 0 0 .none, .sib 0 8 0 .none,
      .sibNoBase 8 0 0, .idx16 0 .none, .disp16 0], (Instr.sse plain 0 (.mem a) 0).wf tableCtx = false) ∧
      (∀ a ∈ [Addr.idx16 6 .none, .idx16 0 (.d32 0), .base 0 .none, .sib 0 0 0 .none, .sibNoBase 0 0 0, .disp32 0],
        (Instr.sse plain 0 (.mem a) 0).wf ctx16 = false) := by decide

/-- Forms that have no encoding in the context. -/
theorem test_wf_contexts :
    (Instr.sseRex plain 0 (.reg 0) 0).wf ctx32 = false ∧ (Instr.vex128C5 plain 7 0 (.reg 0) 0).wf ctx32 = false ∧
      (Instr.vex256C4 plain 15 0 (.reg 0) 0).wf { ctx32 with vex := false } = false ∧
      (Instr.evex128 plain (ctl 0 false) 0 (.reg 0) 0).wf { ctx32 with evex := false } = false ∧
      (Instr.evex128 plain (ctl 0 false) 0 (.mem (.disp16 0)) 0).wf ctx16 = false := by decide

/-! ## Decoding: bytes written out from 30_encoding.md -/

/-- `F3 0F 70 11:001:000 1B` (R51). -/
theorem test_decode_sse :
    decode tableCtx [0b11110011, 0b00001111, 0b01110000, 0b11001000, 0x1B, 0x90] =
      .instr (.sse plain 1 (.reg 0) 0x1B) [0x90] := by decide

/-- `F3 0100:W0:R1:X0:B1 0F 70 11:001:001 01` (R53). -/
theorem test_decode_sseRex :
    decode tableCtx [0b11110011, 0b01000101, 0b00001111, 0b01110000, 0b11001001, 0x01] =
      .instr (.sseRex plain 9 (.reg 9) 0x01) [] := by decide

/-- `C5 R1:vvvv1111:L0:pp10 70 11:001:010 03` (R71). -/
theorem test_decode_vex128C5 :
    decode tableCtx [0b11000101, 0b11111010, 0b01110000, 0b11001010, 0x03] =
      .instr (.vex128C5 plain 15 1 (.reg 2) 0x03) [] := by decide

/-- `C4 R1:X1:B0:00001 W0:1111:L0:10 70 11:001:010 03`: B stored 0 is register 10 (R72). -/
theorem test_decode_vex128C4 :
    decode tableCtx [0b11000100, 0b11000001, 0b01111010, 0b01110000, 0b11001010, 0x03] =
      .instr (.vex128C4 plain 15 1 (.reg 10) 0x03) [] := by decide

/-- `C5 ..L1..` with mod = 00, rm = 101: RIP-relative, little-endian disp32 (R63, R71). -/
theorem test_decode_vex256C5 :
    decode tableCtx [0b11000101, 0b11111110, 0b01110000, 0b00101101, 0x17, 0x00, 0x00, 0x80, 0xB1] =
      .instr (.vex256C5 plain 15 5 (.mem (.disp32 0x80000017)) 0xB1) [] := by decide

/-- `C4 R0:X0:B1:00001 W1:1111:L1:10 70 01:100:100 SIB 10:001:011 disp8` (R64, R72). -/
theorem test_decode_vex256C4 :
    decode tableCtx [0b11000100, 0b00100001, 0b11111110, 0b01110000, 0b01100100, 0b10001011, 0x10, 0x1B] =
      .instr (.vex256C4 plain 15 12 (.mem (.sib 3 9 2 (.d8 0x10))) 0x1B) [] := by decide

/-- `62 1111:0001 0:1111:1:10 0:00:0:1:010 70 11:001:010 1B` (R74). -/
theorem test_decode_evex128 :
    decode tableCtx [0b01100010, 0b11110001, 0b01111110, 0b00001010, 0b01110000, 0b11001010, 0x1B] =
      .instr (.evex128 plain ⟨15, true, false, false, 2⟩ 1 (.reg 2) 0x1B) [] := by decide

/-- With z = 1, L'L = 01, aaa = 011, a GS override and 67 in front (R52, R74). -/
theorem test_decode_evex256 :
    decode tableCtx [0x65, 0x67, 0b01100010, 0b11110001, 0b01111110, 0b10101011, 0b01110000, 0b01001000, 0xFF, 0x4E] =
      .instr (.evex256 ⟨some .gs, true⟩ ⟨15, true, false, true, 3⟩ 1 (.mem (.base 0 (.d8 0xFF))) 0x4E) [] := by decide

/-- V4C: `P0 = 81` is destination 17 and source 26 (R60, R78). -/
theorem test_decode_evex512 :
    decode tableCtx [0b01100010, 0b10000001, 0b01111110, 0b01001000, 0b01110000, 0b11001010, 0x1B] =
      .instr (.evex512 plain (ctl 0 false) 17 (.reg 26) 0x1B) [] := by decide

/-- 16-bit addressing: `01:000:010` is [BP+SI+disp8] (R66). -/
theorem test_decode_16bit :
    decode ctx16 [0xF3, 0x0F, 0x70, 0b01000010, 0x80, 0x1B] =
      .instr (.sse plain 0 (.mem (.idx16 2 (.d8 0x80))) 0x1B) [] := by decide

/-! ## One step: the vectors -/

/-- V20. -/
theorem test_sse :
    outV (step (((at1000 [0xF3, 0x0F, 0x70, 0xC8, 0x1B]).setV 0 u).setV 1 d512)) 1 =
        some { d512 with l0 := 0x44445555666677773333222211110000 } ∧
      outIp (step (at1000 [0xF3, 0x0F, 0x70, 0xC8, 0x1B])) = some 0x1005 := by decide

/-- V25: SIB, scale 4, disp8. -/
theorem test_sse_mem :
    outV (step (State.withBytes (State.withG (State.withG (at1000 [0xF3, 0x0F, 0x70, 0x44, 0x8B, 0x10, 0x1B]) 3 0x1F00)
        1 0x3C) 0x2000 16 0x1FF0)) 0 = some ⟨0x19181B1A1D1C1F1E1716151413121110, 0, 0, 0⟩ := by decide

/-- P4, first instruction: the source is the destination. -/
theorem test_sseRex :
    outV (step ((at1000 [0xF3, 0x45, 0x0F, 0x70, 0xC9, 0x01]).setV 9 u)) 9 =
      some { u with l0 := 0x44444444444455553333222211110000 } := by decide

/-- V30. -/
theorem test_vex128C5 :
    outV (step (((at1000 [0xC5, 0xFA, 0x70, 0xCA, 0x03]).setV 2 u).setV 1 ones)) 1 =
      some ⟨0x44444444444477773333222211110000, 0, 0, 0⟩ := by decide

/-- V32: W = 1 is ignored. -/
theorem test_vex128C4 :
    outV (step (((at1000 [0xC4, 0xE1, 0xFA, 0x70, 0xCA, 0x03]).setV 2 u).setV 1 ones)) 1 =
      some ⟨0x44444444444477773333222211110000, 0, 0, 0⟩ := by decide

/-- V35. -/
theorem test_vex256C5 :
    outV (step (((at1000 [0xC5, 0xFE, 0x70, 0xE3, 0x1B]).setV 3 s256).setV 4 ones)) 4 =
      some ⟨0x44445555666677773333222211110000, 0xCCCCDDDDEEEEFFFFBBBBAAAA99998888, 0, 0⟩ := by decide

/-- V39 / P5: RIP-relative, 32 bytes with no alignment asked. -/
theorem test_vex256C5_rip :
    outV (step (State.withBytes (at1000 [0xC5, 0xFE, 0x70, 0x2D, 0x17, 0x00, 0x00, 0x00, 0xB1]) 0x1020 32 0x1000)) 5 =
      some ⟨0x2D2C2F2E29282B2A2726252423222120, 0x3D3C3F3E39383B3A3736353433323130, 0, 0⟩ := by decide

/-- V36's result through the three-byte prefix. -/
theorem test_vex256C4 :
    outV (step (((at1000 [0xC4, 0xE1, 0x7E, 0x70, 0xE3, 0x00]).setV 3 s256).setV 4 ones)) 4 =
      some ⟨0x44444444444444443333222211110000, 0xCCCCCCCCCCCCCCCCBBBBAAAA99998888, 0, 0⟩ := by decide

/-- 42_vpshufhw_evex.md R113's worked example, merging. -/
theorem test_evex128 :
    outV (step (State.withK (((at1000 [0x62, 0xF1, 0x7E, 0x0A, 0x70, 0xCA, 0x1B]).setV 2 u).setV 1
        { d512 with l0 := 0xDDD7DDD6DDD5DDD4DDD3DDD2DDD1DDD0 }) 2 0xFFFFFF5A)) 1 =
      some ⟨0xDDD75555DDD577773333DDD21111DDD0, 0, 0, 0⟩ := by decide

/-- R114's worked example, merging and zeroing. -/
theorem test_evex256 :
    outV (step (State.withK (((at1000 [0x62, 0xF1, 0x7E, 0x2B, 0x70, 0xCA, 0x4E]).setV 2 s256).setV 1 d512) 3 0xA5C3)) 1 =
        some ⟨0x55554444D005D004D003D00211110000, 0xDDDDD00EFFFFD00CD00BAAAAD0098888, 0, 0⟩ ∧
      outV (step (State.withK (((at1000 [0x62, 0xF1, 0x7E, 0xAB, 0x70, 0xCA, 0x4E]).setV 2 s256).setV 1 d512) 3 0xA5C3))
          1 =
        some ⟨0x55554444000000000000000011110000, 0xDDDD0000FFFF00000000AAAA00008888, 0, 0⟩ := by decide

/-- R115's worked example, merging. -/
theorem test_evex512 :
    outV (step (State.withK (((at1000 [0x62, 0xF1, 0x7E, 0x49, 0x70, 0xCA, 0x1B]).setV 2 s512).setV 1 d512) 1
        0xF0F0A5C3)) 1 =
      some ⟨0xB004B005D005D004D003D002B001B000, 0xB00CD00EB00ED00CD00BB00AD009B008,
        0xB014B015B016B017D013D012D011D010, 0xB01CB01DB01EB01FD01BD01AD019D018⟩ := by decide

/-- V4D: disp8 01 is scaled by 64; only lane 3 is looked at. -/
theorem test_evex512_disp8 :
    (outV (step (State.withBytes (State.withG (at1000 [0x62, 0xF1, 0x7E, 0x48, 0x70, 0x48, 0x01, 0x1B]) 0 0x2000)
        0x2040 64 0x1FF0)) 1).map VReg.l3 = some 0x89888B8A8D8C8F8E8786858483828180 := by decide

/-! ## Faults and refusals: the vectors of section 6 -/

/-- V60, V62, V63, V67 (b = 1 with memory), V6A (LOCK), V6B, V64, V65. -/
theorem test_ud :
    ∀ bytes ∈ ([[0xC5, 0xF2, 0x70, 0xCA, 0x03], [0x62, 0xF1, 0x76, 0x48, 0x70, 0xCA, 0x1B],
        [0x62, 0xF1, 0x7E, 0x40, 0x70, 0xCA, 0x1B], [0x62, 0xF1, 0x7E, 0x58, 0x70, 0x09, 0x1B],
        [0xF0, 0xF3, 0x0F, 0x70, 0xC8, 0x1B], [0xF3, 0xC5, 0xFA, 0x70, 0xCA, 0x03],
        [0x62, 0xF1, 0x7E, 0x68, 0x70, 0xCA, 0x1B], [0x62, 0xF5, 0x7E, 0x48, 0x70, 0xCA, 0x1B]] : List (List Byte)),
      outFault (step (at1000 bytes)) = some .ud := by decide

/-- V68, V69. -/
theorem test_doubtful_evex :
    outRefusal (step (at1000 [0x62, 0xF1, 0x7E, 0x58, 0x70, 0xCA, 0x1B])) = some .evexBWithRegister ∧
      outRefusal (step (at1000 [0x62, 0xF1, 0x7E, 0xC8, 0x70, 0xCA, 0x1B])) = some .zeroingWithoutMask := by decide

/-- V6C, V6D, V6E; and, in protected mode on a processor without the EVEX family, V6E's `pp = 01` and the bytes of a form
(60_exceptions.md R132, 00_scope.md R9 (c)). -/
theorem test_refused_encodings :
    (∀ bytes ∈ ([[0x66, 0xF3, 0x0F, 0x70, 0xC8, 0x1B], [0xF2, 0xF3, 0x0F, 0x70, 0xC8, 0x1B],
        [0xF3, 0xF3, 0x0F, 0x70, 0xC8, 0x1B]] : List (List Byte)),
      outRefusal (step (at1000 bytes)) = some .prefixCombination) ∧
      (∀ bytes ∈ ([[0x0F, 0x70, 0xC8, 0x1B], [0xC5, 0xF9, 0x70, 0xCA, 0x03], [0xC5, 0xFB, 0x70, 0xCA, 0x03],
        [0xC4, 0xE2, 0x7A, 0x70, 0xCA, 0x03], [0x62, 0xF1, 0x7D, 0x48, 0x70, 0xCA, 0x1B],
        [0x62, 0xF2, 0x7E, 0x48, 0x70, 0xCA, 0x1B]] : List (List Byte)),
      outRefusal (step (at1000 bytes)) = some .notPSHUFHW) ∧
      ∀ pp ∈ ([0x7D, 0x7E] : List Byte),
        decode { ctx32 with evex := false } [0x62, 0xF1, pp, 0x48, 0x70, 0xCA, 0x1B] = .refused .notPSHUFHW := by decide

/-- V6F, V71, V72, V7F. -/
theorem test_operand_faults :
    outFault (step (State.withG (at1000 [0xF3, 0x0F, 0x70, 0x18, 0x1B]) 0 0x2001)) = some .gp0 ∧
      outFault (step (State.withG (at1000 [0xF3, 0x0F, 0x70, 0x18, 0x1B]) 0 0x800000000000)) = some .gp0 ∧
      outFault (step (State.withG (at1000 [0xF3, 0x0F, 0x70, 0x5D, 0x00, 0x1B]) 5 0x800000000000)) = some .ss0 ∧
      outRefusal (step (State.withG (at1000 [0xF3, 0x0F, 0x70, 0x00, 0x1B]) 0 0xFFFFFFFF00002000)) =
        some .nonMemoryAddress := by decide

/-- V73 and V74: a not-present page, and the mask suppresses nothing. -/
theorem test_page_fault :
    ∀ bytes ∈ ([[0xF3, 0x0F, 0x70, 0x18, 0x1B], [0x62, 0xF1, 0x7E, 0x09, 0x70, 0x08, 0x1B]] : List (List Byte)),
      outFault (step { State.withG (at1000 bytes) 0 0x2000 with xlat := [⟨0x2000, 0x1000, .page false true false, 0⟩] }) =
        some (.pf 0b00100 0x2000) := by decide

/-- V75, V77, V78, V7A, V7B, V7C, V7D. -/
theorem test_enabling :
    outFault (step { at1000 [0xC5, 0xFE, 0x70, 0xE3, 0x1B] with
        cpu := { fullCpu with features := ⟨true, true, false, false, false, false⟩ } }) = some .ud ∧
      outFault (step { at1000 [0x62, 0xF1, 0x7E, 0x48, 0x70, 0xCA, 0x1B] with
        cpu := { fullCpu with maxvl := .m256 } }) = some .ud ∧
      outFault (step { at1000 [0xF3, 0x0F, 0x70, 0xC8, 0x1B] with cr0 := 0x60000014 }) = some .ud ∧
      outFault (step { at1000 [0xC5, 0xFA, 0x70, 0xCA, 0x03] with cr4 := 0x200 }) = some .ud ∧
      outFault (step { at1000 [0x62, 0xF1, 0x7E, 0x08, 0x70, 0xCA, 0x1B] with xcr0 := 7 }) = some .ud ∧
      outFault (step { at1000 [0xC5, 0xFA, 0x70, 0xCA, 0x03] with cr0 := 0x60000018 }) = some .nm ∧
      outFault (step { at1000 [0xF3, 0x0F, 0x70, 0xC8, 0x1B] with cr0 := 0x6000001C }) = some .ud := by decide

/-- V80, V81, V82, V83. -/
theorem test_mode32 :
    outRefusal (step (flat (at1000 [0xF3, 0x44, 0x0F, 0x70, 0xC8, 0x01]))) = some .notPSHUFHW ∧
      outIp (step (flat (at1000 [0xF3, 0x0F, 0x70, 0xC8, 0x1B]))) = some 0x1005 ∧
      outRefusal (step (flat (at1000 [0x62, 0x81, 0x7E, 0x48, 0x70, 0xCA, 0x1B]))) = some .notPSHUFHW ∧
      outRefusal (step (flat (at1000 [0x62, 0xD1, 0x7E, 0x48, 0x70, 0xCA, 0x1B]))) = some .evexExtensionBitsMode32 := by
  decide

/-- Sixteen bytes with L'L = 11: seven of displacement and immediate are needed, six are left (R138 item 2: #GP(0)). -/
def tooLongReserved : List Byte :=
  [0x66, 0xF2, 0x2E, 0x67, 0x62, 0xF1, 0x7E, 0x68, 0x70, 0x84, 0, 0, 0, 0, 0, 0x1B]

/-- Being too long comes before the prefix checks (60_exceptions.md R138); one byte shorter it raises #UD. -/
theorem test_too_long_reserved :
    outFault (step (at1000 tooLongReserved)) = some .gp0 ∧
      outFault (step (at1000 (tooLongReserved.drop 1))) = some .ud := by decide

/-- V84, V85, V86. -/
theorem test_launch :
    outRefusal (launch { idle with cr0 := 0x60040010, rflags := 0x40002, cpl := 3 }) = some .alignmentCheckEnabled ∧
      outRefusal (launch { idle with mode := .real }) = some .unsupportedMode ∧
      outRefusal (launch { idle with ip := 0xFFFFFFFFFFFFFFFC }) = some .ipWrap := by decide

/-! ## Witnesses: hypotheses that can be met -/

theorem enabled_of {f : Form} {s : State} (h : (!s.notEnabled f && !s.ts) = true) : Enabled f s := by
  simp only [Bool.and_eq_true, Bool.not_eq_true'] at h
  exact ⟨(notEnabled_eq_false_iff f s).1 h.1, h.2⟩

theorem addressOk_of {s : State} {q : Place} {n : Nat} (h : s.addressFaults q n = []) : AddressOk s q n :=
  (addressFaults_eq_nil_iff s q n).1 h

theorem untouched_of {s : State} (q : Place) (n : Nat) (h : s.xlat = []) : Untouched s q n := by
  intro e he
  rw [h] at he
  cases he

theorem notChecked_of {s : State} (h : s.alignmentChecking = false) : ¬AlignmentChecked s :=
  fun hc => Bool.false_ne_true (h ▸ (alignmentChecking_iff s).2 hc)

theorem inProgram_of {s : State} {a : Nat} (h : s.programByte a = true) : InProgram s a := (programByte_iff s a).1 h

theorem notInProgram_of {s : State} {a : Nat} (h : s.programByte a = false) : ¬InProgram s a :=
  fun hp => Bool.false_ne_true (h ▸ (programByte_iff s a).2 hp)

theorem clear_of {s : State} (h : s.codeWraps = false) : ClearOfTop s := (codeWraps_eq_false_iff s).1 h

theorem notClear_of {s : State} (h : s.codeWraps = true) : ¬ClearOfTop s :=
  fun hc => Bool.false_ne_true ((codeWraps_eq_false_iff s).2 hc ▸ h)

theorem readable_of {f : Form} {s : State} {q : Place} (h : s.addressFaults q f.bytes = [])
    (hal : alignmentFaults f q = []) (hx : s.xlat = []) (hc : s.alignmentChecking = false)
    (ho : s.allOrdinary f q.lin = true) : Readable f s q :=
  ⟨addressOk_of h, (alignmentFaults_eq_nil_iff f q).1 hal, untouched_of q _ hx, notChecked_of hc,
    (allOrdinary_iff s f q).1 ho⟩

theorem exists_next {o : Out} (h : (outIp o).isSome = true) : ∃ t, o = .next t := by
  cases o with
  | next t => exact ⟨t, rfl⟩
  | fault e => cases h
  | refused r => cases h

theorem eq_fault {o : Out} {x : Fault} (h : outFault o = some x) : o = .fault x := by
  cases o with
  | fault e => cases h; rfl
  | next t => cases h
  | refused r => cases h

/-- `ShufHiByLanes`, `MaskMergeWords`: the last lane and word; masks that differ above KL only. -/
theorem witness_lanes_and_masks :
    3 < Form.lanes .evex512 ∧ 31 < 8 * Form.lanes .evex512 ∧
      (∀ j < 8 * Form.lanes .evex128, (0xFFFFFFFFFFFFFF5A : Word64).getLsbD j = (0x5A : Word64).getLsbD j) := by decide

/-- Every form is enabled in the launched state, in 64-bit and in protected mode (`ModesOfTheForms`, and every
hypothesis `Enabled` or `Powered`). -/
theorem witness_enabled :
    ∀ f ∈ [Form.sse, .vex128, .vex256, .evex128, .evex256, .evex512], Enabled f idle ∧ Enabled f (flat idle) := by
  have h : ∀ f ∈ [Form.sse, .vex128, .vex256, .evex128, .evex256, .evex512],
      (!idle.notEnabled f && !idle.ts) = true ∧ (!(flat idle).notEnabled f && !(flat idle).ts) = true := by decide
  exact fun f hf => ⟨enabled_of (h f hf).1, enabled_of (h f hf).2⟩

/-- The SSE form is enabled and its operand readable in real-address mode too. -/
theorem witness_sse_real :
    Enabled .sse { idle with mode := .real } ∧
      SourceReady .sse { idle with mode := .real } plain 6 (.mem (.idx16 0 (.d8 0x10))) :=
  ⟨enabled_of (by decide), readable_of (by decide) (by decide) rfl (by decide) (by decide)⟩

/-- A memory operand every form can read, at an address only the SSE form asks to be aligned. -/
theorem witness_source_ready :
    SourceReady .sse (State.withG idle 0 0x2000) plain 5 (.mem (.base 0 .none)) ∧
      SourceReady .vex128 (State.withG idle 0 0x2001) plain 5 (.mem (.base 0 .none)) ∧
      SourceReady .vex256 (State.withG idle 0 0x2001) plain 5 (.mem (.base 0 .none)) ∧
      SourceReady .evex128 (State.withG idle 0 0x2001) plain 7 (.mem (.base 0 .none)) ∧
      SourceReady .evex256 (State.withG idle 0 0x2001) plain 7 (.mem (.base 0 .none)) ∧
      SourceReady .evex512 (State.withG idle 0 0x7FFFFFFFFFC0) plain 7 (.mem (.base 0 .none)) :=
  ⟨readable_of (by decide) (by decide) rfl (by decide) (by decide),
    readable_of (by decide) (by decide) rfl (by decide) (by decide),
    readable_of (by decide) (by decide) rfl (by decide) (by decide),
    readable_of (by decide) (by decide) rfl (by decide) (by decide),
    readable_of (by decide) (by decide) rfl (by decide) (by decide),
    readable_of (by decide) (by decide) rfl (by decide) (by decide)⟩

/-- `SseCompletes`, `VexCompletes`, `EvexCompletes`, `AllZeroMask`: the remaining hypotheses, with a source that is the
destination, and a mask that is clear below KL and set above. -/
theorem witness_completes :
    idle.oracle = .quietMemory ∧ (ctl 1 true).vvvv = 15 ∧ (ctl 1 true).vp = true ∧ (ctl 1 true).b = false ∧
      ((ctl 1 true).z = true → (ctl 1 true).aaa ≠ 0) ∧ (ctl 1 true).aaa ≠ 0 ∧
      SourceReady .evex512 idle plain 7 (.reg 3) ∧
      ∀ j < 8 * Form.lanes .evex512, ((State.withK idle 1 0xFFFFFFFF00000000).getK (ctl 1 true).aaa).getLsbD j = false :=
  ⟨rfl, rfl, rfl, rfl, by decide, by decide, trivial, by decide⟩

/-- A program of 32 bytes, read by its own instruction, while other agents write. -/
def ownCode : State := { at1000 (List.replicate 32 0xC5) with oracle := Oracle.anyWriter }

/-- `CompletesWhateverOthersWrite`: other agents write; one operand outside the program bytes, one inside them. -/
theorem witness_any_writer :
    (let s := { State.withG idle 0 0x2001 with oracle := Oracle.anyWriter }
      let i := Instr.vex128C5 plain 15 1 (.mem (.base 0 .none)) 0x1B
      FieldsOk i ∧ Enabled i.form s ∧ SourceReady i.form s i.prefixes i.length i.source ∧ s.oracle = .anyWriter) ∧
      let s := ownCode
      let i := Instr.vex128C5 plain 15 1 (.mem (.disp32 0)) 0x1B
      FieldsOk i ∧ Enabled i.form s ∧ SourceReady i.form s i.prefixes i.length i.source ∧ s.oracle = .anyWriter ∧
        ∀ a, i.source = .mem a → ∀ k < i.form.bytes,
          InProgram s (s.byteAddr (s.place i.form i.prefixes i.length a).lin k) := by
  refine ⟨⟨rfl, enabled_of (by decide), readable_of (by decide) (by decide) rfl (by decide) (by decide), rfl⟩,
    rfl, enabled_of (by decide), readable_of (by decide) (by decide) rfl (by decide) (by decide), rfl, ?_⟩
  intro a ha
  cases ha
  have h : ∀ k < 16, ownCode.programByte (ownCode.byteAddr (ownCode.place .vex128 plain 9 (.disp32 0)).lin k) = true := by decide
  exact fun k hk => inProgram_of (h k hk)

/-- `OnlyDestinationAndIpChange` and the `.next` hypotheses of the relations: every constructor completes somewhere. -/
theorem witness_next :
    ∀ i ∈ [Instr.sse plain 1 (.reg 2) 0x1B, .sseRex plain 9 (.reg 2) 0x1B, .vex128C5 plain 15 1 (.reg 2) 0x1B,
      .vex128C4 plain 15 1 (.reg 2) 0x1B, .vex256C5 plain 15 1 (.reg 2) 0x1B, .vex256C4 plain 15 1 (.reg 2) 0x1B,
      .evex128 plain (ctl 0 false) 1 (.reg 2) 0x1B, .evex256 plain (ctl 2 false) 1 (.reg 2) 0x1B,
      .evex512 plain (ctl 7 true) 1 (.mem (.disp32 0x100)) 0x1B], ∃ t, exec i idle = .next t := by
  have h : ∀ i ∈ [Instr.sse plain 1 (.reg 2) 0x1B, .sseRex plain 9 (.reg 2) 0x1B, .vex128C5 plain 15 1 (.reg 2) 0x1B,
      .vex128C4 plain 15 1 (.reg 2) 0x1B, .vex256C5 plain 15 1 (.reg 2) 0x1B, .vex256C4 plain 15 1 (.reg 2) 0x1B,
      .evex128 plain (ctl 0 false) 1 (.reg 2) 0x1B, .evex256 plain (ctl 2 false) 1 (.reg 2) 0x1B,
      .evex512 plain (ctl 7 true) 1 (.mem (.disp32 0x100)) 0x1B], (outIp (exec i idle)).isSome = true := by decide
  exact fun i hi => exists_next (h i hi)

/-- `FlagsNeitherReadNorWritten`: with bit 18 changed at CPL 3 and CR0 bit 18 set, a register source and an aligned
operand; with a misaligned operand, CR0 bit 18 clear, and CPL 0. -/
theorem witness_flags_unread :
    (let s := { State.withG idle 0 0x2000 with cr0 := 0x60040010, cpl := 3 }
      let i := Instr.vex256C5 plain 15 1 (.reg 2) 0x1B
      i.source = .reg 2 ∧
        (s.place .vex256 plain 4 (.base 0 .none)).lin.toNat % 32 = 0 ∧
        (0x40002 : Word64).getLsbD 18 ≠ s.rflags.getLsbD 18 ∧ s.cr0.getLsbD 18 = true ∧ s.cpl = 3) ∧
      (let s := { State.withG idle 0 0x2001 with cpl := 3 }
        let q := s.place .vex256 plain 4 (.base 0 .none)
        q.lin.toNat % 32 ≠ 0 ∧ s.cr0.getLsbD 18 = false) ∧
      let s := { State.withG idle 0 0x2001 with cr0 := 0x60040010 }
      s.cr0.getLsbD 18 = true ∧ s.cpl ≠ 3 := by decide

/-- `FlagsNeitherReadNorWritten` and `SourceAboveVlNeverRead`: flags that agree in bit 18, a source that differs above
VL. -/
theorem witness_unread :
    (0xFFFFFFFFFFFBFFFF : Word64).getLsbD 18 = idle.rflags.getLsbD 18 ∧
      VReg.low (Form.lanes .vex128) u = VReg.low (Form.lanes .vex128) (((idle.setV 2 ⟨s128, 0, 0, 0⟩)).getV 2) ∧
      (2 : VNum) ≠ 1 := by decide

/-- `SseAndVexAgree`, both clauses: sources with equal low eight words, words 8 to 15 zero. -/
theorem witness_sse_vex :
    SourceIs .sse (idle.setV 2 u) plain 5 (.reg 2) ⟨s128, 0, 0, 0⟩ ∧
      SourceIs .vex128 (idle.setV 3 s256) plain 5 (.reg 3) ⟨s128, 0, 0, 0⟩ ∧
      SourceIs .vex256 (idle.setV 2 ⟨s128, 0, 7, 7⟩) plain 5 (.reg 2) ⟨s128, 0, 0, 0⟩ ∧
      (∀ j < 16, 8 ≤ j → (⟨s128, 0, 0, 0⟩ : VReg).word j = 0) ∧
      (outIp (exec (.sse plain 1 (.reg 2) 0x1B) (idle.setV 2 u))).isSome = true ∧
      (outIp (exec (.vex128C5 plain 15 1 (.reg 3) 0x1B) (idle.setV 3 s256))).isSome = true ∧
      (outIp (exec (.vex256C5 plain 15 1 (.reg 2) 0x1B) (idle.setV 2 ⟨s128, 0, 7, 7⟩))).isSome = true :=
  ⟨⟨_, rfl⟩, ⟨_, rfl⟩, ⟨_, rfl⟩, by decide, by decide, by decide, by decide⟩

/-- `VexAndEvexAgree` and the second part of `OpmaskZeroNeverRead`: no mask, a mask set below KL only, and a source
whose upper lanes are zero. -/
theorem witness_vex_evex :
    SourceIs .vex256 (idle.setV 2 s256) plain 5 (.reg 2) s256 ∧
      SourceIs .evex256 (State.withK (idle.setV 30 s256) 1 0xFFFF) plain 7 (.reg 30) s256 ∧
      (ctl 0 false).aaa = 0 ∧
      (∀ j < 8 * Form.lanes .evex256, ((State.withK (idle.setV 30 s256) 1 0xFFFF).getK (ctl 1 false).aaa).getLsbD j =
        true) ∧
      (outIp (exec (.vex256C5 plain 15 1 (.reg 2) 0x1B) (idle.setV 2 s256))).isSome = true ∧
      (outIp (exec (.evex256 plain (ctl 1 false) 31 (.reg 30) 0x1B) (State.withK (idle.setV 30 s256) 1 0xFFFF))).isSome =
        true ∧
      (⟨s128, 0, 0, 0⟩ : VReg).l1 = 0 ∧ (⟨s128, 0, 0, 0⟩ : VReg).l2 = 0 ∧ (⟨s128, 0, 0, 0⟩ : VReg).l3 = 0 :=
  ⟨⟨_, rfl⟩, ⟨_, rfl⟩, rfl, by decide, by decide, by decide, rfl, rfl, rfl⟩

/-- `RegisterNumbers`: bytes that decode, for each clause, with legacy bytes in front. -/
theorem witness_register_numbers :
    (∀ x ∈ ([0x65, 0xF3] : List Byte), isLeading tableCtx x = true ∧ isRex tableCtx x = false) ∧
      decode tableCtx ([0x65, 0xF3] ++ 0x0F :: 0x70 :: 0x38 :: [0x1B]) =
        .instr (.sse ⟨some .gs, false⟩ 7 (.mem (.base 0 .none)) 0x1B) [] ∧
      isRex tableCtx 0x4D = true ∧
      decode tableCtx ([0x65, 0xF3] ++ 0x4D :: 0x0F :: 0x70 :: 0xFF :: [0x1B]) =
        .instr (.sseRex ⟨some .gs, false⟩ 15 (.reg 15) 0x1B) [] ∧
      decode tableCtx ([0x65] ++ 0xC5 :: 0x7E :: 0x70 :: 0xFF :: [0x1B]) =
        .instr (.vex256C5 ⟨some .gs, false⟩ 15 15 (.reg 7) 0x1B) [] ∧
      decode ctx32 ([0x65] ++ 0xC4 :: 0xC1 :: 0x7A :: 0x70 :: 0xFF :: [0x1B]) =
        .instr (.vex128C4 ⟨some .gs, false⟩ 15 7 (.reg 7) 0x1B) [] ∧
      decode tableCtx ([0x65] ++ 0x62 :: 0x01 :: 0x7E :: 0x48 :: 0x70 :: 0xFF :: [0x1B]) =
        .instr (.evex512 ⟨some .gs, false⟩ (ctl 0 false) 31 (.reg 31) 0x1B) [] := by decide

/-- `RegisterFormsDecode`: lists of leading bytes without and with F3, in an order `encode` does not write, and each
clause's byte pattern, in 64-bit mode and outside it. -/
theorem witness_register_forms :
    (∀ lead ∈ ([[], [0x67, 0x65], [0xF3, 0x67, 0x2E], [0x65, 0xF3, 0x67]] : List (List Byte)),
      (∀ x ∈ lead, isSegByte x = true ∨ x = 0x67 ∨ x = 0xF3) ∧ (lead.filter isSegByte).length ≤ 1 ∧
        lead.count 0x67 ≤ 1) ∧
      List.count (0xF3 : Byte) [0x65, 0xF3, 0x67] = 1 ∧ (0xF3 : Byte) ∉ ([0x67, 0x65] : List Byte) ∧
      (0xFF : Byte).extractLsb' 6 2 = 3 ∧ (0x4F : Byte).extractLsb' 4 4 = 4 ∧ (0xFE : Byte).extractLsb' 0 2 = 2 ∧
      (0xC2 : Byte).extractLsb' 6 2 = 3 ∧ ctx32.vex = true ∧ (0x01 : Byte).extractLsb' 0 5 = 1 ∧
      (0xE1 : Byte).extractLsb' 6 2 = 3 ∧ (0xFE : Byte).extractLsb' 0 2 = 2 ∧ (0x01 : Byte).extractLsb' 0 4 = 1 ∧
      (0xFE : Byte).extractLsb' 0 3 = 6 ∧ (0x48 : Byte).extractLsb' 5 2 ≠ 3 ∧ (0xF1 : Byte).extractLsb' 4 4 = 15 ∧
      ctx32.evex = true ∧ tableCtx.mode = .mode64 := by decide

/-- `LegacyBytesInAnyOrder`: F3 before a segment override, and the other order. -/
theorem witness_any_order :
    (∀ z ∈ ([0x67, 0x65, 0xF3] : List Byte), isLeading tableCtx z = true ∧ isRex tableCtx z = false) ∧
      decode tableCtx ([0x67] ++ 0x65 :: 0xF3 :: [0x0F, 0x70, 0xC8, 0x1B]) =
        .instr (.sse ⟨some .gs, true⟩ 1 (.reg 0) 0x1B) [] ∧
      decode tableCtx ([0x67] ++ 0xF3 :: 0x65 :: [0x0F, 0x70, 0xC8, 0x1B]) =
        .instr (.sse ⟨some .gs, true⟩ 1 (.reg 0) 0x1B) [] := by decide

/-- `NeighboursAreRefused`: leading bytes without and with F3, and each clause's other bytes, in 64-bit mode and outside
it. -/
theorem witness_neighbours :
    (∀ x ∈ ([0x66, 0x65, 0x48] : List Byte), isLeading tableCtx x = true) ∧
      (∀ x ∈ ([0xF3, 0x65] : List Byte), isLeading ctx32 x = true) ∧
      (0xF3 : Byte) ∉ ([0x66, 0x65, 0x48] : List Byte) ∧ isLeading ctx32 0x44 = false ∧
      (0x44 : Byte) ≠ 0x0F ∧ (0x44 : Byte) ≠ 0xC5 ∧ (0x44 : Byte) ≠ 0xC4 ∧ (0x44 : Byte) ≠ 0x62 ∧ ctx32.mode ≠ .mode64 ∧
      (0xBF : Byte).extractLsb' 6 2 ≠ 3 ∧ (0xF9 : Byte).extractLsb' 6 2 = 3 ∧ ctx32.vex = true ∧ ctxOld.evex = true ∧
      (0xF9 : Byte).extractLsb' 0 2 ≠ 2 ∧ (0xE2 : Byte).extractLsb' 6 2 = 3 ∧ (0xE2 : Byte).extractLsb' 0 5 ≠ 1 ∧
      (0xF2 : Byte).extractLsb' 6 2 = 3 ∧ (0xF2 : Byte).extractLsb' 2 2 = 0 ∧ (0x7E : Byte).getLsbD 2 = true ∧
      (0xF2 : Byte).extractLsb' 0 2 ≠ 1 := by
  decide

/-- `ReservedEvexBitsRaiseUd`: P0[3:2] = 01, P1[2] = 0, L'L = 11; a window that holds ModRM to immediate, and one whose
fifteen bytes end before (`test_too_long_reserved`). -/
theorem witness_reserved_bits :
    (at1000 [0x65, 0x62, 0xF5, 0x7E, 0x48, 0x70, 0xCA, 0x1B]).fetchStop = none ∧
      (at1000 [0x65, 0x62, 0xF5, 0x7E, 0x48, 0x70, 0xCA, 0x1B]).window =
        [0x65] ++ 0x62 :: 0xF5 :: 0x7E :: 0x48 :: 0x70 :: [0xCA, 0x1B] ∧
      (takeBody .a64 (evexExt 0xF5) [0xCA, 0x1B]).isSome = true ∧
      (0xF5 : Byte).extractLsb' 2 2 ≠ 0 ∧ (0x7A : Byte).getLsbD 2 = false ∧ (0xF1 : Byte).extractLsb' 0 4 = 1 ∧
      (0x7E : Byte).extractLsb' 0 3 = 6 ∧ (0x68 : Byte).extractLsb' 5 2 = 3 ∧
      (∀ x ∈ ([0x66, 0xF2, 0x2E, 0x67, 0x65] : List Byte), isLeading idle.ctx x = true) ∧
      (at1000 tooLongReserved).fetchStop = none ∧ (at1000 tooLongReserved).window.length = 15 ∧
      (at1000 tooLongReserved).window =
        [0x66, 0xF2, 0x2E, 0x67] ++ 0x62 :: 0xF1 :: 0x7E :: 0x68 :: 0x70 :: [0x84, 0, 0, 0, 0, 0] ∧
      takeBody .a32 (evexExt 0xF1) [0x84, 0, 0, 0, 0, 0] = none ∧
      (flat (at1000 [0x62, 0xF5, 0x7E, 0x48, 0x70, 0xCA, 0x1B])).fetchStop = none ∧
      (flat (at1000 [0x62, 0xF5, 0x7E, 0x48, 0x70, 0xCA, 0x1B])).ctx.evex = true ∧
      (flat (at1000 [0x62, 0xF5, 0x7E, 0x48, 0x70, 0xCA, 0x1B])).window =
        [] ++ 0x62 :: 0xF5 :: 0x7E :: 0x48 :: 0x70 :: [0xCA, 0x1B] ∧ (0xF5 : Byte).extractLsb' 6 2 = 3 := by decide

/-- `LockRaisesUd`: before an SSE form and before an EVEX form, with a segment override in front. -/
theorem witness_lock :
    (∀ x ∈ ([0x65] : List Byte), isLeading idle.ctx x = true ∧ isRex idle.ctx x = false) ∧
      decode idle.ctx ([0x65] ++ [0xF3, 0x45, 0x0F, 0x70, 0xC9, 0x01]) =
        .instr (.sseRex ⟨some .gs, false⟩ 9 (.reg 9) 0x01) [] ∧
      (at1000 [0x65, 0xF0, 0xF3, 0x45, 0x0F, 0x70, 0xC9, 0x01]).fetchStop = none ∧
      (at1000 [0x65, 0xF0, 0xF3, 0x45, 0x0F, 0x70, 0xC9, 0x01]).window =
        [0x65] ++ 0xF0 :: [0xF3, 0x45, 0x0F, 0x70, 0xC9, 0x01] := by decide

/-- `PrefixBeforeVexRaisesUd`: a REX byte before an EVEX form, two LOCK bytes before a VEX form, 66, F2, two overrides and
67 before one that decodes after 67, and in protected mode an encoding that is refused without the 66. -/
theorem witness_prefix_before_vex :
    isRex idle.ctx 0x40 = true ∧ (∀ z ∈ ([0x66, 0x65, 0xF2, 0x64, 0x67] : List Byte), isLeading idle.ctx z = true) ∧
      decode idle.ctx ([] ++ 0x62 :: [0xF1, 0x7E, 0x48, 0x70, 0xCA, 0x1B]) =
        .instr (.evex512 plain (ctl 0 false) 1 (.reg 2) 0x1B) [] ∧
      (at1000 [0x40, 0x62, 0xF1, 0x7E, 0x48, 0x70, 0xCA, 0x1B]).fetchStop = none ∧
      (at1000 [0x40, 0x62, 0xF1, 0x7E, 0x48, 0x70, 0xCA, 0x1B]).window =
        [0x40] ++ 0x62 :: [0xF1, 0x7E, 0x48, 0x70, 0xCA, 0x1B] ∧
      decode idle.ctx ([0x67] ++ 0xC5 :: [0xFA, 0x70, 0xCA, 0x03]) =
        .instr (.vex128C5 ⟨none, true⟩ 15 1 (.reg 2) 0x03) [] ∧
      (at1000 [0xF0, 0xF0, 0xC5, 0xFA, 0x70, 0xCA, 0x03]).window = [0xF0, 0xF0] ++ 0xC5 :: [0xFA, 0x70, 0xCA, 0x03] ∧
      (at1000 [0x66, 0x65, 0xF2, 0x64, 0x67, 0xC5, 0xFA, 0x70, 0xCA, 0x03]).window =
        [0x66, 0x65, 0xF2, 0x64, 0x67] ++ 0xC5 :: [0xFA, 0x70, 0xCA, 0x03] ∧
      (let s := flat (at1000 [0x66, 0x62, 0xD1, 0x7E, 0x48, 0x70, 0xCA, 0x1B])
      s.fetchStop = none ∧ s.window = [0x66] ++ 0x62 :: [0xD1, 0x7E, 0x48, 0x70, 0xCA, 0x1B] ∧
        decode s.ctx ([] ++ 0x62 :: [0xD1, 0x7E, 0x48, 0x70, 0xCA, 0x1B]) = .refused .evexExtensionBitsMode32) := by
  decide

/-- `PrefixCombinationsAreRefused`: odd lists before the SSE form, a REX byte followed by F3 among them; two overrides and
two 67 before a VEX form whose vvvv is not 1111, which has an exception of its own. -/
theorem witness_prefix_combinations :
    (∀ lead ∈ ([[0xF3, 0x66, 0x66], [0xF2, 0xF3], [0xF3, 0xF3], [0xF0, 0xF3, 0xF0], [0x67, 0xF3, 0x67],
        [0x65, 0xF3, 0x64], [0x44, 0xF3]] : List (List Byte)),
      (0xF3 : Byte) ∈ lead ∧ ∀ z ∈ lead, isLeading tableCtx z = true) ∧
      [0x44, 0xF3] = [] ++ (0x44 : Byte) :: 0xF3 :: [] ∧ isRex tableCtx 0x44 = true ∧
      decode tableCtx ([0x65, 0x67] ++ 0xC5 :: [0x82, 0x70, 0xCA, 0x03]) =
        .instr (.vex128C5 ⟨some .gs, true⟩ 0 1 (.reg 2) 0x03) [] ∧
      1 < (([0x65, 0x67, 0x3E] : List Byte).filter isSegByte).length ∧ 1 < ([0x67, 0x67] : List Byte).count 0x67 ∧
      (∀ z ∈ ([0x65, 0x67, 0x3E] : List Byte), isSegByte z = true ∨ z = 0x67) := by decide

/-- `RefusalsOutside64BitMode`: each clause; operand 2 a register, memory with mod = 01 and 10 and the form of a 16-bit
displacement alone, with 67 under a 32-bit default and without it under a 16-bit one, after an override. -/
theorem witness_outside_64bit :
    ctx16.mode = .mode32 ∧ (0xF1 : Byte).extractLsb' 6 2 = 3 ∧ ({ ctx32 with vex := false } : Ctx).vex = false ∧
      ({ ctx32 with evex := false } : Ctx).evex = false ∧ ctx16.evex = true ∧ (0xD1 : Byte).extractLsb' 6 2 = 3 ∧
      (0xD1 : Byte).extractLsb' 4 2 ≠ 3 ∧ (0xD1 : Byte).extractLsb' 0 4 = 1 ∧ (0x7E : Byte).extractLsb' 0 3 = 6 ∧
      (0x48 : Byte).extractLsb' 5 2 ≠ 3 ∧ (0x7E : Byte).extractLsb' 3 4 = 15 ∧ (0x48 : Byte).getLsbD 3 = true ∧
      (0x48 : Byte).getLsbD 4 = false ∧ (0xF1 : Byte).extractLsb' 4 2 = 3 ∧
      (∀ x ∈ ([0x65, 0x67] : List Byte), isLeading ctx32 x = true ∧ (isSegByte x = true ∨ x = 0x67)) ∧
      ctx32.asz (decide ((0x67 : Byte) ∈ ([0x65, 0x67] : List Byte))) = .a16 ∧
      ctx16.asz (decide ((0x67 : Byte) ∈ ([0x65] : List Byte))) = .a16 ∧
      (∀ src ∈ ([.reg 7, .mem (.idx16 2 (.d8 0x80)), .mem (.idx16 7 (.d16 0xFFFF)), .mem (.disp16 0x8000)] :
        List Operand), src.ok .a16 8 8 = true) ∧
      Operand.ok .a32 8 8 (.mem (.sib 7 7 3 (.d32 0x80000000))) = true := by
  decide

/-- `RipRelativeOffset`, `SegmentSelection`, `AddressFormation`: the modes, both address sizes, an override, an index. -/
theorem witness_addresses :
    idle.mode = .mode64 ∧ (flat idle).mode ≠ .mode64 ∧ (flat idle).defAddr = .a32 ∧
      ({ flat idle with defAddr := DefAddr.a16 } : State).defAddr = .a16 ∧ (12 : GNum) ≠ 4 ∧
      (⟨some SegReg.fs, true⟩ : Prefixes).seg = some .fs ∧
      (Instr.sse ⟨some .fs, true⟩ 1 (.mem (.disp32 0xFFFFFFFF)) 0).source = .mem (.disp32 0xFFFFFFFF) := by decide

/-- `VvvvMustBeOnes`, `EvexBBit`, `ZeroingWithoutMaskIsRefused`: a control field for each clause. -/
theorem witness_control_fields :
    (14 : BitVec 4) ≠ 15 ∧ (⟨15, false, false, false, 0⟩ : EvexCtl).vp = false ∧
      (⟨15, true, true, false, 0⟩ : EvexCtl).b = true ∧ (⟨15, true, true, false, 0⟩ : EvexCtl).vvvv = 15 ∧
      (⟨15, true, true, false, 0⟩ : EvexCtl).vp = true ∧ (ctl 0 true).z = true ∧ (ctl 0 true).aaa = 0 := by decide

/-- `SseNeedsOsEnabling`, `VexAndEvexNeedOsEnabling`, `UnsupportedFormsRaiseUd`: control registers for each clause. -/
theorem witness_not_enabled :
    ({ idle with cr0 := 0x60000014 } : State).cr0.getLsbD 2 = true ∧
      ({ idle with cr4 := 0x40000 } : State).cr4.getLsbD 9 = false ∧
      ({ idle with cr4 := 0x200 } : State).cr4.getLsbD 18 = false ∧
      ({ idle with xcr0 := 0xE3 } : State).xcr0.extractLsb' 1 2 ≠ 3 ∧
      ({ idle with xcr0 := 0x67 } : State).xcr0.extractLsb' 5 3 ≠ 7 ∧
      Form.supported .vex256 ⟨true, true, false, true, true, true⟩ = false ∧
      MaxVL.lanes .m256 < Form.lanes .evex512 ∧ Form.isEvex .evex128 = true := by decide

/-- The same: registers that differ in EM and in OSFXSR alone. -/
theorem witness_em_osfxsr_only :
    (∀ j, j ≠ 2 → (0x60000014 : Word64).getLsbD j = (0x60000010 : Word64).getLsbD j) ∧
      ∀ j, j ≠ 9 → (0x40000 : Word64).getLsbD j = (0x40200 : Word64).getLsbD j := by
  have h1 : ∀ j < 64, j ≠ 2 → (0x60000014 : Word64).getLsbD j = (0x60000010 : Word64).getLsbD j := by decide
  have h2 : ∀ j < 64, j ≠ 9 → (0x40000 : Word64).getLsbD j = (0x40200 : Word64).getLsbD j := by decide
  constructor
  · intro j hj
    by_cases h : j < 64
    · exact h1 j h hj
    · rw [BitVec.getLsbD_of_ge _ _ (by omega), BitVec.getLsbD_of_ge _ _ (by omega)]
  · intro j hj
    by_cases h : j < 64
    · exact h2 j h hj
    · rw [BitVec.getLsbD_of_ge _ _ (by omega), BitVec.getLsbD_of_ge _ _ (by omega)]

/-- `TaskSwitchedRaisesNm`: powered, with TS set. -/
theorem witness_task_switched :
    Powered .evex512 { idle with cr0 := 0x60000018 } ∧ ({ idle with cr0 := 0x60000018 } : State).cr0.getLsbD 3 = true ∧
      FieldsOk (.evex512 plain (ctl 0 false) 1 (.reg 2) 0x1B) :=
  ⟨(notEnabled_eq_false_iff _ _).1 (by decide), by decide, rfl, rfl, rfl, by decide⟩

/-- `MisalignedSseOperandRaisesGp`: one byte and eight bytes off, in 64-bit and in real-address mode. -/
theorem witness_misaligned :
    (let s := State.withG idle 0 0x2001
      let q := s.place .sse plain 5 (.base 0 .none)
      Enabled .sse s ∧ AddressOk s q 16 ∧ Untouched s q 16 ∧ q.lin.toNat % 16 ≠ 0) ∧
      let s := { idle with mode := Mode.real }
      let q := s.place .sse plain 6 (.idx16 6 (.d16 8))
      Enabled .sse s ∧ AddressOk s q 16 ∧ Untouched s q 16 ∧ q.lin.toNat % 16 ≠ 0 :=
  ⟨⟨enabled_of (by decide), addressOk_of (by decide), untouched_of _ _ rfl, by decide⟩,
    enabled_of (by decide), addressOk_of (by decide), untouched_of _ _ rfl, by decide⟩

/-- `BadAddressRaisesSsOrGp` in 64-bit mode: the operand's last byte alone is not canonical, through SS and DS. -/
theorem witness_bad_address_64 :
    let s := State.withG (State.withG idle 0 0x7FFFFFFFFFF1) 5 0x7FFFFFFFFFF1;
    (∃ k < Form.bytes .vex128,
      canonical s.cpu.laWidth ((s.place .vex128 plain 5 (.base 0 .none)).lin.toNat + k) = false) ∧
      (s.place .vex128 plain 5 (.base 0 .none)).seg = .ds ∧
      (∃ k < Form.bytes .vex128,
        canonical s.cpu.laWidth ((s.place .vex128 plain 6 (.base 5 (.d8 0))).lin.toNat + k) = false) ∧
      (s.place .vex128 plain 6 (.base 5 (.d8 0))).seg = .ss := by
  refine ⟨⟨15, by decide, by decide⟩, by decide, ⟨15, by decide, by decide⟩, by decide⟩

/-- The same past the segment limit in protected mode and past FFFFH in virtual-8086 mode, there at an aligned linear
address. -/
theorem witness_bad_address_old :
    (let s := { State.withG (flat idle) 0 0xFF1 with ds := Segment.mk 0 0xFFF };
      (s.segment (s.place .vex128 plain 5 (.base 0 .none)).seg).limit.toNat + 1 <
        (s.place .vex128 plain 5 (.base 0 .none)).off.toNat + Form.bytes .vex128) ∧
      let s := { idle with mode := Mode.v86, defAddr := DefAddr.a16, ds := Segment.mk 8 0xFFFF };
      let q := s.place .sse plain 6 (.disp16 0xFFF8)
      Enabled .sse s ∧ q.lin.toNat % 16 = 0 ∧ Untouched s q 16 ∧ 0x10000 < q.off.toNat + Form.bytes .sse :=
  ⟨by decide, enabled_of (by decide), by decide, untouched_of _ _ rfl, by decide⟩

/-- `PageFaultIsReported`: the operand's last byte alone lies in the page. -/
theorem witness_page_fault :
    let s := { State.withG idle 0 0x1FF1 with xlat := [TransRange.mk 0x2000 0x1000 (.page true false true) 5] }
    let q := s.place .evex128 plain 7 (.base 0 .none)
    Enabled .evex128 s ∧ AddressOk s q 16 ∧ s.mode ≠ .real ∧
      ∃ k < 16, 0x2000 ≤ s.byteAddr q.lin k ∧ s.byteAddr q.lin k < 0x2000 + 0x1000 :=
  ⟨enabled_of (by decide), addressOk_of (by decide), by decide, 15, by decide, by decide, by decide⟩

/-- `SegmentCheckIsReported`: an entry that the operand's last byte alone touches, through DS and, beside an entry for
another segment, through SS. -/
theorem witness_segment_check :
    (let s := { State.withG (flat idle) 0 0x1FF0 with xlat := [TransRange.mk 0x1FFF 1 (.segment .ds) 0] }
      let q := s.place .sse plain 5 (.base 0 .none)
      Enabled .sse s ∧ q.lin.toNat % 16 = 0 ∧ AddressOk s q 16 ∧ SegmentCheckFails s q 16 ∧ q.seg ≠ .ss) ∧
      let s := { State.withG (flat idle) 5 0x1FE1 with
        xlat := [TransRange.mk 0x1FF0 1 (.segment .ds) 0, TransRange.mk 0x2000 1 (.segment .ss) 0] }
      let q := s.place .vex256 plain 6 (.base 5 (.d8 0))
      Enabled .vex256 s ∧ AddressOk s q 32 ∧ SegmentCheckFails s q 32 ∧ q.seg = .ss ∧
        ∀ e ∈ s.xlat, ∀ p u r, e.kind ≠ .page p u r :=
  ⟨⟨enabled_of (by decide), by decide, addressOk_of (by decide),
      ⟨rfl, _, .head _, rfl, 15, by decide, by decide, by decide⟩, by decide⟩,
    enabled_of (by decide), addressOk_of (by decide),
    ⟨rfl, _, .tail _ (.head _), rfl, 31, by decide, by decide, by decide⟩, by decide, by decide⟩

/-- `ApplicableOperandFaultIsRaised`: an SSE operand both misaligned and not canonical; an operand over two pages that
each report a fault, and a segment check that fails beside one. -/
theorem witness_several_faults :
    (let s := State.withG idle 0 0x7FFFFFFFFFF1
      let q := s.place .sse plain 5 (.base 0 .none)
      Enabled .sse s ∧ q.lin.toNat % 16 ≠ 0 ∧ ¬AddressOk s q 16) ∧
      (let s := { State.withG idle 0 0x1FF1 with
          xlat := [TransRange.mk 0x1000 0x1000 (.page false false false) 0, ⟨0x2000, 0x1000, .page true true false, 0⟩] }
        let q := s.place .evex128 plain 7 (.base 0 .none)
        Enabled .evex128 s ∧ s.mode ≠ .real ∧ s.memFaults .evex128 q =
          [.pf (pageFaultCode false false false) 0x1FF1, .pf (pageFaultCode true true false) 0x2000]) ∧
      let s := { State.withG (flat idle) 0 0x1FF0 with
        xlat := [TransRange.mk 0x1FFF 1 (.segment .ds) 0, ⟨0x1000, 0x1000, .page false true false, 3⟩] }
      let q := s.place .sse plain 5 (.base 0 .none)
      Enabled .sse s ∧ SegmentCheckFails s q 16 ∧ s.memFaults .sse q = [.gp0, .pf (pageFaultCode false true false) 0x1FF3] :=
  ⟨⟨enabled_of (by decide), by decide, fun h => absurd ((addressFaults_eq_nil_iff _ _ _).2 h) (by decide)⟩,
    ⟨enabled_of (by decide), by decide, by decide⟩,
    enabled_of (by decide), ⟨rfl, _, .head _, rfl, 15, by decide, by decide, by decide⟩, by decide⟩

/-- `CanonicalAddresses`: the edges of both widths, and an address past the top. -/
theorem witness_canonical :
    canonical .w48 (0x7FFFFFFFFFFF#64).toNat = true ∧ canonical .w48 (0x800000000000#64).toNat = false ∧
      canonical .w48 (0xFFFF800000000000#64).toNat = true ∧ canonical .w48 (0xFFFF7FFFFFFFFFFF#64).toNat = false ∧
      canonical .w57 (0xFFFFFFFFFFFFFF#64).toNat = true ∧ canonical .w57 (0x100000000000000#64).toNat = false ∧
      canonical .w57 (0xFF00000000000000#64).toNat = true ∧ (2 ^ 64 : Nat) ≤ 2 ^ 64 := by decide

/-- `MaskSuppressesNoFault` and `ReportedFaultApplies`: each exception is some form's. -/
theorem witness_faults :
    exec (.evex256 plain (ctl 0 false) 1 (.mem (.base 0 .none)) 0) (State.withG idle 0 0x800000000000) = .fault .gp0 ∧
      exec (.evex128 plain (ctl 0 false) 1 (.mem (.base 5 (.d8 0))) 0) (State.withG idle 5 0x800000000000) = .fault .ss0 ∧
      exec (.evex512 plain (ctl 0 false) 1 (.mem (.base 0 .none)) 0)
        { idle with xlat := [⟨0, 1, .page true true false, 0⟩] } = .fault (.pf 0b00101 0) ∧
      exec (.evex512 plain (ctl 0 false) 1 (.reg 2) 0) { idle with cr0 := 0x60000018 } = .fault .nm ∧
      exec (.evex512 plain ⟨0, true, false, false, 0⟩ 1 (.reg 2) 0) idle = .fault .ud ∧
      exec (.vex128C5 plain 15 1 (.mem (.base 0 .none)) 0) { flat idle with xlat := [⟨15, 1, .segment .ds, 0⟩] } =
        .fault .gp0 ∧
      exec (.vex128C5 plain 15 1 (.mem (.base 5 (.d8 0))) 0) { flat idle with xlat := [⟨15, 1, .segment .ss, 0⟩] } =
        .fault .ss0 :=
  ⟨eq_fault (by decide), eq_fault (by decide), eq_fault (by decide), eq_fault (by decide), eq_fault (by decide),
    eq_fault (by decide), eq_fault (by decide)⟩

/-- `DoubtfulReadsAreRefused`: a misaligned operand under alignment checking, one that is half outside ordinary memory,
and one that is outside it and aligned, under alignment checking. -/
theorem witness_doubtful_reads :
    (let s := { State.withG idle 0 0x2001 with cr0 := 0x60040010, rflags := 0x40002, cpl := 3 }
      let q := s.place .vex256 plain 5 (.base 0 .none)
      Enabled .vex256 s ∧ AddressOk s q 32 ∧ Untouched s q 32 ∧ AlignmentChecked s ∧ q.lin.toNat % 32 ≠ 0) ∧
      (let s := { State.withG idle 0 0x1FF0 with map := [Region.mk 0x1000 0x1000] }
        let q := s.place .vex256 plain 5 (.base 0 .none)
        Enabled .vex256 s ∧ AddressOk s q 32 ∧ Untouched s q 32 ∧ ¬AlignmentChecked s ∧
          ¬InOrdinaryMemory s q 32) ∧
      let s := { State.withG idle 0 0x2000 with
        cr0 := 0x60040010, rflags := 0x40002, cpl := 3, map := [Region.mk 0x1000 0x1000] }
      let q := s.place .vex256 plain 5 (.base 0 .none)
      Enabled .vex256 s ∧ AddressOk s q 32 ∧ Untouched s q 32 ∧ AlignmentChecked s ∧ q.lin.toNat % 32 = 0 ∧
        ¬InOrdinaryMemory s q 32 := by
  refine ⟨⟨enabled_of (by decide), addressOk_of (by decide), untouched_of _ _ rfl,
    (alignmentChecking_iff _).1 (by decide), by decide⟩,
    ⟨enabled_of (by decide), addressOk_of (by decide), untouched_of _ _ rfl, notChecked_of (by decide),
      fun h => absurd (h 16 (by decide)) (by decide)⟩,
    enabled_of (by decide), addressOk_of (by decide), untouched_of _ _ rfl, (alignmentChecking_iff _).1 (by decide),
    by decide, fun h => absurd (h 0 (by decide)) (by decide)⟩

/-- `StepRunsDecoded`: a fetch that nothing stops, bytes that decode, a program of five bytes and one of fifteen. -/
theorem witness_step :
    (let s := at1000 [0xF3, 0x0F, 0x70, 0xC8, 0x1B];
      s.fetchStop = none ∧ decode s.ctx s.window = .instr (.sse plain 1 (.reg 0) 0x1B) [] ∧
        (∀ k < 5, InProgram s (s.codeByte k)) ∧ ¬InProgram s (s.codeByte 5)) ∧
      let s := flat (at1000 (List.replicate 15 0x67));
      ∀ k < 15, InProgram s (s.codeByte k) := by
  have h : ∀ k < 5, (at1000 [0xF3, 0x0F, 0x70, 0xC8, 0x1B]).programByte (0x1000 + k) = true := by decide
  have h' : ∀ k < 15, (flat (at1000 (List.replicate 15 0x67))).programByte
    ((flat (at1000 (List.replicate 15 0x67))).codeByte k) = true := by decide
  exact ⟨⟨by decide, by decide, fun k hk => inProgram_of (h k hk), notInProgram_of (by decide)⟩,
    fun k hk => inProgram_of (h' k hk)⟩

/-- `StepRunsDecoded`, the decoder's other answers: an undefined encoding, bytes that end too soon with fewer than
fifteen of them and with all, and each refusal. -/
theorem witness_step_other :
    (∀ bs ∈ [[0xF0, 0xF3, 0x0F, 0x70, 0xC8, 0x1B], [0xF3, 0x0F, 0x70, 0xC8], List.replicate 15 0x67,
      [0x0F, 0x70, 0xC8, 0x1B], [0x66, 0xF3, 0x0F, 0x70, 0xC8, 0x1B]], (at1000 bs).fetchStop = none) ∧
      (let d := fun bs => decode (at1000 bs).ctx (at1000 bs).window
      d [0xF0, 0xF3, 0x0F, 0x70, 0xC8, 0x1B] = .undefined ∧ d [0xF3, 0x0F, 0x70, 0xC8] = .truncated ∧
        d (List.replicate 15 0x67) = .truncated ∧ d [0x0F, 0x70, 0xC8, 0x1B] = .refused .notPSHUFHW ∧
        d [0x66, 0xF3, 0x0F, 0x70, 0xC8, 0x1B] = .refused .prefixCombination) ∧
      (let s := flat (at1000 [0x62, 0xD1, 0x7E, 0x48, 0x70, 0xCA, 0x1B])
      s.fetchStop = none ∧ decode s.ctx s.window = .refused .evexExtensionBitsMode32) ∧
      (let s := flat (at1000 [0x67, 0x62, 0xF1, 0x7E, 0x48, 0x70, 0x0F, 0x1B])
      s.fetchStop = none ∧ decode s.ctx s.window = .refused .evex16BitAddressing) ∧
      let s := { flat (at1000 [0xC5, 0xFA, 0x70, 0xCA, 0x03]) with
        cpu := { fullCpu with features := ⟨true, false, false, false, false, false⟩ } }
      s.fetchStop = none ∧ decode s.ctx s.window = .refused .notPSHUFHW := by decide

/-- `TooLongRaisesGp`: fifteen address-size bytes. -/
theorem witness_too_long :
    (at1000 (List.replicate 15 0x67)).fetchStop = none ∧ (at1000 (List.replicate 15 0x67)).window.length = 15 ∧
      ∀ x ∈ (at1000 (List.replicate 15 0x67)).window, isLeading (at1000 (List.replicate 15 0x67)).ctx x = true := by
  decide

/-- A program of `n` bytes at `base`, and ip. -/
def State.withProgram (s : State) (ip : Word64) (base n : Nat) : State := { s with ip := ip, program := some ⟨base, n⟩ }

/-- States that keep clear of every boundary, each by no more than it must: ip and the program's last byte, below the
low half's top and 2^64, and below the code-segment limit (here 1FFFH and FFFFFFFFH, segment base 10000H). -/
def clearStates : List State :=
  [idle, flat idle, State.withProgram idle 0x7FFFFFFFFFF0 0x7FFFFFFFFF00 0xF1,
    State.withProgram idle 0xFFFFFFFFFFFFFFF0 0xFFFFFFFFFFFFFF00 0xF1,
    State.withProgram { flat idle with cs := ⟨0x10000, 0x1FFF⟩ } 0x1FF0 0x11F00 0xF1,
    State.withProgram (flat idle) 0xFFFFFFF0 0xFFFFFF00 0xF1]

/-- The same with ip, or the program's end, one byte further; ip far outside the program in the latter. -/
def wrapStates : List State :=
  [State.withProgram idle 0x7FFFFFFFFFF1 0x1000 5, State.withProgram idle 0x1000 0x7FFFFFFFFF00 0xF2,
    State.withProgram idle 0xFFFFFFFFFFFFFFF1 0x1000 5, State.withProgram idle 0x1000 0xFFFFFFFFFFFFFF00 0xF2,
    State.withProgram { flat idle with cs := ⟨0x10000, 0x1FFF⟩ } 0x1FF1 0x11000 5,
    State.withProgram { flat idle with cs := ⟨0x10000, 0x1FFF⟩ } 0x1000 0x11F00 0xF2,
    State.withProgram (flat idle) 0xFFFFFFF1 0x1000 5, State.withProgram (flat idle) 0x1000 0xFFFFFF00 0xF2,
    State.withProgram { flat idle with mode := Mode.real, cs := ⟨0xF0000, 0xFFFF⟩ } 0x1000 0xFFF00 0xF2]

/-- R19 at its boundaries, at launch (the two modes that launch) and at a step. -/
theorem test_ip_wrap :
    (∀ s ∈ clearStates, (launchCheck s).isNone = true ∧ outRefusal (step s) ≠ some .ipWrap) ∧
      (∀ s ∈ wrapStates.take 8, launchCheck s = some .ipWrap) ∧
      ∀ s ∈ wrapStates, outRefusal (step s) = some .ipWrap := by decide

/-- `StepsRefusedBeforeDecoding`: single-step, a breakpoint; ip and program near a boundary and clear of it; an ip that is
not canonical, and one outside the program. -/
theorem witness_fetch_stops :
    ({ idle with rflags := 0x102 } : State).rflags.getLsbD 8 = true ∧
      ({ idle with breakpointsArmed := true } : State).breakpointsArmed = true ∧
      (∀ s ∈ clearStates, ClearOfTop s ∧ s.rflags.getLsbD 8 = false ∧ s.breakpointsArmed = false) ∧
      (∀ s ∈ wrapStates, ¬ClearOfTop s ∧ s.rflags.getLsbD 8 = false ∧ s.breakpointsArmed = false) ∧
      (let s := { idle with ip := 0x800000000000 };
        ClearOfTop s ∧ s.mode = .mode64 ∧ canonical s.cpu.laWidth s.ip.toNat = false) ∧
      let s := State.withProgram idle 0x1005 0x1000 5
      ClearOfTop s ∧ canonical s.cpu.laWidth s.ip.toNat = true ∧ ¬InProgram s (s.codeByte 0) := by
  have h : ∀ s ∈ clearStates, s.codeWraps = false ∧ s.rflags.getLsbD 8 = false ∧ s.breakpointsArmed = false := by decide
  have h' : ∀ s ∈ wrapStates, s.codeWraps = true ∧ s.rflags.getLsbD 8 = false ∧ s.breakpointsArmed = false := by decide
  exact ⟨by decide, rfl, fun s hs => ⟨clear_of (h s hs).1, (h s hs).2⟩, fun s hs => ⟨notClear_of (h' s hs).1, (h' s hs).2⟩,
    ⟨clear_of (by decide), rfl, by decide⟩, clear_of (by decide), by decide, notInProgram_of (by decide)⟩

/-- `LaunchPremises`: states that launch, in both modes, and one for each refused clause. -/
theorem witness_launch :
    (∀ s ∈ clearStates, (s.mode = .mode64 ∨ s.mode = .mode32) ∧ s.cpl ≠ 3 ∧ s.rflags.getLsbD 8 = false ∧
      s.breakpointsArmed = false ∧ ClearOfTop s) ∧
      ({ idle with mode := Mode.v86 } : State).mode ≠ .mode64 ∧
      AlignmentChecked { idle with cr0 := 0x60040010, rflags := 0x40002, cpl := 3 } ∧
      ({ idle with breakpointsArmed := true } : State).breakpointsArmed = true ∧
      ∀ s ∈ wrapStates.take 8, (s.mode = .mode64 ∨ s.mode = .mode32) ∧ s.cpl ≠ 3 ∧ ¬ClearOfTop s := by
  have h : ∀ s ∈ clearStates, (s.mode = .mode64 ∨ s.mode = .mode32) ∧ s.cpl ≠ 3 ∧ s.rflags.getLsbD 8 = false ∧
      s.breakpointsArmed = false ∧ s.codeWraps = false := by decide
  have h' : ∀ s ∈ wrapStates.take 8, (s.mode = .mode64 ∨ s.mode = .mode32) ∧ s.cpl ≠ 3 ∧ s.codeWraps = true := by decide
  exact ⟨fun s hs => let ⟨a, b, c, d, e⟩ := h s hs; ⟨a, b, c, d, clear_of e⟩, by decide,
    (alignmentChecking_iff _).1 (by decide), rfl,
    fun s hs => let ⟨a, b, c⟩ := h' s hs; ⟨a, b, notClear_of c⟩⟩

/-- `RunEndsAtProgramEnd`: a run that has just started where another program ended is not over (R165); it is after the
last byte, in 64-bit mode and in the CS segment. -/
theorem test_run_over :
    (let s := { at1000 [0xF3, 0x0F, 0x70, 0xC8, 0x1B] with ip := 0x1005 };
      s.runOver = true ∧ (s.load [0x90]).runOver = false ∧ (s.load [0x90]).ip = 0x1005) ∧
      (State.withProgram { flat idle with cs := ⟨0x10000, 0x1FFF⟩ } 0x1005 0x11000 5).runOver = true ∧
      (State.withProgram idle 0x1004 0x1000 5).runOver = false ∧ idle.runOver = false := by decide

/-- `LoadedInstructionRuns`: the reset state, and an instruction with the highest register numbers. -/
theorem witness_loaded :
    let i := Instr.evex512 plain (ctl 7 true) 31 (.reg 31) 0xFF
    memWf State.reset.mem = true ∧ i.source = .reg 31 ∧ FieldsOk i ∧
      i.form.supported State.reset.cpu.features = true ∧ i.form.lanes ≤ State.reset.cpu.maxvl.lanes ∧
      i.wf State.reset.launched.ctx = true :=
  ⟨rfl, rfl, ⟨rfl, rfl, rfl, by decide⟩, by decide, by decide, by decide⟩

/-- `StepKeepsInvariant`: a state that meets the invariant and steps on. -/
theorem witness_invariant :
    (at1000 [0xF3, 0x0F, 0x70, 0xC8, 0x1B]).Inv ∧ (at1000 [0xF3, 0x0F, 0x70, 0xC8, 0x1B]).StepsOn := by
  refine ⟨⟨by decide, by decide, by decide, ?_⟩, exists_next (by decide)⟩
  show canonical (at1000 [0xF3, 0x0F, 0x70, 0xC8, 0x1B]).cpu.laWidth
    (at1000 [0xF3, 0x0F, 0x70, 0xC8, 0x1B]).ip.toNat = true
  decide

end Sys2Proof.Tests
end

section
/-! SUPPORT. What a completing form leaves alone, what the value it writes depends on, and the words of that value. -/

namespace Sys2Proof.Machine

/-! ## The frame of a completing form -/

theorem State.SameBut.trans {s t u : State} (h : s.SameBut t) (h' : t.SameBut u) : s.SameBut u := by
  unfold State.SameBut at *
  rw [h', h]

theorem complete_sameBut (s : State) (d : VNum) (x : VReg) (n : Nat) : s.SameBut (s.complete d x n) := rfl

theorem afterRead_sameBut (s : State) (n : Nat) : s.SameBut (s.afterRead n) := by
  unfold State.afterRead
  split <;> rfl

theorem afterSource_sameBut (s : State) (f : Form) (src : Operand) : s.SameBut (afterSource s f src) := by
  cases src with
  | reg _ => rfl
  | mem _ => exact afterRead_sameBut s f.bytes

theorem exec_sameBut {i : Instr} {s t : State} (h : exec i s = .next t) : s.SameBut t := by
  obtain ⟨-, -, rfl⟩ := exec_eq_next h
  exact .trans (afterSource_sameBut s i.form i.source) (complete_sameBut _ _ _ _)

theorem exec_getV_of_ne {i : Instr} {s t : State} (h : exec i s = .next t) {r : VNum} (hr : r ≠ i.dest) :
    t.getV r = s.getV r := by
  obtain ⟨-, -, rfl⟩ := exec_eq_next h
  rw [getV_complete_of_ne _ _ _ _ _ hr, getV_afterSource]

/-! ## Words of a shuffled and of a merged value -/

/-- Without a writemask every word is written, whatever the mask register holds (42_vpshufhw_evex.md R111). -/
theorem mergeLane_nomask (t d : Lane) (m : BitVec 8) (z : Bool) : mergeLane t d m true z = t :=
  lane_ext fun _ hi => word_ofWords (word t) hi

theorem maskMerge_nomask (t d : VReg) (m : Word64) (z : Bool) : maskMerge t d m true z = t := by
  simp only [maskMerge, mergeLane_nomask]

/-- The lane shuffle word by word (40_pshufhw_sse.md R90). -/
theorem word_shufHiLane (x : Lane) (imm : BitVec 8) {i : Nat} (hi : i < 8) :
    word (shufHiLane x imm) i = if i < 4 then word x i else word x (4 + selector imm (i % 4)) := by
  apply BitVec.eq_of_getLsbD_eq
  intro j hj
  simp only [word, shufHiLane, BitVec.getLsbD_extractLsb', BitVec.getLsbD_append, hj, decide_true, Bool.true_and]
  match i, hi with
  | 0, _ | 1, _ | 2, _ | 3, _ =>
    simp (disch := omega) only [if_pos, BitVec.getLsbD_extractLsb', decide_eq_true, Bool.true_and, Nat.zero_add]
  | 4, _ | 5, _ | 6, _ | 7, _ =>
    simp (disch := omega) only [if_neg, if_pos, BitVec.getLsbD_extractLsb', decide_eq_true, Bool.true_and,
      Nat.reduceMod]
    congr 1
    omega

theorem lane_shufHi (x : VReg) (imm : BitVec 8) {n : Nat} (hn : n < 4) :
    (shufHi x imm).lane n = shufHiLane (x.lane n) imm := by
  match n, hn with
  | 0, _ | 1, _ | 2, _ | 3, _ => rfl

/-- The shuffle word by word, each word from its own lane (40_pshufhw_sse.md R91). -/
theorem word_shufHi (x : VReg) (imm : BitVec 8) {j : Nat} (hj : j < 32) :
    (shufHi x imm).word j = x.word (shuffledIndex imm j) := by
  have hs := selector_lt imm (j % 4)
  rw [VReg.word_eq, lane_shufHi x imm (by omega), word_shufHiLane _ _ (by omega), VReg.word_eq]
  unfold shuffledIndex
  split
  · rfl
  · unfold selector at *
    rw [show j % 8 % 4 = j % 4 by omega]
    congr 1
    · congr 1
      omega
    · omega

/-! ## What the written value depends on -/

/-- The written value depends on the state through the old destination and the opmask registers other than K[0]. -/
theorem result_congr {i : Instr} {s t : State} (x : VReg) (hv : t.getV i.dest = s.getV i.dest)
    (hk : ∀ a, a ≠ 0 → t.getK a = s.getK a) : result i t x = result i s x := by
  cases i with
  | sse | sseRex => exact congrArg (VReg.keepUpper · _) hv
  | vex128C5 | vex128C4 | vex256C5 | vex256C4 => rfl
  | evex128 p e d | evex256 p e d | evex512 p e d =>
    simp only [result]
    by_cases h0 : e.aaa = 0
    · simp only [h0, decide_true, maskMerge_nomask]
    · rw [hk _ h0, show t.getV d = s.getV d from hv]

/-! ## Fields a form does not look at -/

/-- A change that leaves the memory oracle alone and commutes with moving the counter passes through a read's effect. -/
theorem afterRead_comm (g : State → State) (s : State) (n : Nat) (ho : (g s).oracle = s.oracle)
    (hf : { g s with fresh := (g s).fresh + n } = g { s with fresh := s.fresh + n }) :
    (g s).afterRead n = g (s.afterRead n) := by
  cases h : s.oracle with
  | quietMemory => rw [afterRead_quiet _ _ (ho.trans h), afterRead_quiet _ _ h]
  | anyWriter => simpa only [State.afterRead, ho, h] using hf

/-- `exec_mapNext` for a change that leaves alone the old destination and K[1] to K[7]. -/
theorem exec_mapNext_of_unread (g : State → State) (i : Instr) (s : State)
    (hg : ∀ go, guarded i.form (udFields i) (refusedFields i) (g s) go =
      guarded i.form (udFields i) (refusedFields i) s go)
    (hr : (g s).readSource i.form i.prefixes i.length i.source =
      andThen (s.readSource i.form i.prefixes i.length i.source) fun (x, s') => .next (x, g s'))
    (hv : (g s).getV i.dest = s.getV i.dest) (hk : ∀ a, a ≠ 0 → (g s).getK a = s.getK a)
    (hc : ∀ t x, (g t).complete i.dest x i.length = g (t.complete i.dest x i.length)) :
    exec i (g s) = mapNext g (exec i s) :=
  exec_mapNext g i s hg hr fun x => by rw [result_congr x hv hk, hc]

theorem readSource_setMxcsr (s : State) (f : Form) (p : Prefixes) (len : Nat) (src : Operand) (m : BitVec 32) :
    State.readSource { s with mxcsr := m } f p len src =
      andThen (s.readSource f p len src) fun (x, s') => .next (x, { s' with mxcsr := m }) :=
  readSource_map (fun t => { t with mxcsr := m }) s f p len src (fun _ => rfl) (fun _ => rfl) (fun _ => rfl) rfl
    (fun _ => rfl) (fun _ => rfl) (fun _ => rfl) (afterRead_comm (fun t => { t with mxcsr := m }) s _ rfl rfl)

theorem readSource_setK_zero (s : State) (f : Form) (p : Prefixes) (len : Nat) (src : Operand) (m : Word64) :
    State.readSource { s with k := s.k.set 0 m } f p len src =
      andThen (s.readSource f p len src) fun (x, s') => .next (x, { s' with k := s'.k.set 0 m }) :=
  readSource_map (fun t => { t with k := t.k.set 0 m }) s f p len src (fun _ => rfl) (fun _ => rfl) (fun _ => rfl) rfl
    (fun _ => rfl) (fun _ => rfl) (fun _ => rfl) (afterRead_comm (fun t => { t with k := t.k.set 0 m }) s _ rfl rfl)

theorem getK_setK_zero_of_ne (s : State) (m : Word64) {a : BitVec 3} (h : a ≠ 0) :
    State.getK { s with k := s.k.set 0 m } a = s.getK a := by
  have : 0 ≠ a.toNat := fun e => h (BitVec.eq_of_toNat_eq e.symm)
  simp [State.getK, this]

theorem exec_setK_zero (i : Instr) (s : State) (m : Word64) :
    exec i { s with k := s.k.set 0 m } = mapNext (fun t => { t with k := t.k.set 0 m }) (exec i s) :=
  exec_mapNext_of_unread (fun t => { t with k := t.k.set 0 m }) i s (fun _ => rfl) (readSource_setK_zero ..) rfl
    (fun _ => getK_setK_zero_of_ne s m) fun _ _ => rfl

/-! ## An EVEX form without a mask -/

/-- The parts of an EVEX instruction, one statement for the three constructors. -/
theorem evex_parts {f : Form} {i : Instr} {p : Prefixes} {e : EvexCtl} {d : VNum} {src : Operand} {imm : BitVec 8}
    (hi : (f = .evex128 ∧ i = .evex128 p e d src imm) ∨ (f = .evex256 ∧ i = .evex256 p e d src imm) ∨
      (f = .evex512 ∧ i = .evex512 p e d src imm)) :
    i.form = f ∧ i.prefixes = p ∧ i.source = src ∧ i.dest = d ∧ ∀ s x, result i s x =
      VReg.low f.lanes (maskMerge (shufHi x imm) (s.getV d) (s.getK e.aaa) (decide (e.aaa = 0)) e.z) := by
  obtain ⟨rfl, rfl⟩ | ⟨rfl, rfl⟩ | ⟨rfl, rfl⟩ := hi <;> exact ⟨rfl, rfl, rfl, rfl, fun _ _ => rfl⟩

/-- Where no mask applies, a form that completes leaves below VL the shuffled words of the value it read. -/
theorem word_dest_of_unmasked {i : Instr} {s t : State} {x : VReg} {imm : BitVec 8} (h : exec i s = .next t)
    (hx : SourceIs i.form s i.prefixes i.length i.source x)
    (hres : result i s x = VReg.low i.form.lanes (shufHi x imm)) {j : Nat} (hj : j < 8 * i.form.lanes) :
    (t.getV i.dest).word j = x.word (shuffledIndex imm j) := by
  obtain ⟨s', hs⟩ := hx
  obtain ⟨-, ⟨⟨-, hvl, -⟩, -⟩, rfl⟩ := exec_eq_next h
  have hval : sourceValue s i.form i.prefixes i.length i.source = x :=
    (congrArg Prod.fst (readSource_eq_next hs)).symm
  have hlanes := Form.lanes_le i.form
  rw [hval, getV_complete_same, hres, afterSource_cpu, word_fit _ _ (by omega), word_low _ _ hj,
    word_shufHi _ _ (by omega)]

/-! ## The statements -/

/-- Settles O10: a completing form keeps everything but V, ip and the counter (`exec_sameBut`), and of V it keeps every
register but its destination. -/
theorem onlyDestinationAndIpChange : Obligations.OnlyDestinationAndIpChange := by
  intro i s t h
  refine ⟨fun r hr => exec_getV_of_ne h hr, ?_⟩
  rw [show t = _ from exec_sameBut h]
  simp only [implies_true, and_self]

/-- Settles O12: neither the checks, nor the read of the source, nor the written value look at MXCSR. -/
theorem mxcsrNeitherReadNorWritten : Obligations.MxcsrNeitherReadNorWritten := fun i s m =>
  exec_mapNext_of_unread (fun t => { t with mxcsr := m }) i s (fun _ => rfl) (readSource_setMxcsr ..) rfl
    (fun _ _ => rfl) fun _ _ => rfl

/-- Settles O13: K[0] reaches the written value only where aaa = 000, and there MaskMerge ignores the mask. -/
theorem opmaskZeroNeverRead : Obligations.OpmaskZeroNeverRead := by
  refine ⟨exec_setK_zero, fun f i p e d src imm x s t hi haaa hx h j hj => ?_⟩
  obtain ⟨rfl, rfl, rfl, rfl, hres⟩ := evex_parts hi
  refine word_dest_of_unmasked h hx ?_ hj
  rw [hres, decide_eq_true haaa, maskMerge_nomask]

end Sys2Proof.Machine
end

section
/-! SUPPORT. What the decoder does with legacy bytes and with a prefix that is a form's: one equation for each shape,
the register numbers of a body, and what one LOCK byte more changes. -/

namespace Sys2Proof

theorem Ctx.long_iff (c : Ctx) : c.long = true ↔ c.mode = .mode64 := by simp [Ctx.long]

/-! ## The shape after the legacy bytes -/

section
variable {c : Ctx} {lead : List Byte} (h : ∀ x ∈ lead, isLeading c x = true) (bs : List Byte)
include h

theorem decode_append_0F : decode c (lead ++ 0x0F :: bs) = decodeSse c lead bs := by
  simp only [decode, splitLeading_append c lead _ bs h (notLeading_0F c), if_true]

theorem decode_append_C5 : decode c (lead ++ 0xC5 :: bs) = decodeC5 c lead bs := by
  simp only [decode, splitLeading_append c lead _ bs h (notLeading_C5 c)]
  rfl

theorem decode_append_C4 : decode c (lead ++ 0xC4 :: bs) = decodeC4 c lead bs := by
  simp only [decode, splitLeading_append c lead _ bs h (notLeading_C4 c)]
  rfl

theorem decode_append_62 : decode c (lead ++ 0x62 :: bs) = decodeEvex c lead bs := by
  simp only [decode, splitLeading_append c lead _ bs h (notLeading_62 c)]
  rfl

theorem splitLeading_append_left :
    splitLeading c (lead ++ bs) = (lead ++ (splitLeading c bs).1, (splitLeading c bs).2) := by
  induction lead with
  | nil => rfl
  | cons x lead ih =>
    have hx := h x List.mem_cons_self
    have := ih fun y hy => h y (List.mem_cons_of_mem _ hy)
    simp [splitLeading, hx, this]

/-- Bytes that all may lead are the first of the leading bytes before a byte that may not. -/
theorem leading_of_append_eq {lead' : List Byte} {x : Byte} {bs' : List Byte}
    (h' : ∀ y ∈ lead', isLeading c y = true) (hx : isLeading c x = false) (heq : lead ++ bs = lead' ++ x :: bs') :
    ∃ b, lead' = lead ++ b ∧ bs = b ++ x :: bs' := by
  have hsplit := splitLeading_append_left h bs
  rw [heq, splitLeading_append c lead' x bs' h' hx, Prod.mk.injEq] at hsplit
  obtain ⟨hlead, hrest⟩ := hsplit
  exact ⟨_, hlead, by rw [hrest, splitLeading_join]⟩

end

/-! ## Bytes that are a form's -/

/-- After legacy bytes that the SSE form admits, `0F 70` and a body are #UD with a LOCK byte among them, else an
instruction (30_encoding.md R52 to R54). -/
theorem decodeSse_of_body {c : Ctx} {lead bs rest : List Byte} {y : Body} (hok : sseLeadOk c lead = true)
    (hbody : takeBody (c.asz (prefixesOf lead).addrSize)
      { r' := false, r := ((rexOf c lead).getD 0x40).getLsbD 2, x := ((rexOf c lead).getD 0x40).getLsbD 1,
        b := ((rexOf c lead).getD 0x40).getLsbD 0, xs := false } bs = some (y, rest)) :
    decodeSse c lead (0x70 :: bs) =
      if lead.contains 0xF0 then .undefined
      else if (rexOf c lead).isSome then .instr (.sseRex (prefixesOf lead) y.d y.src y.imm) rest
      else .instr (.sse (prefixesOf lead) y.d y.src y.imm) rest := by
  have hF3 : lead.count 0xF3 = 1 := by
    simp only [sseLeadOk, Bool.and_eq_true, decide_eq_true_eq] at hok
    obtain ⟨⟨⟨⟨⟨hF3, -⟩, -⟩, -⟩, -⟩, -⟩ := hok
    exact hF3
  have hop : ¬((0x70 : Byte) ≠ 0x70 ∨ lead.count 0xF3 = 0) := by
    rw [hF3]
    decide
  simp only [decodeSse, if_neg hop, hok, hbody, Bool.not_true, Bool.false_eq_true, if_false]

/-- A two-byte VEX prefix with pp = 10 is a form's, where `C5` is a prefix (30_encoding.md R71, R83). -/
theorem decodeC5_of_form {c : Ctx} {v1 : Byte} (lead bs : List Byte) (hpp : v1.extractLsb' 0 2 = 2)
    (hc : c.long = true ∨ fieldTop v1 = 3 ∧ c.vex = true) :
    decodeC5 c lead (v1 :: 0x70 :: bs) =
      decodeVexBody c lead { r' := false, r := !v1.getLsbD 7, x := false, b := false, xs := false }
        (fun p => if v1.getLsbD 2 then .vex256C5 p (v1.extractLsb' 3 4) else .vex128C5 p (v1.extractLsb' 3 4)) bs := by
  rcases hc with hc | ⟨htop, hvex⟩ <;> cases hL : v1.getLsbD 2 <;> simp [decodeC5, -BitVec.getLsbD_eq_getElem, *]

/-- A three-byte VEX prefix with pp = 10 and mmmmm = 00001 is a form's, where `C4` is a prefix (R72, R83). -/
theorem decodeC4_of_form {c : Ctx} {v1 v2 : Byte} (lead bs : List Byte) (hpp : v2.extractLsb' 0 2 = 2)
    (hmap : v1.extractLsb' 0 5 = 1) (hc : c.long = true ∨ fieldTop v1 = 3 ∧ c.vex = true) :
    decodeC4 c lead (v1 :: v2 :: 0x70 :: bs) =
      decodeVexBody c lead
        { r' := false, r := !v1.getLsbD 7, x := !v1.getLsbD 6, b := c.long && !v1.getLsbD 5, xs := false }
        (fun p => if v2.getLsbD 2 then .vex256C4 p (v2.extractLsb' 3 4) else .vex128C4 p (v2.extractLsb' 3 4)) bs := by
  rcases hc with hc | ⟨htop, hvex⟩ <;> cases hL : v2.getLsbD 2 <;> simp [decodeC4, -BitVec.getLsbD_eq_getElem, *]

/-- An EVEX prefix with its fixed bits right, pp = 10, mm = 01 and L'L a form's, where `62` is a prefix (R74, R83). -/
theorem decodeEvex_of_form {c : Ctx} {p0 p1 p2 : Byte}
    {mk : Prefixes → EvexCtl → VNum → Operand → BitVec 8 → Instr}
    (lead bs : List Byte) (hfix0 : p0.extractLsb' 2 2 = 0) (hfix1 : p1.getLsbD 2 = true)
    (hpp : p1.extractLsb' 0 2 = 2) (hmap : p0.extractLsb' 0 2 = 1) (hmk : evexForm (p2.extractLsb' 5 2) = some mk)
    (hc : c.long = true ∨ fieldTop p0 = 3 ∧ c.evex = true) :
    decodeEvex c lead (p0 :: p1 :: p2 :: 0x70 :: bs) = decodeEvexBody c lead p0 (evexCtl p1 p2) mk bs := by
  rcases hc with hc | ⟨htop, hevex⟩ <;> simp [decodeEvex, *]

theorem evexForm_eq_some {ll : BitVec 2} {mk : Prefixes → EvexCtl → VNum → Operand → BitVec 8 → Instr}
    (h : evexForm ll = some mk) :
    ll = 0 ∧ mk = .evex128 ∨ ll = 1 ∧ mk = .evex256 ∨ ll = 2 ∧ mk = .evex512 := by
  unfold evexForm at h
  split at h
  · exact .inl ⟨by assumption, by simpa using h.symm⟩
  · split at h
    · exact .inr (.inl ⟨by assumption, by simpa using h.symm⟩)
    · split at h
      · exact .inr (.inr ⟨by assumption, by simpa using h.symm⟩)
      · simp at h

/-! ## Register numbers -/

theorem vnum_toNat : ∀ x' x f, (vnum x' x f).toNat = 16 * x'.toNat + 8 * x.toNat + f.toNat := by decide +kernel

/-- The registers of a body: ModRM.reg with R' and R, and for mod = 11 alone ModRM.rm with the source's bit and B
(30_encoding.md R59, R60). -/
theorem takeBody_registers {asz : AddrSize} {e : Ext} {modrm : Byte} {bs rest : List Byte} {y : Body}
    (h : takeBody asz e (modrm :: bs) = some (y, rest)) :
    y.d = vnum e.r' e.r (fieldMid modrm) ∧ (fieldTop modrm = 3 ↔ ∃ s, y.src = .reg s) ∧
      ∀ s, y.src = .reg s → s = vnum e.xs e.b (fieldLow modrm) := by
  simp only [takeBody] at h
  split at h
  · rename_i src imm rest' hsrc
    obtain ⟨rfl, -⟩ := by simpa using h
    refine ⟨rfl, ?_⟩
    unfold takeOperand at hsrc
    split at hsrc
    · rename_i hmod
      obtain ⟨rfl, -⟩ := by simpa using hsrc
      exact ⟨⟨fun _ => ⟨_, rfl⟩, fun _ => hmod⟩, fun s hs => by simpa using hs.symm⟩
    · rename_i hmod
      obtain ⟨a, -, ha⟩ := Option.map_eq_some_iff.1 hsrc
      obtain ⟨rfl, -⟩ := by simpa using ha
      exact ⟨⟨fun hm => absurd hm hmod, by simp⟩, by simp⟩
  · simp at h

/-- An instruction of form `f` with the registers ModRM gives: `nd` and `ns` are what extension bits add to ModRM.reg
and, for mod = 11, to ModRM.rm (30_encoding.md R60). -/
def RegistersAre (i : Instr) (f : Form) (modrm : Byte) (nd ns : Nat) : Prop :=
  i.form = f ∧ i.dest.toNat = nd + (modrm.extractLsb' 3 3).toNat ∧
    (modrm.extractLsb' 6 2 = 3 ↔ ∃ s, i.source = .reg s) ∧
    ∀ s, i.source = .reg s → s.toNat = ns + (modrm.extractLsb' 0 3).toNat

theorem registersAre_of_takeBody {asz : AddrSize} {e : Ext} {modrm : Byte} {bs rest : List Byte} {y : Body}
    {i : Instr} {f : Form} {nd ns : Nat} (h : takeBody asz e (modrm :: bs) = some (y, rest))
    (hi : i.form = f ∧ i.dest = y.d ∧ i.source = y.src) (hnd : nd = 16 * e.r'.toNat + 8 * e.r.toNat)
    (hns : ns = 16 * e.xs.toNat + 8 * e.b.toNat) : RegistersAre i f modrm nd ns := by
  obtain ⟨hform, hdest, hsrc⟩ := hi
  obtain ⟨hd, hreg, hs⟩ := takeBody_registers h
  rw [RegistersAre, hdest, hsrc, hd, vnum_toNat, hnd]
  refine ⟨hform, rfl, hreg, fun s h => ?_⟩
  rw [hs s h, vnum_toNat, hns]
  rfl

theorem rexOf_of_noRex {c : Ctx} {lead : List Byte} (h : ∀ x ∈ lead, isRex c x = false) : rexOf c lead = none := by
  rw [rexOf, Option.filter_eq_none_iff]
  intro x hx
  simp [h x (List.mem_of_getLast? hx)]

theorem rexOf_append_rex {c : Ctx} {rex : Byte} (lead : List Byte) (h : isRex c rex = true) :
    rexOf c (lead ++ [rex]) = some rex := by
  simp [rexOf, h]

theorem getLsbD_of_fieldTop : ∀ b : Byte, fieldTop b = 3 → b.getLsbD 7 = true := by decide +kernel

theorem getLsbD_of_high_nibble : ∀ b : Byte, b.extractLsb' 4 4 = 15 →
    b.getLsbD 7 = true ∧ b.getLsbD 6 = true ∧ b.getLsbD 5 = true ∧ b.getLsbD 4 = true := by decide +kernel

theorem fieldTop_of_high_nibble : ∀ b : Byte, b.extractLsb' 4 4 = 15 → fieldTop b = 3 := by decide +kernel

/-- What counts in 64-bit mode only may be counted always where it is zero outside it. -/
theorem ite_mode64 {c : Ctx} {n : Nat} (h : c.long = true ∨ n = 0) : (if c.mode = .mode64 then n else 0) = n := by
  rw [Ctx.long_iff] at h
  obtain h | rfl := h
  · rw [if_pos h]
  · rw [ite_self]

/-- Outside 64-bit mode a VEX prefix has R stored as 1 (30_encoding.md R71, R83). -/
theorem vex_dest_extension {c : Ctx} {v1 : Byte} (h : c.long = true ∨ fieldTop v1 = 3 ∧ c.vex = true) :
    (if c.mode = .mode64 then 8 * (!v1.getLsbD 7).toNat else 0) = 8 * (!v1.getLsbD 7).toNat :=
  ite_mode64 <| h.imp_right fun ⟨htop, _⟩ => by rw [getLsbD_of_fieldTop v1 htop]; rfl

section
variable {c : Ctx} {lead tail rest : List Byte} {modrm : Byte} {i : Instr}

theorem decodeSse_registers (h : decodeSse c lead (0x70 :: modrm :: tail) = .instr i rest) :
    RegistersAre i .sse modrm (8 * (((rexOf c lead).getD 0x40).getLsbD 2).toNat)
      (8 * (((rexOf c lead).getD 0x40).getLsbD 0).toNat) := by
  obtain ⟨bs, y, heq, -, -, hbody, hi⟩ := decodeSse_eq_instr h
  obtain rfl := (List.cons.inj heq).2
  refine registersAre_of_takeBody hbody ?_ (by simp) (by simp)
  rw [hi]
  split <;> exact ⟨rfl, rfl, rfl⟩

theorem decodeC5_registers {v1 : Byte} (h : decodeC5 c lead (v1 :: 0x70 :: modrm :: tail) = .instr i rest) :
    RegistersAre i (if v1.getLsbD 2 = true then .vex256 else .vex128) modrm
      (if c.mode = .mode64 then 8 * (!v1.getLsbD 7).toNat else 0) 0 := by
  obtain ⟨v, bs, y, heq, -, hc, hbody, -, -, hi⟩ := decodeC5_eq_instr h
  obtain ⟨rfl, -, rfl⟩ := by simpa using heq
  rw [vex_dest_extension hc]
  refine registersAre_of_takeBody hbody ?_ (by simp) (by simp)
  rw [hi]
  split <;> exact ⟨rfl, rfl, rfl⟩

theorem decodeC4_registers {v1 v2 : Byte} (h : decodeC4 c lead (v1 :: v2 :: 0x70 :: modrm :: tail) = .instr i rest) :
    RegistersAre i (if v2.getLsbD 2 = true then .vex256 else .vex128) modrm
      (if c.mode = .mode64 then 8 * (!v1.getLsbD 7).toNat else 0)
      (if c.mode = .mode64 then 8 * (!v1.getLsbD 5).toNat else 0) := by
  obtain ⟨v, w, bs, y, heq, -, -, hc, hbody, -, -, hi⟩ := decodeC4_eq_instr h
  obtain ⟨rfl, rfl, -, rfl⟩ := by simpa using heq
  have hb : (if c.mode = .mode64 then 8 * (!v1.getLsbD 5).toNat else 0) = 8 * (c.long && !v1.getLsbD 5).toNat := by
    simp only [← Ctx.long_iff]
    cases c.long <;> rfl
  rw [vex_dest_extension hc, hb]
  refine registersAre_of_takeBody hbody ?_ (by simp) (by simp)
  rw [hi]
  split <;> exact ⟨rfl, rfl, rfl⟩

/-- Outside 64-bit mode an EVEX prefix has its extension bits stored as 1 (30_encoding.md R78). -/
theorem decodeEvex_registers {p0 p1 p2 : Byte}
    (h : decodeEvex c lead (p0 :: p1 :: p2 :: 0x70 :: modrm :: tail) = .instr i rest) :
    RegistersAre i
      (if p2.extractLsb' 5 2 = 0 then .evex128 else if p2.extractLsb' 5 2 = 1 then .evex256 else .evex512) modrm
      (if c.mode = .mode64 then 16 * (!p0.getLsbD 4).toNat + 8 * (!p0.getLsbD 7).toNat else 0)
      (if c.mode = .mode64 then 16 * (!p0.getLsbD 6).toNat + 8 * (!p0.getLsbD 5).toNat else 0) := by
  obtain ⟨q0, q1, q2, bs, y, mk, heq, -, -, -, -, hmk, hc, hbody, -, -, -, hi⟩ := decodeEvex_eq_instr h
  obtain ⟨rfl, rfl, rfl, -, rfl⟩ := by simpa using heq
  have hext := hc.imp_right fun hp => getLsbD_of_high_nibble p0 hp.1
  rw [ite_mode64 (hext.imp_right fun ⟨h7, _, _, h4⟩ => by rw [h7, h4]; rfl),
    ite_mode64 (hext.imp_right fun ⟨_, h6, h5, _⟩ => by rw [h6, h5]; rfl)]
  refine registersAre_of_takeBody hbody ?_ rfl rfl
  obtain ⟨hll, rfl⟩ | ⟨hll, rfl⟩ | ⟨hll, rfl⟩ := evexForm_eq_some hmk <;>
    rw [hi, hll] <;> exact ⟨rfl, rfl, rfl⟩

end

/-! ## One LOCK byte more -/

section
variable (a b : List Byte)

theorem prefixesOf_lock : prefixesOf (a ++ 0xF0 :: b) = prefixesOf (a ++ b) := by
  simp [prefixesOf, List.findSome?_append, segOverride]

theorem singleOverrides_lock : singleOverrides (a ++ 0xF0 :: b) = singleOverrides (a ++ b) := by
  simp [singleOverrides, isSegByte, segOverride]

theorem rexOf_lock {c : Ctx} (h : ∀ x ∈ a, isRex c x = false) : rexOf c (a ++ 0xF0 :: b) = rexOf c (a ++ b) := by
  cases b with
  | nil =>
    rw [List.append_nil, rexOf_of_noRex h]
    simp [rexOf, isRex]
  | cons x b => simp [rexOf]

theorem sseLeadOk_lock {c : Ctx} (h : ∀ x ∈ a, isRex c x = false) (hlock : (a ++ b).contains 0xF0 = false)
    (hok : sseLeadOk c (a ++ b) = true) : sseLeadOk c (a ++ 0xF0 :: b) = true := by
  have hcount : (a ++ b).count 0xF0 = 0 := List.count_eq_zero.2 (by simpa using hlock)
  simp only [sseLeadOk, singleOverrides_lock, rexOf_lock a b h, Bool.and_eq_true, decide_eq_true_eq] at hok ⊢
  simp_all [isRex]

end

theorem decodeSse_lock {c : Ctx} {a b bs rest : List Byte} {i : Instr} (ha : ∀ x ∈ a, isRex c x = false)
    (h : decodeSse c (a ++ b) bs = .instr i rest) : decodeSse c (a ++ 0xF0 :: b) bs = .undefined := by
  obtain ⟨bs, y, rfl, hok, hlock, hbody, -⟩ := decodeSse_eq_instr h
  rw [← prefixesOf_lock, ← rexOf_lock a b ha] at hbody
  rw [decodeSse_of_body (sseLeadOk_lock a b ha hlock hok) hbody, if_pos (by simp)]

/-! ## A byte that spoils VEX and EVEX forms -/

section
variable {c : Ctx} {lead lead' bs rest : List Byte} {i : Instr} (hsp : lead'.any (spoilsVex c) = true)
  (h67 : (prefixesOf lead').addrSize = (prefixesOf lead).addrSize)
include hsp h67

theorem decodeVexBody_of_spoiled {e : Ext} {y : Body} (mk : Prefixes → VNum → Operand → BitVec 8 → Instr)
    (h : takeBody (c.asz (prefixesOf lead).addrSize) e bs = some (y, rest)) :
    decodeVexBody c lead' e mk bs = .undefined := by
  simp [decodeVexBody, h67, h, afterLead, hsp]

/-- What decodes after some legacy bytes raises #UD after others of which one spoils it, where both have a `67` or
neither has (30_encoding.md R54, R73 (c), R75 (e)). -/
theorem decodeC5_of_spoiled (h : decodeC5 c lead bs = .instr i rest) : decodeC5 c lead' bs = .undefined := by
  obtain ⟨v1, bs, y, rfl, hpp, hc, hbody, -⟩ := decodeC5_eq_instr h
  rw [decodeC5_of_form _ _ hpp hc, decodeVexBody_of_spoiled hsp h67 _ hbody]

theorem decodeC4_of_spoiled (h : decodeC4 c lead bs = .instr i rest) : decodeC4 c lead' bs = .undefined := by
  obtain ⟨v1, v2, bs, y, rfl, hpp, hmap, hc, hbody, -⟩ := decodeC4_eq_instr h
  rw [decodeC4_of_form _ _ hpp hmap hc, decodeVexBody_of_spoiled hsp h67 _ hbody]

theorem decodeEvex_of_spoiled (h : decodeEvex c lead bs = .instr i rest) : decodeEvex c lead' bs = .undefined := by
  obtain ⟨p0, p1, p2, bs, y, mk, rfl, hfix0, hfix1, hpp, hmap, hmk, hc, hbody, -⟩ := decodeEvex_eq_instr h
  have hc' := hc.imp_right (And.imp_left (fieldTop_of_high_nibble p0))
  rw [decodeEvex_of_form _ _ hfix0 hfix1 hpp hmap hmk hc']
  simp [decodeEvexBody, h67, hbody, hsp]

end

/-- Bytes that decode are undefined with one LOCK byte more among the legacy bytes before REX (30_encoding.md R54). -/
theorem decode_lock {c : Ctx} {a b rest : List Byte} {i : Instr}
    (ha : ∀ x ∈ a, isLeading c x = true ∧ isRex c x = false) (h : decode c (a ++ b) = .instr i rest) :
    decode c (a ++ 0xF0 :: b) = .undefined := by
  obtain ⟨lead, x, bs, hbytes, hlead, hshape⟩ := decode_eq_instr h
  have hx : isLeading c x = false := by
    rcases hshape with ⟨rfl, -⟩ | ⟨rfl, -⟩ | ⟨rfl, -⟩ | ⟨rfl, -⟩
    exacts [notLeading_0F c, notLeading_C5 c, notLeading_C4 c, notLeading_62 c]
  obtain ⟨b, rfl, rfl⟩ := leading_of_append_eq (fun x hx => (ha x hx).1) _ hlead hx hbytes
  have hlead' : ∀ y ∈ a ++ 0xF0 :: b, isLeading c y = true := by
    intro y hy
    rcases List.mem_append.1 hy with hy | hy
    · exact (ha y hy).1
    · rcases List.mem_cons.1 hy with rfl | hy
      · simp [isLeading]
      · exact hlead y (List.mem_append_right a hy)
  have hsp : (a ++ 0xF0 :: b).any (spoilsVex c) = true := by simp [spoilsVex]
  have h67 := congrArg Prefixes.addrSize (prefixesOf_lock a b)
  rw [← List.cons_append, ← List.append_assoc]
  rcases hshape with ⟨rfl, hs⟩ | ⟨rfl, hs⟩ | ⟨rfl, hs⟩ | ⟨rfl, hs⟩
  · rw [decode_append_0F hlead', decodeSse_lock (fun x hx => (ha x hx).2) hs]
  · rw [decode_append_C5 hlead', decodeC5_of_spoiled hsp h67 hs]
  · rw [decode_append_C4 hlead', decodeC4_of_spoiled hsp h67 hs]
  · rw [decode_append_62 hlead', decodeEvex_of_spoiled hsp h67 hs]

end Sys2Proof
end

section
/-! SUPPORT. Addresses in 64-bit mode, an undefined encoding at a step, and the statements about register numbers, LOCK
and addressing. -/

namespace Sys2Proof.Machine

/-! ## Addresses -/

/-- mod = 00 with rm = 101 spells a four-byte displacement alone at address sizes 32 and 64 (30_encoding.md R62). -/
theorem takeOperand_disp32 {asz : AddrSize} (h : asz ≠ .a16) (e : Ext) (d : BitVec 32) (rest : List Byte) :
    takeOperand asz e 0 5 (bytes32 d ++ rest) = some (.mem (.disp32 d), rest) := by
  simp [takeOperand, takeAddr32, h, take32_bytes32]

theorem asz_of_mode64 {s : State} (h : s.mode = .mode64) (p : Prefixes) :
    s.asz p = if p.addrSize then .a32 else .a64 := by
  simp only [State.asz, h, addrSizeOf]

/-- RIP-relative addressing starts from the address of the next instruction (R63). -/
theorem offset_disp32_of_mode64 {s : State} (h : s.mode = .mode64) (asz : AddrSize) (n len : Nat) (d : BitVec 32) :
    s.offset asz n len (.disp32 d) = truncAddr asz (s.ip + BitVec.ofNat 64 len + d.signExtend 64) := by
  simp only [State.offset, State.nextIp, h]

theorem segOf_of_noOverride {p : Prefixes} (h : p.seg = none) (s : State) (a : Addr) : s.segOf p a = defaultSeg a := by
  simp only [State.segOf, h]

theorem length_of_disp32 {i : Instr} {d : BitVec 32} (h : i.source = .mem (.disp32 d)) :
    i.length = i.prefixes.size + i.opcodeSize + 1 + 4 + 1 := by
  rw [Instr.length, h]
  rfl

/-! ## A step over an undefined encoding -/

theorem step_of_undefined {s : State} (hs : s.fetchStop = none) (h : decode s.ctx s.window = .undefined) :
    step s = .fault .ud := by
  simp only [step, hs, h, raise]

/-! ## The statements -/

/-- Settles O21: each shape's lemma about the registers it decodes, the SSE form's with the REX byte in effect. -/
theorem registerNumbers : Obligations.RegisterNumbers := by
  intro c lead tail rest modrm i hlead
  have hlead' : ∀ x ∈ lead, isLeading c x = true := fun x hx => (hlead x hx).1
  refine ⟨fun h => ?sse, fun rex hrex h => ?sseRex, fun v1 h => ?c5, fun v1 v2 h => ?c4, fun p0 p1 p2 h => ?evex⟩
  case sse =>
    rw [decode_append_0F hlead'] at h
    have hregs := decodeSse_registers h
    rw [rexOf_of_noRex fun x hx => (hlead x hx).2] at hregs
    simpa [RegistersAre] using hregs
  case sseRex =>
    have hall : ∀ x ∈ lead ++ [rex], isLeading c x = true := by
      simpa [or_imp, forall_and, isLeading, hrex] using hlead'
    rw [List.append_cons, decode_append_0F hall] at h
    have hregs := decodeSse_registers h
    rwa [rexOf_append_rex lead hrex] at hregs
  case c5 =>
    rw [decode_append_C5 hlead'] at h
    simpa only [RegistersAre, Nat.zero_add] using decodeC5_registers h
  case c4 => exact decodeC4_registers (decode_append_C4 hlead' _ ▸ h)
  case evex => exact decodeEvex_registers (decode_append_62 hlead' _ ▸ h)

/-- Settles O26: LOCK makes every form's encoding undefined (`decode_lock`). -/
theorem lockRaisesUd : Obligations.LockRaisesUd := by
  intro s a b rest i ha h hs hw
  exact step_of_undefined hs (by rw [hw, decode_lock ha h])

/-- Settles O30: the spelling, then the offset from the next instruction's address at both address sizes. -/
theorem ripRelativeOffset : Obligations.RipRelativeOffset := by
  refine ⟨fun e d rest => ⟨takeOperand_disp32 (by decide) e d rest, takeOperand_disp32 (by decide) e d rest⟩,
    fun s i d hmode hsrc => ⟨?_, length_of_disp32 hsrc, fun hseg => segOf_of_noOverride hseg s _⟩⟩
  rw [State.place, offset_disp32_of_mode64 hmode, asz_of_mode64 hmode]
  split <;> rfl

/-- Settles O31: the offset adds `dispValue`, which multiplies a one-byte displacement alone by the form's N. -/
theorem compressedDisplacement : Obligations.CompressedDisplacement := by
  intro s f asz len b x sc form v h w N
  have hN : f.dispScale = N := by cases f <;> rfl
  rw [hN]
  refine ⟨rfl, rfl, fun hf => ?_, rfl, rfl, rfl⟩
  have hN1 : N = 1 := by rw [← hN, Form.dispScale, hf]; rfl
  simp [hN1, State.offset, dispValue]

end Sys2Proof.Machine
end

section
/-! SUPPORT. The lane shuffle through its selectors: the two halves of a shuffled lane, the immediate that has four given
selectors, and the statements about the shuffle's value. -/

namespace Sys2Proof.Machine

/-! ## The two halves of a shuffled lane -/

/-- Word 4 + i of a lane lies 16i bits above the low quadword. -/
theorem extractLsb'_eq_word (x : Lane) (i : Nat) : x.extractLsb' (64 + 16 * i) 16 = word x (4 + i) := by
  rw [word, Nat.mul_add]

/-- Shifting right and slicing is slicing higher up: the two spellings of R90 agree. -/
theorem extractLsb'_ushiftRight {w : Nat} (x : BitVec w) (n start len : Nat) :
    (x >>> n).extractLsb' start len = x.extractLsb' (start + n) len := by
  ext j hj
  simp only [BitVec.getElem_extractLsb', BitVec.getLsbD_ushiftRight]
  congr 1
  omega

theorem lowQuad_shufHiLane (x : Lane) (imm : BitVec 8) :
    (shufHiLane x imm).extractLsb' 0 64 = x.extractLsb' 0 64 :=
  BitVec.extractLsb'_append_eq_right

theorem word_shufHiLane_low (x : Lane) (imm : BitVec 8) {i : Nat} (hi : i < 4) :
    word (shufHiLane x imm) i = word x i := by
  rw [word_shufHiLane x imm (by omega), if_pos hi]

theorem word_shufHiLane_high (x : Lane) (imm : BitVec 8) {i : Nat} (hi : i < 4) :
    word (shufHiLane x imm) (4 + i) = word x (4 + selector imm i) := by
  rw [word_shufHiLane x imm (by omega), if_neg (by omega), Nat.add_mod_left, Nat.mod_eq_of_lt hi]

/-- A lane with the low words of `x` and the high words that `imm` selects is the shuffled lane. -/
theorem eq_shufHiLane {x y : Lane} {imm : BitVec 8} (hlow : ∀ i < 4, word y i = word x i)
    (hhigh : ∀ i < 4, word y (4 + i) = word x (4 + selector imm i)) : y = shufHiLane x imm := by
  refine lane_ext fun i hi => ?_
  rcases Nat.lt_or_ge i 4 with h | h
  · rw [hlow i h, word_shufHiLane_low x imm h]
  · obtain ⟨k, rfl⟩ := Nat.exists_eq_add_of_le h
    rw [hhigh k (by omega), word_shufHiLane_high x imm (by omega)]

/-! ## Immediates by their selectors -/

/-- The immediate whose selectors, from the lowest, are the four given ones. -/
def immOfSelectors (s0 s1 s2 s3 : BitVec 2) : BitVec 8 := s3 ++ s2 ++ s1 ++ s0

theorem selector_immOfSelectors (s0 s1 s2 s3 : BitVec 2) :
    selector (immOfSelectors s0 s1 s2 s3) 0 = s0.toNat ∧ selector (immOfSelectors s0 s1 s2 s3) 1 = s1.toNat ∧
      selector (immOfSelectors s0 s1 s2 s3) 2 = s2.toNat ∧ selector (immOfSelectors s0 s1 s2 s3) 3 = s3.toNat := by
  simp only [selector, immOfSelectors, BitVec.extractLsb'_append_eq_of_le, BitVec.extractLsb'_append_eq_right,
    Nat.reduceMul, Nat.reduceLeDiff, Nat.reduceSub, BitVec.extractLsb'_eq_self, and_self]

/-- R94 (a): E4 selects every word for its own place. -/
theorem shufHiLane_E4 (x : Lane) : shufHiLane x 0xE4 = x := by
  have hE4 : ∀ i < 4, selector 0xE4 i = i := by decide
  exact (eq_shufHiLane (fun _ _ => rfl) fun i hi => by rw [hE4 i hi]).symm

/-- R94 (f): composition composes the selectors. -/
theorem word_shufHiLane_shufHiLane (x : Lane) (a b : BitVec 8) {i : Nat} (hi : i < 4) :
    word (shufHiLane (shufHiLane x a) b) (4 + i) = word x (4 + selector a (selector b i)) := by
  rw [word_shufHiLane_high _ b hi, word_shufHiLane_high x a (selector_lt b i)]

/-- Two shuffles are the one whose selectors are the composed ones. -/
theorem shufHiLane_shufHiLane (x : Lane) {a b c : BitVec 8} (h : ∀ i < 4, selector a (selector b i) = selector c i) :
    shufHiLane (shufHiLane x a) b = shufHiLane x c :=
  eq_shufHiLane (fun _ hi => by rw [word_shufHiLane_low _ b hi, word_shufHiLane_low x a hi])
    fun i hi => by rw [word_shufHiLane_shufHiLane x a b hi, h i hi]

/-- Every choice of four high words, repeats included, is some immediate's (R94 (d)). -/
theorem exists_imm_of_selectors {a b c e : Nat} (ha : a < 4) (hb : b < 4) (hc : c < 4) (he : e < 4) :
    ∃ imm, selector imm 0 = a ∧ selector imm 1 = b ∧ selector imm 2 = c ∧ selector imm 3 = e :=
  ⟨_, selector_immOfSelectors (.ofNatLT a ha) (.ofNatLT b hb) (.ofNatLT c hc) (.ofNatLT e he)⟩

/-! ## The source index -/

/-- A word's source lies in the word's own lane (R91). -/
theorem shuffledIndex_div (imm : BitVec 8) (j : Nat) : shuffledIndex imm j / 8 = j / 8 := by
  have hs : (imm.extractLsb' (2 * (j % 4)) 2).toNat < 4 := selector_lt imm (j % 4)
  unfold shuffledIndex
  split <;> omega

/-! ## The statements -/

/-- Settles O1: the low quadword is appended as it is; a high word is the selected one, by index and by shift and slice. -/
theorem shufHiLaneWords : Obligations.ShufHiLaneWords := by
  intro L imm
  refine ⟨lowQuad_shufHiLane L imm, fun i hi => ?_⟩
  have hword : (shufHiLane L imm).extractLsb' (64 + 16 * i) 16 = L.extractLsb' (64 + 16 * selector imm i) 16 := by
    rw [extractLsb'_eq_word, extractLsb'_eq_word, word_shufHiLane_high L imm hi]
  exact ⟨hword, hword.trans (extractLsb'_ushiftRight L _ 64 16).symm⟩

/-- Settles O2: below VL nothing is cut, and there the shuffle is the lane shuffle of each lane. -/
theorem shufHiByLanes : Obligations.ShufHiByLanes := by
  intro f S imm
  have hlanes := Form.lanes_le f
  refine ⟨fun n hn => ?_, fun j hj => ⟨?_, shuffledIndex_div imm j⟩⟩
  · rw [lane_low _ f hn, lane_shufHi S imm (by omega)]
  · rw [word_low _ f hj, word_shufHi S imm (by omega)]

/-- Settles O3: each law is a fact about the selectors of the immediates it names. -/
theorem shuffleLaws : Obligations.ShuffleLaws := by
  intro L
  have hconst : ∀ i < 4, selector 0x00 i = 0 ∧ selector 0x55 i = 1 ∧ selector 0xAA i = 2 ∧ selector 0xFF i = 3 := by
    decide
  have h1B : ∀ i < 4, 4 + selector 0x1B i = 7 - i := by decide
  have h1B_twice : ∀ i < 4, selector 0x1B (selector 0x1B i) = selector 0xE4 i := by decide
  refine ⟨shufHiLane_E4 L, fun i hi => ?broadcast, fun i hi => ?reversal, ?involution,
    fun a ha b hb c hc e he => ?choice, lowQuad_shufHiLane L, fun a b i hi => word_shufHiLane_shufHiLane L a b hi⟩
  case broadcast =>
    obtain ⟨h0, h1, h2, h3⟩ := hconst i hi
    simp only [word_shufHiLane_high L _ hi, h0, h1, h2, h3, Nat.reduceAdd, and_self]
  case reversal => rw [word_shufHiLane_high L _ hi, h1B i hi]
  case involution => rw [shufHiLane_shufHiLane L h1B_twice, shufHiLane_E4]
  case choice =>
    obtain ⟨imm, h0, h1, h2, h3⟩ := exists_imm_of_selectors ha hb hc he
    have hsel : ∀ i < 4, word (shufHiLane L imm) (4 + i) = word L (4 + selector imm i) :=
      fun _ hi => word_shufHiLane_high L imm hi
    exact ⟨imm, h0 ▸ hsel 0 (by decide), h1 ▸ hsel 1 (by decide), h2 ▸ hsel 2 (by decide), h3 ▸ hsel 3 (by decide)⟩

end Sys2Proof.Machine
end

section
/-! SUPPORT. What the SSE form and the VEX forms leave in V[d], lane by lane and word by word, and the statement that
they agree. -/

namespace Sys2Proof.Machine

/-! ## Words of a value under old upper lanes, and of a shuffle -/

theorem MaxVL.lanes_pos (m : MaxVL) : 0 < m.lanes := by cases m <;> decide

theorem lane_keepUpper (old x : VReg) (n : Nat) :
    (old.keepUpper x).lane n = if n = 0 then x.lane 0 else old.lane n := by
  match n with
  | 0 | 1 | 2 | 3 | _ + 4 => rfl

/-- The low eight words are the new value's. -/
theorem word_keepUpper_low (old x : VReg) {j : Nat} (h : j < 8) : (old.keepUpper x).word j = x.word j := by
  rw [VReg.word_eq, VReg.word_eq, lane_keepUpper, if_pos (by omega), Nat.div_eq_of_lt h]

/-- The words above them are the old value's (40_pshufhw_sse.md R95). -/
theorem word_keepUpper_high (old x : VReg) {j : Nat} (h : 8 ≤ j) : (old.keepUpper x).word j = old.word j := by
  rw [VReg.word_eq, VReg.word_eq, lane_keepUpper, if_neg (by omega)]

/-- A word of a shuffle depends on the source's words of the same lane alone (40_pshufhw_sse.md R91). -/
theorem word_shufHi_congr {x y : VReg} (imm : BitVec 8) {j : Nat} (hj : j < 32)
    (h : ∀ k, k / 8 = j / 8 → x.word k = y.word k) : (shufHi x imm).word j = (shufHi y imm).word j := by
  rw [word_shufHi _ _ hj, word_shufHi _ _ hj]
  exact h _ (shuffledIndex_div imm j)

/-! ## The destination of a form that completes -/

theorem getV_dest_of_exec {i : Instr} {s t : State} {x : VReg} (h : exec i s = .next t)
    (hx : SourceIs i.form s i.prefixes i.length i.source x) :
    t.getV i.dest = (result i s x).fit s.cpu.maxvl := by
  obtain ⟨s', hs⟩ := hx
  obtain ⟨-, -, rfl⟩ := exec_eq_next h
  have hval : sourceValue s i.form i.prefixes i.length i.source = x :=
    (congrArg Prod.fst (readSource_eq_next hs)).symm
  rw [hval, getV_complete_same, afterSource_cpu]

section
variable {f : Form} {i : Instr} {p : Prefixes} {d : VNum} {src : Operand} {imm : BitVec 8} {x : VReg} {s t : State}

/-- The SSE form leaves the shuffled low lane under the old upper lanes (40_pshufhw_sse.md R95). -/
theorem getV_dest_of_sse (hi : i = .sse p d src imm ∨ i = .sseRex p d src imm)
    (h : exec i s = .next t) (hx : SourceIs .sse s p i.length src x) :
    t.getV d = ((s.getV d).keepUpper (shufHi x imm)).fit s.cpu.maxvl := by
  obtain rfl | rfl := hi <;> exact getV_dest_of_exec h hx

/-- The parts of a VEX instruction, one statement for the four constructors. -/
theorem vex_parts {v : BitVec 4}
    (hi : (f = .vex128 ∧ (i = .vex128C5 p v d src imm ∨ i = .vex128C4 p v d src imm)) ∨
      (f = .vex256 ∧ (i = .vex256C5 p v d src imm ∨ i = .vex256C4 p v d src imm))) :
    i.form = f ∧ i.prefixes = p ∧ i.source = src ∧ i.dest = d ∧
      ∀ s x, result i s x = VReg.low f.lanes (shufHi x imm) := by
  obtain ⟨rfl, rfl | rfl⟩ | ⟨rfl, rfl | rfl⟩ := hi <;> exact ⟨rfl, rfl, rfl, rfl, fun _ _ => rfl⟩

/-- A VEX form leaves the shuffled lanes below VL and zero above (41_vpshufhw_vex.md R101, R102): VL fits, or the form
would not have completed. -/
theorem getV_dest_of_vex {v : BitVec 4}
    (hi : (f = .vex128 ∧ (i = .vex128C5 p v d src imm ∨ i = .vex128C4 p v d src imm)) ∨
      (f = .vex256 ∧ (i = .vex256C5 p v d src imm ∨ i = .vex256C4 p v d src imm)))
    (h : exec i s = .next t) (hx : SourceIs f s p i.length src x) :
    t.getV d = VReg.low f.lanes (shufHi x imm) := by
  obtain ⟨rfl, rfl, rfl, rfl, hres⟩ := vex_parts hi
  obtain ⟨-, ⟨⟨-, hvl, -⟩, -⟩, -⟩ := exec_eq_next h
  rw [getV_dest_of_exec h hx, hres, fit_low _ _ _ hvl]

end

/-! ## The statement -/

/-- Settles O15: V[d] is one shuffle under three ways of filling the upper lanes, and a word of the shuffle depends on
its own lane of the source. -/
theorem sseAndVexAgree : Obligations.SseAndVexAgree := by
  intro i1 i2 i3 p1 p2 p3 d1 d2 d3 src1 src2 src3 imm x1 x2 x3 s1 s2 s3 t1 t2 t3 hi1 hi2 hi3 hx1 hx2 hx3 heq h1 h2 h3
  rw [getV_dest_of_sse hi1 h1 hx1, getV_dest_of_vex (.inl ⟨rfl, hi2⟩) h2 hx2,
    getV_dest_of_vex (.inr ⟨rfl, hi3⟩) h3 hx3]
  have hmax := MaxVL.lanes_pos s1.cpu.maxvl
  have hlow : ∀ j < 8, (shufHi x1 imm).word j = (shufHi x2 imm).word j ∧
      (shufHi x2 imm).word j = (shufHi x3 imm).word j := fun j hj =>
    ⟨word_shufHi_congr imm (by omega) fun k hk => (heq k (by omega)).1,
      word_shufHi_congr imm (by omega) fun k hk => (heq k (by omega)).2⟩
  have hzero2 : ∀ j, 8 ≤ j → (VReg.low (Form.lanes .vex128) (shufHi x2 imm)).word j = 0 := fun j hj =>
    word_low_of_le _ .vex128 hj
  refine ⟨fun j hj => ?_, fun j h8 _ => hzero2 j h8, fun j h8 hj => ?_, fun hupper => ?_⟩
  · rw [word_fit _ _ (by omega), word_keepUpper_low _ _ hj, word_low _ .vex128 hj,
      word_low _ .vex256 (Nat.lt_of_lt_of_le hj (by decide))]
    exact hlow j hj
  · rw [word_fit _ _ hj, word_keepUpper_high _ _ h8]
  · have hzero3 : ∀ j, 8 ≤ j → (VReg.low (Form.lanes .vex256) (shufHi x3 imm)).word j = 0 := fun j h8 => by
      rcases Nat.lt_or_ge j 16 with h16 | h16
      · rw [word_low _ .vex256 h16, word_shufHi _ _ (by omega)]
        have hlane := shuffledIndex_div imm j
        exact hupper _ (by omega) (by omega)
      · exact word_low_of_le _ .vex256 h16
    refine ⟨fun j h8 _ => hzero3 j h8, reg_ext fun j _ => ?_⟩
    rcases Nat.lt_or_ge j 8 with h8 | h8
    · rw [word_low _ .vex128 h8, word_low _ .vex256 (Nat.lt_of_lt_of_le h8 (by decide)), (hlow j h8).2]
    · rw [hzero3 j h8, hzero2 j h8]

end Sys2Proof.Machine
end

section
/-! SUPPORT. The write mask word by word, what the EVEX forms leave in V[d], and the statements about the mask and
about VEX and EVEX forms of one length. -/

namespace Sys2Proof.Machine

/-! ## Words of a merged value -/

/-- A merged lane word by word: mask bit i governs word i (42_vpshufhw_evex.md R111). -/
theorem word_mergeLane (t d : Lane) (m : BitVec 8) (nomask z : Bool) {i : Nat} (hi : i < 8) :
    word (mergeLane t d m nomask z) i = mergeWord (nomask || m.getLsbD i) z (word t i) (word d i) :=
  word_ofWords (fun j => mergeWord (nomask || m.getLsbD j) z (word t j) (word d j)) hi

/-- Lane n is merged under the mask's n-th byte. -/
theorem lane_maskMerge (t d : VReg) (m : Word64) (nomask z : Bool) {n : Nat} (hn : n < 4) :
    (maskMerge t d m nomask z).lane n = mergeLane (t.lane n) (d.lane n) (m.extractLsb' (8 * n) 8) nomask z := by
  match n, hn with
  | 0, _ | 1, _ | 2, _ | 3, _ => rfl

/-- Mask bit j governs word j of the whole value (R111). -/
theorem word_maskMerge (t d : VReg) (m : Word64) (nomask z : Bool) {j : Nat} (hj : j < 32) :
    (maskMerge t d m nomask z).word j = mergeWord (nomask || m.getLsbD j) z (t.word j) (d.word j) := by
  have hbit : (m.extractLsb' (8 * (j / 8)) 8).getLsbD (j % 8) = m.getLsbD j := by
    rw [BitVec.getLsbD_extractLsb', Nat.div_add_mod, decide_eq_true (Nat.mod_lt j (by decide)), Bool.true_and]
  rw [VReg.word_eq, lane_maskMerge _ _ _ _ _ (by omega), word_mergeLane _ _ _ _ _ (by omega), hbit, ← VReg.word_eq,
    ← VReg.word_eq]

/-- The three branches of R111. -/
theorem mergeWord_eq_ite (nomask bit z : Bool) (t d : BitVec 16) :
    mergeWord (nomask || bit) z t d = if nomask = true ∨ bit = true then t else if z = false then d else 0 := by
  simp only [mergeWord, Bool.or_eq_true]
  cases z <;> rfl

/-- Below VL everything is the temporary's where no mask applies or the mask bits below KL are all ones (R116). -/
theorem low_maskMerge_of_all (f : Form) (t d : VReg) {m : Word64} {nomask : Bool} (z : Bool)
    (h : nomask = true ∨ ∀ j < 8 * f.lanes, m.getLsbD j = true) :
    VReg.low f.lanes (maskMerge t d m nomask z) = VReg.low f.lanes t := by
  have hlanes := Form.lanes_le f
  refine low_ext f fun j hj => ?_
  rw [word_maskMerge _ _ _ _ _ (by omega), mergeWord_eq_ite, if_pos (h.imp_right fun hm => hm j hj)]

/-! ## Shuffles cut to a vector length, and of zero -/

/-- The words below VL of the source determine the shuffle below VL (40_pshufhw_sse.md R91). -/
theorem low_shufHi_congr (f : Form) {x y : VReg} (imm : BitVec 8) (h : ∀ j < 8 * f.lanes, x.word j = y.word j) :
    VReg.low f.lanes (shufHi x imm) = VReg.low f.lanes (shufHi y imm) := by
  have hlanes := Form.lanes_le f
  exact low_ext f fun j hj => word_shufHi_congr imm (by omega) fun k hk => h k (by omega)

theorem shufHiLane_zero (imm : BitVec 8) : shufHiLane 0 imm = 0 := by
  have hword : ∀ k, word 0 k = 0 := fun k => by simp [word]
  exact (eq_shufHiLane (fun _ _ => rfl) fun i _ => by rw [hword, hword]).symm

/-! ## The destination of an EVEX form that completes -/

section
variable {f : Form} {i : Instr} {p : Prefixes} {e : EvexCtl} {d : VNum} {src : Operand} {imm : BitVec 8} {x : VReg}
  {s t : State}

/-- An EVEX form leaves the merge below VL and zero above (42_vpshufhw_evex.md R112): VL fits, or the form would not have
completed. -/
theorem getV_dest_of_evex
    (hi : (f = .evex128 ∧ i = .evex128 p e d src imm) ∨ (f = .evex256 ∧ i = .evex256 p e d src imm) ∨
      (f = .evex512 ∧ i = .evex512 p e d src imm))
    (h : exec i s = .next t) (hx : SourceIs f s p i.length src x) :
    t.getV d = VReg.low f.lanes (maskMerge (shufHi x imm) (s.getV d) (s.getK e.aaa) (decide (e.aaa = 0)) e.z) := by
  obtain ⟨rfl, rfl, rfl, rfl, hres⟩ := evex_parts hi
  obtain ⟨-, ⟨⟨-, hvl, -⟩, -⟩, -⟩ := exec_eq_next h
  rw [getV_dest_of_exec h hx, hres, fit_low _ _ _ hvl]

/-- Without a mask, or under one whose bits below KL are all ones, that is the shuffle (42_vpshufhw_evex.md R112 (d)). -/
theorem getV_dest_of_evex_all
    (hi : (f = .evex128 ∧ i = .evex128 p e d src imm) ∨ (f = .evex256 ∧ i = .evex256 p e d src imm) ∨
      (f = .evex512 ∧ i = .evex512 p e d src imm))
    (h : exec i s = .next t) (hx : SourceIs f s p i.length src x)
    (hmask : e.aaa = 0 ∨ ∀ j < 8 * f.lanes, (s.getK e.aaa).getLsbD j = true) :
    t.getV d = VReg.low f.lanes (shufHi x imm) := by
  rw [getV_dest_of_evex hi h hx, low_maskMerge_of_all f _ _ _ (hmask.imp_left decide_eq_true)]

end

/-! ## The statements -/

/-- Settles O4: below VL each word is R111's, and it looks at its own mask bit alone. -/
theorem maskMergeWords : Obligations.MaskMergeWords := by
  intro f T D M nomask z
  have hlanes := Form.lanes_le f
  refine ⟨fun j hj => ?_, fun M' hM' => low_ext f fun j hj => ?_⟩
  · rw [word_low _ f hj, word_maskMerge _ _ _ _ _ (by omega), mergeWord_eq_ite]
  · rw [word_maskMerge _ _ _ _ _ (by omega), word_maskMerge _ _ _ _ _ (by omega), hM' j hj]

/-- Settles O16: both forms leave one shuffle cut to one length; a zero lane shuffles to zero. -/
theorem vexAndEvexAgree : Obligations.VexAndEvexAgree := by
  refine ⟨fun f g i1 i2 p1 p2 e d1 d2 src1 src2 imm x1 x2 s1 s2 t1 t2 hforms hx1 hx2 heq hmask h1 h2 => ?agree,
    fun S imm hl1 hl2 hl3 => ?zero⟩
  case agree =>
    obtain ⟨rfl, rfl, hi1, hi2⟩ | ⟨rfl, rfl, hi1, hi2⟩ := hforms
    · rw [getV_dest_of_vex (.inl ⟨rfl, hi1⟩) h1 hx1, getV_dest_of_evex_all (.inl ⟨rfl, hi2⟩) h2 hx2 hmask]
      exact low_shufHi_congr .vex128 imm heq
    · rw [getV_dest_of_vex (.inr ⟨rfl, hi1⟩) h1 hx1, getV_dest_of_evex_all (.inr (.inl ⟨rfl, hi2⟩)) h2 hx2 hmask]
      exact low_shufHi_congr .vex256 imm heq
  case zero => simp only [shufHi, hl1, hl2, hl3, shufHiLane_zero, and_self]

end Sys2Proof.Machine
end

section
/-! SUPPORT. What a form needs enabled, one lemma for each group of bits, that without it every form raises #UD, and the
statements about enabling, modes and CR0.TS. -/

namespace Sys2Proof.Machine

/-! ## What `Powered` asks for -/

/-- VEX and EVEX forms need one of the two newer modes, CR4.OSXSAVE and XCR0[2:1] (60_exceptions.md R133, R135). -/
theorem Powered.avxState {f : Form} {s : State} (h : Powered f s) (hf : f ≠ .sse) :
    (s.mode = .mode64 ∨ s.mode = .mode32) ∧ s.cr4.getLsbD 18 = true ∧ s.xcr0.extractLsb' 1 2 = 3 := by
  obtain ⟨-, -, h⟩ := h
  have hymm := fun h12 => of_decide_eq_true ((ymmEnabled_iff s).2 h12)
  cases f with
  | sse => exact absurd rfl hf
  | vex128 | vex256 =>
    obtain ⟨hmode, hosxsave, h12⟩ := h
    exact ⟨hmode, hosxsave, hymm h12⟩
  | evex128 | evex256 | evex512 =>
    obtain ⟨hmode, hosxsave, h1, h2, -⟩ := h
    exact ⟨hmode, hosxsave, hymm ⟨h1, h2⟩⟩

/-- EVEX forms need XCR0[7:5] too (R135). -/
theorem Powered.avx512State {f : Form} {s : State} (h : Powered f s) (hf : f.isEvex = true) :
    s.xcr0.extractLsb' 5 3 = 7 := by
  obtain ⟨-, -, h⟩ := h
  cases f with
  | sse | vex128 | vex256 => exact absurd hf Bool.false_ne_true
  | evex128 | evex256 | evex512 =>
    obtain ⟨-, -, -, -, h567⟩ := h
    exact of_decide_eq_true ((zmmEnabled_iff s).2 h567)

/-! ## The checks before a form -/

theorem exec_of_not_powered {i : Instr} {s : State} (h : ¬Powered i.form s) : exec i s = .fault .ud :=
  exec_of_notEnabled (Bool.eq_true_of_not_eq_false (mt (notEnabled_eq_false_iff i.form s).1 h))

/-- #NM comes after the #UD conditions and the refusals (60_exceptions.md R136, R138). -/
theorem guarded_of_ts {f : Form} {s : State} (hp : Powered f s) (hts : s.ts = true)
    (go : Host.Outcome State Fault Refusal) : guarded f false none s go = .fault .nm := by
  unfold guarded
  rw [(notEnabled_eq_false_iff f s).2 hp, hts]
  rfl

theorem guarded_congr {f : Form} {s t : State} (hn : t.notEnabled f = s.notEnabled f) (hts : t.ts = s.ts) (ud : Bool)
    (rf : Option Refusal) (go : Host.Outcome State Fault Refusal) : guarded f ud rf t go = guarded f ud rf s go := by
  unfold guarded
  rw [hn, hts]

/-! ## CR0 and CR4 as a VEX or EVEX form sees them -/

section
variable {s : State} {x y : Word64}

/-- Of the two registers the enabling checks of a VEX or EVEX form look at CR4.OSXSAVE alone (R135). -/
theorem notEnabled_setCr0Cr4 {f : Form} (hf : f ≠ .sse) (hosxsave : y.getLsbD 18 = s.cr4.getLsbD 18) :
    State.notEnabled { s with cr0 := x, cr4 := y } f = s.notEnabled f := by
  cases f with
  | sse => exact absurd rfl hf
  | vex128 | vex256 | evex128 | evex256 | evex512 =>
    simp only [State.notEnabled, State.osxsave, hosxsave]
    rfl

/-- Of the two registers the read of the source looks at CR0.AM alone (20_memory.md R35). -/
theorem readSource_setCr0Cr4 (ham : x.getLsbD 18 = s.cr0.getLsbD 18) (f : Form) (p : Prefixes) (len : Nat)
    (src : Operand) :
    State.readSource { s with cr0 := x, cr4 := y } f p len src =
      andThen (s.readSource f p len src) fun (v, s') => .next (v, { s' with cr0 := x, cr4 := y }) :=
  readSource_map (fun t => { t with cr0 := x, cr4 := y }) s f p len src (fun _ => rfl) (fun _ => rfl) (fun _ => rfl) rfl
    (fun _ => by simp only [State.alignmentDoubt, State.alignmentChecking, ham]) (fun _ => rfl) (fun _ => rfl)
    (afterRead_comm (fun t => { t with cr0 := x, cr4 := y }) s _ rfl rfl)

end

/-! ## The launch -/

theorem launch_eq_refused_iff (s : State) (r : Refusal) : launch s = .refused r ↔ launchCheck s = some r := by
  unfold launch
  cases launchCheck s <;> simp

/-- The mode is the first premise the launch checks, and no other is refused by that name. -/
theorem launchCheck_eq_unsupportedMode_iff (s : State) :
    launchCheck s = some .unsupportedMode ↔ s.mode = .real ∨ s.mode = .v86 := by
  unfold launchCheck
  split
  next hmode => simpa using hmode
  next hmode =>
    refine iff_of_false ?_ (by simpa using hmode)
    repeat' split
    all_goals exact fun h => nomatch h

/-! ## The statements -/

/-- Settles O38: a form without its bits is not `Powered`; of CR0 and CR4 the checks see OSXSAVE and TS, the read sees AM,
and none of these is EM or OSFXSR. -/
theorem vexAndEvexNeedOsEnabling : Obligations.VexAndEvexNeedOsEnabling := by
  refine fun i s hf => ⟨fun h => exec_of_not_powered fun hp => ?avx, fun hevex h => exec_of_not_powered fun hp => ?avx512,
    fun x y hx hy => ?unread⟩
  case avx =>
    obtain ⟨-, hosxsave, hymm⟩ := hp.avxState hf
    obtain hclear | hnymm := h
    · exact Bool.false_ne_true (hclear.symm.trans hosxsave)
    · exact hnymm hymm
  case avx512 => exact h (hp.avx512State hevex)
  case unread =>
    exact exec_mapNext_of_unread (fun t => { t with cr0 := x, cr4 := y }) i s
      (guarded_congr (notEnabled_setCr0Cr4 hf (hy 18 (by decide))) (hx 3 (by decide)) _ _)
      (readSource_setCr0Cr4 (hx 18 (by decide)) ..) rfl (fun _ _ => rfl) fun _ _ => rfl

/-- Settles O41: an enabled form with its source readable completes in any mode (`exec_of_ready`); in the older modes no
VEX or EVEX form is `Powered`; the launch tests the mode first. -/
theorem modesOfTheForms : Obligations.ModesOfTheForms := by
  refine ⟨fun i s _ hf he hr => ⟨_, exec_of_ready hf he hr⟩, fun i s hf hold => exec_of_not_powered fun hp => ?older,
    fun s => (launch_eq_refused_iff s _).trans (launchCheck_eq_unsupportedMode_iff s)⟩
  case older =>
    obtain ⟨hnew, -, -⟩ := hp.avxState hf
    obtain hold | hold := hold <;> simp [hold] at hnew

/-- Settles O37: with EM set or OSFXSR clear the SSE form is not `Powered`. -/
theorem sseNeedsOsEnabling : Obligations.SseNeedsOsEnabling := by
  intro i s hform h
  refine exec_of_not_powered fun hp => ?_
  rw [hform] at hp
  obtain ⟨-, -, hem, hosfxsr⟩ := hp
  obtain hset | hclear := h
  · exact Bool.false_ne_true (hem.symm.trans hset)
  · exact Bool.false_ne_true (hclear.symm.trans hosfxsr)

/-- Settles O40: fields in order and a powered form leave CR0.TS as the one check that stops it. -/
theorem taskSwitchedRaisesNm : Obligations.TaskSwitchedRaisesNm := by
  intro i s hf hp hts
  obtain ⟨hud, hrefused⟩ := (fieldsOk_iff i).1 hf
  rw [exec_eq, hud, hrefused]
  exact guarded_of_ts hp hts _

end Sys2Proof.Machine
end

section
/-! SUPPORT. Decoding what the encoder wrote, shape by shape, and the round trip. -/

namespace Sys2Proof

/-! ## Registers of a well-formed instruction -/

section
variable {c : Ctx} {p : Prefixes} {nvd nvs ng : Nat} {d : VNum} {src : Operand}
  (h : c.regsOk p nvd nvs ng d src = true)
include h

theorem regsOk_bounds (hd : 8 ≤ nvd) (hs : 8 ≤ nvs) (hg : 8 ≤ ng) :
    d.toNat < nvd ∧ src.ok (c.asz p.addrSize) nvs ng = true := by
  obtain ⟨h1, h2⟩ := regsOk_split h
  cases hl : c.long
  · rw [hl] at h1 h2
    exact ⟨Nat.lt_of_lt_of_le h1 hd, ok_mono h2 hs hg⟩
  · rw [hl] at h1 h2
    exact ⟨h1, h2⟩

/-- Outside 64-bit mode no register needs an extension bit (30_encoding.md R60). -/
theorem regsOk_of_not_long (hl : c.long = false) :
    d.getLsbD 3 = false ∧ d.getLsbD 4 = false ∧ src.extX = false ∧ src.extB = false := by
  obtain ⟨h1, h2⟩ := regsOk_split h
  rw [hl] at h1 h2
  have hd : d.toNat < 8 := h1
  exact ⟨vbit3_of_lt d hd, vbit4_of_lt d (by omega), ext_of_lt h2⟩

end

/-! ## Each shape read back -/

theorem encodeBody_append (d : VNum) (src : Operand) (imm : BitVec 8) (rest : List Byte) :
    encodeBody d src imm ++ rest = 0x70 :: (encodeOperand (d.extractLsb' 0 3) src ++ imm :: rest) := by
  simp [encodeBody]

section
variable {c : Ctx} {p : Prefixes} {d : VNum} {src : Operand} {imm : BitVec 8} {rest : List Byte}

/-- After the overrides the encoder writes, a VEX body is its instruction. -/
theorem decodeVexBody_encode {e : Ext} {nv ng : Nat} {mk : Prefixes → VNum → Operand → BitVec 8 → Instr}
    (hok : src.ok (c.asz p.addrSize) nv ng = true) (he : e.fits src) (hr' : e.r' = d.getLsbD 4)
    (hr : e.r = d.getLsbD 3) :
    decodeVexBody c (encodePrefixes p) e mk (encodeOperand (d.extractLsb' 0 3) src ++ imm :: rest) =
      .instr (mk p d src imm) rest := by
  simp [decodeVexBody, prefixesOf_encode, takeBody_encode _ nv ng e d src imm rest hok he hr' hr, afterLead,
    not_spoilsVex_encode, singleOverrides_encode]

theorem decode_sse (h : c.regsOk p 8 8 8 d src = true) :
    decode c (encode (.sse p d src imm) ++ rest) = .instr (.sse p d src imm) rest := by
  obtain ⟨hlead, hrex, hp, hlock, -⟩ := sseLead_encode c p
  obtain ⟨hd, hok⟩ := regsOk_bounds h (by decide) (by decide) (by decide)
  obtain ⟨hx, hb⟩ := ext_of_lt hok
  have hall : ∀ x ∈ encodePrefixes p ++ [0xF3], isLeading c x = true := by
    simpa [or_imp, forall_and, isLeading] using encodePrefixes_leading c p
  have hbytes : encode (.sse p d src imm) ++ rest = (encodePrefixes p ++ [0xF3]) ++ 0x0F :: 0x70 ::
      (encodeOperand (d.extractLsb' 0 3) src ++ imm :: rest) := by
    simp [encode, encodeBody_append]
  rw [hbytes, decode_append_0F hall, decodeSse_of_body (y := ⟨d, src, imm⟩) (rest := rest) hlead, hlock, hrex, hp]
  · rfl
  · rw [hp, hrex]
    refine takeBody_encode _ 8 8 _ d src imm rest hok ?_ (vbit4_of_lt d (by omega)).symm (vbit3_of_lt d hd).symm
    exact fits_sse _ src (ok_mono hok (by decide) (by decide : 8 ≤ 16)) hb.symm hx.symm rfl

theorem decode_sseRex (hl : c.long = true) (h : c.regsOk p 16 16 16 d src = true) :
    decode c (encode (.sseRex p d src imm) ++ rest) = .instr (.sseRex p d src imm) rest := by
  obtain ⟨hnib, hr, hx, hb⟩ := rexByte_fields d src
  obtain ⟨hlead, hrex, hp, hlock, -⟩ := sseLead_encode_rex c p (rexByte d src) hl hnib
  obtain ⟨hd, hok⟩ := regsOk_bounds h (by decide) (by decide) (by decide)
  have hall : ∀ x ∈ encodePrefixes p ++ [0xF3, rexByte d src], isLeading c x = true := by
    have hisRex : isRex c (rexByte d src) = true := by simp [isRex, hl, hnib]
    simpa [or_imp, forall_and, isLeading, hisRex] using encodePrefixes_leading c p
  have hbytes : encode (.sseRex p d src imm) ++ rest = (encodePrefixes p ++ [0xF3, rexByte d src]) ++ 0x0F :: 0x70 ::
      (encodeOperand (d.extractLsb' 0 3) src ++ imm :: rest) := by
    simp [encode, encodeBody_append]
  rw [hbytes, decode_append_0F hall, decodeSse_of_body (y := ⟨d, src, imm⟩) (rest := rest) hlead, hlock, hrex, hp]
  · rfl
  · rw [hp, hrex]
    exact takeBody_encode _ 16 16 _ d src imm rest hok (fits_sse _ src hok hb hx rfl) (vbit4_of_lt d hd).symm hr

/-- The two-byte VEX prefix the encoder writes is read back. -/
theorem decodeC5_encode {v : BitVec 4} (l : Bool) (hc : c.c5Ok v = true) (h : c.regsOk p 16 8 8 d src = true) :
    decode c (encodePrefixes p ++ 0xC5 :: c5Byte d v l :: (encodeBody d src imm ++ rest)) =
      .instr (if l then .vex256C5 p v d src imm else .vex128C5 p v d src imm) rest := by
  obtain ⟨hr, hv, hL, hpp, htop⟩ := c5Byte_fields d v l
  obtain ⟨hd, hok⟩ := regsOk_bounds h (by decide) (by decide) (by decide)
  obtain ⟨hx, hb⟩ := ext_of_lt hok
  have hc' : c.long = true ∨ fieldTop (c5Byte d v l) = 3 ∧ c.vex = true := by
    cases hl : c.long with
    | true => exact .inl rfl
    | false =>
      obtain ⟨hvex, hv3⟩ : c.vex = true ∧ v.getLsbD 3 = true := by
        simpa [-BitVec.getLsbD_eq_getElem, Ctx.c5Ok, hl] using hc
      exact .inr ⟨htop.2 ⟨(regsOk_of_not_long h hl).1, hv3⟩, hvex⟩
  rw [encodeBody_append, decode_append_C5 (encodePrefixes_leading c p), decodeC5_of_form _ _ hpp hc',
    decodeVexBody_encode hok (fits_sse _ src (ok_mono hok (by decide) (by decide : 8 ≤ 16)) hb.symm hx.symm rfl)
      (vbit4_of_lt d hd).symm (by rw [hr, Bool.not_not]), hL, hv]
  cases l <;> rfl

/-- The three-byte VEX prefix the encoder writes is read back. -/
theorem decodeC4_encode {v : BitVec 4} (l : Bool) (hc : c.c4Ok = true) (h : c.regsOk p 16 16 16 d src = true) :
    decode c (encodePrefixes p ++ 0xC4 :: c4Byte1 d src :: c4Byte2 v l :: (encodeBody d src imm ++ rest)) =
      .instr (if l then .vex256C4 p v d src imm else .vex128C4 p v d src imm) rest := by
  obtain ⟨hr, hx, hb, hmap, htop⟩ := c4Byte1_fields d src
  obtain ⟨hv, hL, hpp⟩ := c4Byte2_fields v l
  obtain ⟨hd, hok⟩ := regsOk_bounds h (by decide) (by decide) (by decide)
  have hc' : c.long = true ∨ fieldTop (c4Byte1 d src) = 3 ∧ c.vex = true := by
    cases hl : c.long with
    | true => exact .inl rfl
    | false =>
      obtain ⟨hd3, -, hX, -⟩ := regsOk_of_not_long h hl
      exact .inr ⟨htop.2 ⟨hd3, hX⟩, by simpa [Ctx.c4Ok, hl] using hc⟩
  have hB : (c.long && !(c4Byte1 d src).getLsbD 5) = src.extB := by
    rw [hb, Bool.not_not]
    cases hl : c.long with
    | true => rfl
    | false => exact (regsOk_of_not_long h hl).2.2.2.symm
  rw [encodeBody_append, decode_append_C4 (encodePrefixes_leading c p), decodeC4_of_form _ _ hpp hmap hc',
    decodeVexBody_encode hok (fits_sse _ src hok hB (by rw [hx, Bool.not_not]) rfl)
      (vbit4_of_lt d hd).symm (by rw [hr, Bool.not_not]), hL, hv]
  cases l <;> rfl

/-- The EVEX prefix the encoder writes is read back, for each L'L of a form. -/
theorem decodeEvex_encode {e : EvexCtl} {ll : BitVec 2} {mk : Prefixes → EvexCtl → VNum → Operand → BitVec 8 → Instr}
    (hmk : evexForm ll = some mk) (hc : c.evexOk p src = true) (h : c.regsOk p 32 32 16 d src = true) :
    decode c (encodeEvex p e ll d src imm ++ rest) = .instr (mk p e d src imm) rest := by
  obtain ⟨hr, hx, hb, hr', hfix0, hmap, htop, hnib⟩ := evexP0_fields d src
  obtain ⟨hfix1, hpp, -⟩ := evexP1_fields e
  obtain ⟨hll, -⟩ := evexP2_fields e ll
  obtain ⟨hd, hok⟩ := regsOk_bounds h (by decide) (by decide) (by decide)
  obtain ⟨hfam, hmem16⟩ : (c.long = true ∨ c.evex = true) ∧ c.refusesMem16 p src = false := by
    simpa [Ctx.evexOk] using hc
  have hc' : c.long = true ∨ (evexP0 d src).extractLsb' 4 4 = 15 ∧ c.evex = true := by
    cases hl : c.long with
    | true => exact .inl rfl
    | false =>
      obtain ⟨hd3, hd4, hX, hB⟩ := regsOk_of_not_long h hl
      exact .inr ⟨hnib.2 ⟨hd3, hX, hB, hd4⟩, by simpa [hl] using hfam⟩
  have hbody := takeBody_encode (c.asz p.addrSize) 32 16 (evexExt (evexP0 d src)) d src imm rest hok
    (fits_evex _ src (by rw [evexExt, hb, Bool.not_not]) (by rw [evexExt, hx, Bool.not_not])
      (by rw [evexExt, hx, Bool.not_not])) (by rw [evexExt, hr', Bool.not_not]) (by rw [evexExt, hr, Bool.not_not])
  have hdoubt : evexDoubt c p (evexP0 d src) src = none := by
    have hext : (!c.long && decide ((evexP0 d src).extractLsb' 4 4 ≠ 15)) = false := by
      obtain hl | ⟨hn, -⟩ := hc'
      · rw [hl]; rfl
      · rw [hn]; simp
    rw [evexDoubt, hext, hmem16]
    rfl
  have hbytes : encodeEvex p e ll d src imm ++ rest = encodePrefixes p ++ 0x62 :: evexP0 d src :: evexP1 e ::
      evexP2 e ll :: 0x70 :: (encodeOperand (d.extractLsb' 0 3) src ++ imm :: rest) := by
    simp [encodeEvex, encodeBody_append]
  rw [hbytes, decode_append_62 (encodePrefixes_leading c p),
    decodeEvex_of_form _ _ hfix0 hfix1 hpp hmap (by rw [hll, hmk]) (hc'.imp_right (And.imp_left (fieldTop_of_high_nibble _)))]
  simp [decodeEvexBody, prefixesOf_encode, hbody, not_spoilsVex_encode, hdoubt, afterLead, singleOverrides_encode,
    evexCtl_encode]

end

/-! ## The statement -/

/-- Settles O17: each constructor is one of the shapes the encoder writes, and each shape is read back. -/
theorem decodeEncodeRoundTrip : Obligations.DecodeEncodeRoundTrip := by
  intro c i rest h
  cases i with
  | sse => exact decode_sse h
  | sseRex =>
    obtain ⟨hl, h⟩ := (Bool.and_eq_true _ _).mp h
    exact decode_sseRex hl h
  | vex128C5 =>
    obtain ⟨hc, h⟩ := (Bool.and_eq_true _ _).mp h
    simpa [encode] using decodeC5_encode false hc h
  | vex256C5 =>
    obtain ⟨hc, h⟩ := (Bool.and_eq_true _ _).mp h
    simpa [encode] using decodeC5_encode true hc h
  | vex128C4 =>
    obtain ⟨hc, h⟩ := (Bool.and_eq_true _ _).mp h
    simpa [encode] using decodeC4_encode false hc h
  | vex256C4 =>
    obtain ⟨hc, h⟩ := (Bool.and_eq_true _ _).mp h
    simpa [encode] using decodeC4_encode true hc h
  | evex128 | evex256 | evex512 =>
    obtain ⟨hc, h⟩ := (Bool.and_eq_true _ _).mp h
    exact decodeEvex_encode rfl hc h

end Sys2Proof
end

section
/-! SUPPORT. What every instruction that bytes decode to satisfies: it is well-formed in its context, and its length is
what decoding took. -/

namespace Sys2Proof

/-! ## The bytes and the registers of a body -/

/-- The bytes after the legacy bytes `lead` and one byte more are the other bytes of `i`, then `rest`. -/
def Consumes (lead bs rest : List Byte) (i : Instr) : Prop :=
  ∃ pre, bs = pre ++ rest ∧ lead.length + 1 + pre.length = i.length

section
variable {c : Ctx} {lead bs rest : List Byte} {i : Instr}

/-- `hdr` stands between the first byte of the shape and the body. -/
theorem consumes_of_takeBody {asz : AddrSize} {e : Ext} {y : Body} (hdr : List Byte)
    (h : takeBody asz e bs = some (y, rest)) (hsrc : i.source = y.src)
    (hlen : lead.length + 1 + hdr.length = i.prefixes.size + i.opcodeSize) :
    Consumes lead (hdr ++ bs) rest i := by
  obtain ⟨⟨hbs, pre, rfl⟩, -⟩ := takeBody_eq_some (nv := 32) (ng := 16) h (by split <;> [skip; split] <;> decide)
    (by unfold reach; split <;> decide) (by unfold reach; split <;> decide)
  refine ⟨hdr ++ pre, (List.append_assoc ..).symm, ?_⟩
  rw [List.length_append] at hbs ⊢
  rw [Instr.length, hsrc]
  omega

/-- The registers of a body are in reach where its extension bits are. -/
theorem regsOk_of_takeBody {p : Prefixes} {e : Ext} {y : Body} {nvd nvs ng : Nat}
    (h : takeBody (c.asz p.addrSize) e bs = some (y, rest))
    (hd : (if e.r' then 32 else if e.r then 16 else 8) ≤ if c.long then nvd else 8)
    (hs : (if e.xs then 32 else if e.b then 16 else 8) ≤ if c.long then nvs else 8)
    (hb : reach e.b ≤ if c.long then ng else 8) (hx : reach e.x ≤ if c.long then ng else 8) :
    c.regsOk p nvd nvs ng y.d y.src = true := by
  obtain ⟨-, hok, hlt⟩ := takeBody_eq_some h hs hb hx
  simpa [Ctx.regsOk, hok] using Nat.lt_of_lt_of_le hlt hd

theorem reach_le (x : Bool) : reach x ≤ 16 := by cases x <;> decide

theorem vnum_reach_le (x' x : Bool) : (if x' then 32 else if x then 16 else 8) ≤ 32 := by
  cases x' <;> cases x <;> decide

/-! ## Each shape -/

theorem isRex_of_rexOf_eq {x : Byte} (h : rexOf c lead = some x) : isRex c x = true :=
  (Option.filter_eq_some_iff.1 h).2

theorem decodeSse_wf_consumes (hlead : ∀ x ∈ lead, isLeading c x = true) (h : decodeSse c lead bs = .instr i rest) :
    i.wf c = true ∧ Consumes lead bs rest i := by
  obtain ⟨bs, y, rfl, hok, hlock, hbody, rfl⟩ := decodeSse_eq_instr h
  have hlen := lead_sse_length c lead hlead hok hlock
  cases hrex : rexOf c lead with
  | none =>
    rw [hrex] at hbody hlen
    refine ⟨?_, consumes_of_takeBody [0x70] hbody rfl (congrArg (· + 1 + 1) hlen)⟩
    exact regsOk_of_takeBody hbody (by simp) (by simp) (by simp [reach]) (by simp [reach])
  | some x =>
    have hl : c.long = true := ((Bool.and_eq_true _ _).mp (isRex_of_rexOf_eq hrex)).1
    rw [hrex] at hbody hlen
    refine ⟨?_, consumes_of_takeBody [0x70] hbody rfl (congrArg (· + 1 + 1) hlen)⟩
    refine (Bool.and_eq_true _ _).mpr ⟨hl, regsOk_of_takeBody hbody ?_ ?_ ?_ ?_⟩ <;> rw [hl]
    · exact reach_le _
    · exact reach_le _
    · exact reach_le _
    · exact reach_le _

/-- Outside 64-bit mode a VEX prefix has R and X stored as 1, and a two-byte one the top bit of vvvv (30_encoding.md R71,
R83). -/
theorem vex_bits_of_fieldTop : ∀ v1 : Byte, fieldTop v1 = 3 →
    v1.getLsbD 7 = true ∧ v1.getLsbD 6 = true ∧ (v1.extractLsb' 3 4).getLsbD 3 = true := by decide +kernel

theorem decodeC5_wf_consumes (hlead : ∀ x ∈ lead, isLeading c x = true) (h : decodeC5 c lead bs = .instr i rest) :
    i.wf c = true ∧ Consumes lead bs rest i := by
  obtain ⟨v1, bs, y, rfl, -, hc, hbody, hsp, ho, rfl⟩ := decodeC5_eq_instr h
  have hlen := lead_vex_length c lead hlead hsp ho
  have hregs : c.c5Ok (v1.extractLsb' 3 4) = true ∧ c.regsOk (prefixesOf lead) 16 8 8 y.d y.src = true := by
    obtain hl | ⟨htop, hvex⟩ := hc
    · refine ⟨by rw [Ctx.c5Ok, hl]; rfl, regsOk_of_takeBody hbody ?_ (by simp) (by simp [reach]) (by simp [reach])⟩
      rw [hl]
      exact reach_le _
    · obtain ⟨h7, -, hv3⟩ := vex_bits_of_fieldTop v1 htop
      refine ⟨by rw [Ctx.c5Ok, hvex, hv3]; exact Bool.or_true _,
        regsOk_of_takeBody hbody ?_ (by simp) (by simp [reach]) (by simp [reach])⟩
      rw [h7]
      cases c.long <;> decide
  have hwf := (Bool.and_eq_true _ _).mpr hregs
  split <;> exact ⟨hwf, consumes_of_takeBody [v1, 0x70] hbody rfl (congrArg (· + 1 + 2) hlen)⟩

theorem decodeC4_wf_consumes (hlead : ∀ x ∈ lead, isLeading c x = true) (h : decodeC4 c lead bs = .instr i rest) :
    i.wf c = true ∧ Consumes lead bs rest i := by
  obtain ⟨v1, v2, bs, y, rfl, -, -, hc, hbody, hsp, ho, rfl⟩ := decodeC4_eq_instr h
  have hlen := lead_vex_length c lead hlead hsp ho
  have hregs : c.c4Ok = true ∧ c.regsOk (prefixesOf lead) 16 16 16 y.d y.src = true := by
    cases hl : c.long with
    | true =>
      rw [hl] at hbody
      refine ⟨by rw [Ctx.c4Ok, hl]; rfl, regsOk_of_takeBody hbody ?_ ?_ ?_ ?_⟩ <;> rw [hl] <;> exact reach_le _
    | false =>
      obtain ⟨htop, hvex⟩ := hc.resolve_left (by simp [hl])
      obtain ⟨h7, h6, -⟩ := vex_bits_of_fieldTop v1 htop
      rw [hl, h7, h6] at hbody
      exact ⟨by rw [Ctx.c4Ok, hl, hvex]; rfl,
        regsOk_of_takeBody hbody (by simp [hl]) (by simp [hl]) (by simp [hl, reach]) (by simp [hl, reach])⟩
  have hwf := (Bool.and_eq_true _ _).mpr hregs
  split <;> exact ⟨hwf, consumes_of_takeBody [v1, v2, 0x70] hbody rfl (congrArg (· + 1 + 3) hlen)⟩

theorem decodeEvex_wf_consumes (hlead : ∀ x ∈ lead, isLeading c x = true) (h : decodeEvex c lead bs = .instr i rest) :
    i.wf c = true ∧ Consumes lead bs rest i := by
  obtain ⟨p0, p1, p2, bs, y, mk, rfl, -, -, -, -, hmk, hc, hbody, hmem16, hsp, ho, rfl⟩ := decodeEvex_eq_instr h
  have hlen := lead_vex_length c lead hlead hsp ho
  have hregs : c.evexOk (prefixesOf lead) y.src = true ∧ c.regsOk (prefixesOf lead) 32 32 16 y.d y.src = true := by
    rw [Ctx.evexOk, hmem16]
    cases hl : c.long with
    | true =>
      refine ⟨rfl, regsOk_of_takeBody hbody ?_ ?_ ?_ ?_⟩ <;> rw [hl]
      · exact vnum_reach_le _ _
      · exact vnum_reach_le _ _
      · exact reach_le _
      · exact reach_le _
    | false =>
      obtain ⟨hnib, hevex⟩ := hc.resolve_left (by simp [hl])
      obtain ⟨h7, h6, h5, h4⟩ := getLsbD_of_high_nibble p0 hnib
      rw [evexExt, h7, h6, h5, h4] at hbody
      exact ⟨by rw [hevex]; rfl,
        regsOk_of_takeBody hbody (by simp [hl]) (by simp [hl]) (by simp [hl, reach]) (by simp [hl, reach])⟩
  have hwf := (Bool.and_eq_true _ _).mpr hregs
  obtain ⟨-, rfl⟩ | ⟨-, rfl⟩ | ⟨-, rfl⟩ := evexForm_eq_some hmk <;>
    exact ⟨hwf, consumes_of_takeBody [p0, p1, p2, 0x70] hbody rfl (congrArg (· + 1 + 4) hlen)⟩

end

/-- What every instruction that bytes decode to satisfies. -/
theorem decode_wf_length {c : Ctx} {bytes rest : List Byte} {i : Instr} (h : decode c bytes = .instr i rest) :
    i.wf c = true ∧ ∃ pre, bytes = pre ++ rest ∧ pre.length = i.length := by
  obtain ⟨lead, b, bs, rfl, hlead, hshape⟩ := decode_eq_instr h
  have hboth : i.wf c = true ∧ Consumes lead bs rest i := by
    obtain ⟨-, h⟩ | ⟨-, h⟩ | ⟨-, h⟩ | ⟨-, h⟩ := hshape
    · exact decodeSse_wf_consumes hlead h
    · exact decodeC5_wf_consumes hlead h
    · exact decodeC4_wf_consumes hlead h
    · exact decodeEvex_wf_consumes hlead h
  obtain ⟨hwf, pre, rfl, hlen⟩ := hboth
  exact ⟨hwf, lead ++ b :: pre, by simp, by rw [← hlen]; simp; omega⟩

theorem opcodeSize_add_two_le_length (i : Instr) : i.opcodeSize + 2 ≤ i.length := by
  unfold Instr.length
  omega

/-! ## The statements -/

/-- Settles O18: the registers and the addressing form of a body are in reach of the shape's extension bits. -/
theorem decodedIsWellFormed : Obligations.DecodedIsWellFormed :=
  fun _ _ _ _ h => (decode_wf_length h).1

/-- Settles O19: the legacy bytes are as many as the prefixes kept and the mandatory bytes, and the body is as long as
its operand says; the opcode bytes and two more are the least. -/
theorem decodedLengthIsConsumed : Obligations.DecodedLengthIsConsumed := by
  intro c bytes rest i h
  have hmin := opcodeSize_add_two_le_length i
  refine ⟨(decode_wf_length h).2, ?_⟩
  cases i <;> exact hmin

end Sys2Proof
end

section
/-! SUPPORT. What a step that goes on has done, how far its instruction reaches, and that it keeps the invariant. -/

namespace Sys2Proof.Machine

/-! ## A step that goes on -/

theorem overrun_ne_next (s t : State) : s.overrun ≠ .next t := by
  unfold State.overrun
  split
  · exact raise_ne_next _ t
  · exact fun h => nomatch h

/-- A step goes on only as its instruction does, which the bytes at ip decode to. -/
theorem step_eq_next {s t : State} (h : step s = .next t) :
    s.fetchStop = none ∧ ∃ i rest, decode s.ctx s.window = .instr i rest ∧ exec i s = .next t := by
  unfold step at h
  split at h
  · exact nomatch h
  · refine ⟨by assumption, ?_⟩
    split at h
    · exact ⟨_, _, by assumption, h⟩
    · exact absurd h (raise_ne_next _ t)
    · exact absurd h (overrun_ne_next s t)
    · exact nomatch h

theorem length_fetchFrom_le (s : State) (i n : Nat) : (s.fetchFrom i n).length ≤ n := by
  induction n generalizing i with
  | zero => exact Nat.le_refl 0
  | succ n ih =>
    rw [State.fetchFrom]
    split
    · exact Nat.succ_le_succ (ih (i + 1))
    · exact Nat.zero_le _

/-- An instruction that a step decodes has at most fifteen bytes (30_encoding.md R82). -/
theorem length_le_of_decode_window {s : State} {i : Instr} {rest : List Byte}
    (h : decode s.ctx s.window = .instr i rest) : i.length ≤ 15 := by
  obtain ⟨-, pre, hpre, hlen⟩ := decode_wf_length h
  have hwindow : s.window.length ≤ 15 := length_fetchFrom_le s 0 15
  rw [hpre, List.length_append, hlen] at hwindow
  omega

/-- What a fetch that nothing stops says of the state. -/
theorem fetchStop_eq_none_iff (s : State) :
    s.fetchStop = none ↔
      s.debugOn = false ∧ ClearOfTop s ∧ (s.mode = .mode64 → canonical s.cpu.laWidth s.ip.toNat = true) := by
  rw [← codeWraps_eq_false_iff]
  unfold State.fetchStop
  cases s.debugOn <;> cases s.codeWraps <;> simp

/-! ## The invariant -/

/-- The destination is within the registers an encoding of the form reaches (00_scope.md R7, 30_encoding.md R60). -/
theorem dest_lt_of_wf {c : Ctx} {i : Instr} (h : i.wf c = true) :
    i.dest.toNat < if c.long then (if i.form.isEvex then 32 else 16) else 8 := by
  cases i with
  | sse =>
    have hlt := (regsOk_split h).1
    rw [ite_self] at hlt
    refine Nat.lt_of_lt_of_le hlt ?_
    show 8 ≤ if c.long then 16 else 8
    split <;> decide
  | sseRex | vex128C5 | vex128C4 | vex256C5 | vex256C4 | evex128 | evex256 | evex512 =>
    exact (regsOk_split ((Bool.and_eq_true _ _).mp h).2).1

/-- In 64-bit mode a machine that supports a form has the registers its encodings reach (00_scope.md R7). -/
theorem le_nvregs_of_mode64 {s : State} {f : Form} (hm : s.mode = .mode64)
    (hsup : f.supported s.cpu.features = true) : (if f.isEvex then 32 else 16) ≤ s.nvregs := by
  simp only [State.nvregs, hm]
  cases f with
  | sse | vex128 | vex256 =>
    show 16 ≤ if _ then 32 else 16
    split <;> decide
  | evex128 | evex256 | evex512 => simp only [hsup, Bool.or_true, Bool.true_or, if_true, Form.isEvex, Nat.le_refl]

/-- A supported instruction's destination is a register the machine has. -/
theorem dest_lt_nvregs {s : State} {i : Instr} (hwf : i.wf s.ctx = true)
    (hsup : i.form.supported s.cpu.features = true) : i.dest.toNat < s.nvregs := by
  have hlt := dest_lt_of_wf hwf
  cases hm : s.mode with
  | mode64 =>
    have hl : s.ctx.long = true := decide_eq_true hm
    rw [if_pos hl] at hlt
    exact Nat.lt_of_lt_of_le hlt (le_nvregs_of_mode64 hm hsup)
  | mode32 | real | v86 => simpa [State.nvregs, Ctx.long, State.ctx, hm] using hlt

/-- An ip that keeps clear of the top stays legal over an instruction (10_state.md R19). -/
theorem nextIp_legal {s : State} {n : Nat} (hclear : ClearOfTop s) (hn : n ≤ 15)
    (hlegal : s.ipLegal) : State.ipLegal { s with ip := s.nextIp n } := by
  have hto := nextIp_toNat s n
  unfold State.ipLegal State.ipAfter ClearOfTop at *
  cases hm : s.mode with
  | real | v86 | mode32 =>
    simp only [hm] at hto ⊢
    omega
  | mode64 =>
    simp only [hm] at hto hclear hlegal ⊢
    rw [hto]
    simp only [canonical, Bool.or_eq_true, Bool.and_eq_true, decide_eq_true_eq] at hlegal ⊢
    cases hw : s.cpu.laWidth <;> simp only [hw, canonicalHalf, List.forall_mem_cons] at hclear hlegal ⊢ <;> omega

/-- Every register of the state after a form completes fits MAXVL, where the old ones do. -/
theorem getV_fit_of_exec {i : Instr} {s t : State} (h : exec i s = .next t)
    (hs : ∀ r : VNum, (s.getV r).fit s.cpu.maxvl = s.getV r) (r : VNum) :
    (t.getV r).fit s.cpu.maxvl = t.getV r := by
  by_cases hr : r = i.dest
  · obtain ⟨-, -, rfl⟩ := exec_eq_next h
    rw [hr, getV_complete_same, afterSource_cpu, fit_fit]
  · rw [exec_getV_of_ne h hr, hs r]

/-! ## The statement -/

/-- Settles O55: the destination fits MAXVL and is a register the machine has; ip moves by at most fifteen bytes, from
where it is clear of the top by more; the rest of the state is the old one's. -/
theorem stepKeepsInvariant : Obligations.StepKeepsInvariant := by
  rintro s t ⟨hmem, hfit, hzero, hip⟩ hstep
  obtain ⟨hfetch, i, rest, hdec, hexec⟩ := step_eq_next hstep
  obtain ⟨-, hclear, -⟩ := (fetchStop_eq_none_iff s).1 hfetch
  obtain ⟨-, ⟨⟨hsup, -⟩, -⟩, ht⟩ := exec_eq_next hexec
  have hsame : s.SameBut t := exec_sameBut hexec
  have hcpu : t.cpu = s.cpu := by rw [hsame]
  have hmode : t.mode = s.mode := by rw [hsame]
  have htip : t.ip = s.nextIp i.length := by rw [ht, complete_ip, nextIp_afterSource]
  refine ⟨by rw [hsame]; exact hmem, fun r => ?fit, fun r hr => ?zero, ?ip⟩
  case fit =>
    rw [hcpu]
    exact getV_fit_of_exec hexec hfit r
  case zero =>
    have hnv : t.nvregs = s.nvregs := by rw [State.nvregs, State.nvregs, hcpu, hmode]
    rw [hnv] at hr
    have hdest := dest_lt_nvregs (decode_wf_length hdec).1 hsup
    rw [exec_getV_of_ne hexec (fun h => by rw [h] at hr; omega), hzero r hr]
  case ip =>
    have hlegal := nextIp_legal hclear (length_le_of_decode_window hdec) hip
    rw [State.ipLegal, hmode, hcpu, htip]
    exact hlegal

end Sys2Proof.Machine
end

section
/-! SUPPORT. The words that every completing form leaves in V[d], by `resultWord`, and the statements about forms that
complete, under either memory oracle and under a mask that selects nothing. -/

namespace Sys2Proof.Machine

/-! ## The frame and the source of a form that completes -/

theorem exec_frame {i : Instr} {s t : State} (h : exec i s = .next t) :
    (∀ r, r ≠ i.dest → t.getV r = s.getV r) ∧ t.ip.toNat = s.ipAfter i.length ∧ s.SameBut t := by
  refine ⟨fun r hr => exec_getV_of_ne h hr, ?_, exec_sameBut h⟩
  obtain ⟨-, -, rfl⟩ := exec_eq_next h
  rw [complete_ip, nextIp_afterSource, nextIp_toNat]

theorem sourceIs_of_ready {f : Form} {s : State} {p : Prefixes} {len : Nat} {src : Operand}
    (h : SourceReady f s p len src) : SourceIs f s p len src (sourceValue s f p len src) :=
  ⟨_, readSource_of_ready h⟩

theorem shuffledIndex_lt (imm : BitVec 8) {j n : Nat} (h : j < 8 * n) : shuffledIndex imm j < 8 * n := by
  have hdiv := shuffledIndex_div imm j
  omega

/-! ## Words of the result -/

/-- Below VL: the shuffled word, or under a mask bit 0 zero or the old word (42_vpshufhw_evex.md R111). -/
theorem word_maskMerge_shufHi (x old : VReg) (imm : BitVec 8) (m : Word64) (nomask z : Bool) {j : Nat} (hj : j < 32) :
    (maskMerge (shufHi x imm) old m nomask z).word j =
      if nomask = true ∨ m.getLsbD j = true then x.word (shuffledIndex imm j)
      else if z = true then 0 else old.word j := by
  rw [word_maskMerge _ _ _ _ _ hj, word_shufHi _ _ hj]
  simp only [mergeWord, Bool.or_eq_true]

/-- What a form writes is `resultWord` word by word, before it is fitted to MAXVL. -/
theorem word_result (i : Instr) (s : State) (x : VReg) {j : Nat} (hj : j < 32) :
    (result i s x).word j = resultWord i s x j := by
  unfold resultWord
  split
  next hlow =>
    cases i with
    | sse | sseRex => exact (word_keepUpper_low _ _ hlow).trans (word_shufHi _ _ hj)
    | vex128C5 | vex128C4 | vex256C5 | vex256C4 => exact (word_low _ _ hlow).trans (word_shufHi _ _ hj)
    | evex128 | evex256 | evex512 =>
      exact (word_low _ _ hlow).trans (by simp only [word_maskMerge_shufHi _ _ _ _ _ _ hj, decide_eq_true_eq])
  next hhigh =>
    cases i with
    | sse | sseRex => exact word_keepUpper_high _ _ (Nat.le_of_not_lt hhigh)
    | vex128C5 | vex128C4 | vex256C5 | vex256C4 | evex128 | evex256 | evex512 =>
      exact word_low_of_le _ _ (Nat.le_of_not_lt hhigh)

theorem MaxVL.lanes_le (m : MaxVL) : m.lanes ≤ 4 := by cases m <;> decide

/-- The words of V[d] up to MAXVL after a form completes. -/
theorem word_dest_of_exec {i : Instr} {s t : State} {x : VReg} (h : exec i s = .next t)
    (hx : SourceIs i.form s i.prefixes i.length i.source x) {j : Nat} (hj : j < 8 * s.cpu.maxvl.lanes) :
    (t.getV i.dest).word j = resultWord i s x j := by
  have hmax := MaxVL.lanes_le s.cpu.maxvl
  rw [getV_dest_of_exec h hx, word_fit _ _ hj, word_result _ _ _ (by omega)]

theorem low_zero (n : Nat) : VReg.low n VReg.zero = VReg.zero := by
  simp only [VReg.low, VReg.zero, ite_self]

theorem word_zero (j : Nat) : VReg.zero.word j = 0 := by
  have hlane : ∀ n, VReg.zero.lane n = 0 := fun | 0 | 1 | 2 | 3 | _ + 4 => rfl
  rw [VReg.word_eq, hlane]
  exact BitVec.extractLsb'_zero

/-! ## The value read under the two memory oracles -/

/-- A word of a memory operand is made of its two bytes as the oracle gives them (20_memory.md R33, R42). -/
theorem word_memValue (s : State) (f : Form) (lin : Word64) {j : Nat} (hj : j < 8 * f.lanes) :
    (s.memValue f lin).word j = s.oracleByte lin (2 * j + 1) ++ s.oracleByte lin (2 * j) := by
  have hlanes := Form.lanes_le f
  rw [State.memValue, word_low _ _ hj, VReg.word_eq]
  obtain ⟨n, hn⟩ : ∃ n, n = j / 8 := ⟨_, rfl⟩
  have hn4 : n < 4 := by omega
  have h8 : j % 8 < 8 := by omega
  rw [← hn]
  match n, hn4 with
  | 0, _ | 1, _ | 2, _ | 3, _ =>
    simp only [VReg.lane]
    rw [word_littleEndian _ h8]
    congr 2 <;> omega

theorem memValue_congr {s t : State} {f : Form} {lin : Word64}
    (h : ∀ k < f.bytes, t.oracleByte lin k = s.oracleByte lin k) : t.memValue f lin = s.memValue f lin := by
  refine reg_ext fun j _ => ?_
  rcases Nat.lt_or_ge j (8 * f.lanes) with hj | hj
  · have hbytes : f.bytes = 16 * f.lanes := rfl
    rw [word_memValue _ _ _ hj, word_memValue _ _ _ hj, h _ (by omega), h _ (by omega)]
  · rw [State.memValue, State.memValue, word_low_of_le _ _ hj, word_low_of_le _ _ hj]

/-- No agent changes program bytes (20_memory.md R45). -/
theorem oracleByte_of_inProgram {s : State} {lin : Word64} {k : Nat} (h : InProgram s (s.byteAddr lin k)) :
    s.oracleByte lin k = memRead s.mem (s.byteAddr lin k) := by
  unfold State.oracleByte
  split
  · rfl
  · rw [if_pos ((programByte_iff s _).2 h)]

/-- A register, or an operand in program bytes, is read as in quiet memory. -/
theorem sourceValue_quiet {s : State} {f : Form} {p : Prefixes} {len : Nat} {src : Operand}
    (h : ∀ a, src = .mem a → ∀ k < f.bytes, InProgram s (s.byteAddr (s.place f p len a).lin k)) :
    sourceValue { s with oracle := .quietMemory } f p len src = sourceValue s f p len src := by
  cases src with
  | reg r => rfl
  | mem a => exact memValue_congr fun k hk => (oracleByte_of_inProgram (h a rfl k hk)).symm

/-! ## Forms with their fields in order -/

theorem sse_parts {i : Instr} {p : Prefixes} {d : VNum} {src : Operand} {imm : BitVec 8}
    (hi : i = .sse p d src imm ∨ i = .sseRex p d src imm) :
    i.form = .sse ∧ i.prefixes = p ∧ i.source = src ∧ i.dest = d ∧ FieldsOk i := by
  obtain rfl | rfl := hi <;> exact ⟨rfl, rfl, rfl, rfl, trivial⟩

section
variable {f : Form} {i : Instr} {p : Prefixes} {d : VNum} {src : Operand} {imm : BitVec 8}

theorem fieldsOk_of_vex
    (hi : (f = .vex128 ∧ (i = .vex128C5 p 15 d src imm ∨ i = .vex128C4 p 15 d src imm)) ∨
      (f = .vex256 ∧ (i = .vex256C5 p 15 d src imm ∨ i = .vex256C4 p 15 d src imm))) : FieldsOk i := by
  obtain ⟨-, rfl | rfl⟩ | ⟨-, rfl | rfl⟩ := hi <;> rfl

theorem fieldsOk_of_evex {e : EvexCtl}
    (hi : (f = .evex128 ∧ i = .evex128 p e d src imm) ∨ (f = .evex256 ∧ i = .evex256 p e d src imm) ∨
      (f = .evex512 ∧ i = .evex512 p e d src imm))
    (hv : e.vvvv = 15) (hvp : e.vp = true) (hb : e.b = false) (hz : e.z = true → e.aaa ≠ 0) : FieldsOk i := by
  obtain ⟨-, rfl⟩ | ⟨-, rfl⟩ | ⟨-, rfl⟩ := hi <;> exact ⟨hv, hvp, hb, hz⟩

end

/-! ## The statements -/

/-- Settles O5: the low lane is the shuffle of the source, whose words are the old state's; the rest is the frame. -/
theorem sseCompletes : Obligations.SseCompletes := by
  intro i p d src imm s hi he hr hq
  obtain ⟨hform, rfl, rfl, rfl, hf⟩ := sse_parts hi
  obtain ⟨t, ht⟩ : ∃ t, exec i s = .next t := ⟨_, exec_of_ready hf (hform ▸ he) (hform ▸ hr)⟩
  have hmax := MaxVL.lanes_pos s.cpu.maxvl
  have hd := getV_dest_of_sse hi ht (sourceIs_of_ready hr)
  refine ⟨t, ht, fun j hj => ?low, fun j h8 hj => ?high, exec_frame ht⟩
  case low =>
    rw [hd, word_fit _ _ (by omega), word_keepUpper_low _ _ hj, word_shufHi _ _ (by omega),
      word_sourceValue _ .sse _ _ _ hq (shuffledIndex_lt imm hj)]
  case high => rw [hd, word_fit _ _ hj, word_keepUpper_high _ _ h8]

/-- Settles O6: V[d] is the shuffle of the source cut to VL; the rest is the frame. -/
theorem vexCompletes : Obligations.VexCompletes := by
  intro f i p d src imm s hi he hr hq
  have hf := fieldsOk_of_vex hi
  obtain ⟨rfl, rfl, rfl, rfl, -⟩ := vex_parts hi
  obtain ⟨t, ht⟩ : ∃ t, exec i s = .next t := ⟨_, exec_of_ready hf he hr⟩
  have hlanes := Form.lanes_le i.form
  have hd := getV_dest_of_vex hi ht (sourceIs_of_ready hr)
  refine ⟨t, ht, fun j hj => ?low, fun j h8 _ => ?high, exec_frame ht⟩
  case low =>
    rw [hd, word_low _ _ hj, word_shufHi _ _ (by omega), word_sourceValue _ _ _ _ _ hq (shuffledIndex_lt imm hj)]
  case high => rw [hd, word_low_of_le _ _ h8]

/-- Settles O7: V[d] is the merge of the shuffled source with its old value, cut to VL; the rest is the frame. -/
theorem evexCompletes : Obligations.EvexCompletes := by
  intro f i p e d src imm s hi hv hvp hb hz he hr hq
  have hf := fieldsOk_of_evex hi hv hvp hb hz
  obtain ⟨rfl, rfl, rfl, rfl, -⟩ := evex_parts hi
  obtain ⟨t, ht⟩ : ∃ t, exec i s = .next t := ⟨_, exec_of_ready hf he hr⟩
  have hlanes := Form.lanes_le i.form
  have hd := getV_dest_of_evex hi ht (sourceIs_of_ready hr)
  refine ⟨t, ht, fun j hj => ?low, fun j h8 _ => ?high, exec_frame ht⟩
  case low =>
    rw [hd, word_low _ _ hj, word_maskMerge_shufHi _ _ _ _ _ _ (by omega),
      word_sourceValue _ _ _ _ _ hq (shuffledIndex_lt imm hj)]
    simp only [decide_eq_true_eq]
  case high => rw [hd, word_low_of_le _ _ h8]

/-- Settles O8: completing and `resultWord` do not depend on the oracle, and neither does the value read from a register
or from program bytes. -/
theorem completesWhateverOthersWrite : Obligations.CompletesWhateverOthersWrite := by
  intro i s hf he hr _
  have ht := exec_of_ready hf he hr
  obtain ⟨hv, hip, hsame⟩ := exec_frame ht
  have hx := sourceIs_of_ready hr
  refine ⟨_, ht, hip, hv, hsame, ⟨_, hx, fun j hj => word_dest_of_exec ht hx hj⟩, fun hprog => ?quiet⟩
  case quiet =>
    have hr' : SourceReady i.form { s with oracle := .quietMemory } i.prefixes i.length i.source := by
      cases hs : i.source <;> rw [hs] at hr <;> exact hr
    refine ⟨_, exec_of_ready (s := { s with oracle := .quietMemory }) hf he hr', ?_⟩
    have hres := fun x => result_congr (i := i) (s := s) (t := { s with oracle := .quietMemory }) x rfl fun _ _ => rfl
    rw [sourceValue_quiet hprog, hres]
    simp only [complete_v, State.setV, afterSource_v, afterSource_cpu]

/-- Settles O9: where every mask bit below KL is 0, each word below VL is zero or the old one, as z says. -/
theorem allZeroMask : Obligations.AllZeroMask := by
  intro f i p e d src imm s hi hv hvp hb haaa hmask he hr
  have hf := fieldsOk_of_evex hi hv hvp hb fun _ => haaa
  obtain ⟨rfl, rfl, rfl, rfl, -⟩ := evex_parts hi
  obtain ⟨t, ht⟩ : ∃ t, exec i s = .next t := ⟨_, exec_of_ready hf he hr⟩
  obtain ⟨-, hip, -⟩ := exec_frame ht
  refine ⟨t, ht, hip, ?_⟩
  have hlanes := Form.lanes_le i.form
  have hword : ∀ j < 8 * i.form.lanes, ∀ x, (maskMerge (shufHi x imm) (s.getV i.dest) (s.getK e.aaa)
      (decide (e.aaa = 0)) e.z).word j = if e.z = true then 0 else (s.getV i.dest).word j := fun j hj x => by
    rw [word_maskMerge_shufHi _ _ _ _ _ _ (by omega), if_neg]
    rw [hmask j hj, decide_eq_false haaa]
    decide
  rw [getV_dest_of_evex hi ht (sourceIs_of_ready hr)]
  split
  next hz =>
    rw [← low_zero i.form.lanes]
    refine low_ext _ fun j hj => ?_
    rw [hword j hj, if_pos hz, word_zero]
  next hz =>
    refine low_ext _ fun j hj => ?_
    rw [hword j hj, if_neg hz]

end Sys2Proof.Machine
end

section
/-! SUPPORT. What no form looks at: the flags but for the alignment-check bit, and the source register above VL. -/

namespace Sys2Proof.Machine

/-! ## The flags -/

/-- A change that leaves alone everything the read of one place looks at passes through that read. -/
theorem readMem_map (g : State → State) {s : State} {f : Form} {q : Place}
    (hm : (g s).memFaults f q = s.memFaults f q) (hn : (g s).fresh = s.fresh)
    (ha : (g s).alignmentDoubt f q.lin = s.alignmentDoubt f q.lin)
    (ho : (g s).allOrdinary f q.lin = s.allOrdinary f q.lin) (hx : (g s).memValue f q.lin = s.memValue f q.lin)
    (hr : (g s).afterRead f.bytes = g (s.afterRead f.bytes)) :
    (g s).readMem f q = andThen (s.readMem f q) fun (x, s') => .next (x, g s') := by
  simp only [State.readMem, hm, hn, ha, ho, hx, hr]
  split
  · rfl
  · split
    · rfl
    · split <;> rfl

section
variable {s : State} {fl : Word64}

/-- Alignment checking looks at one flag (20_memory.md R35; log 10), and a read doubts misaligned operands alone. -/
theorem alignmentDoubt_setRflags {f : Form} {lin : Word64}
    (h : fl.getLsbD 18 = s.rflags.getLsbD 18 ∨ lin.toNat % f.bytes = 0 ∨ s.cr0.getLsbD 18 = false ∨ s.cpl ≠ 3) :
    State.alignmentDoubt { s with rflags := fl } f lin = s.alignmentDoubt f lin := by
  simp only [State.alignmentDoubt, State.alignmentChecking]
  obtain h | h | h | h := h
  · rw [h]
  · simp [h]
  · simp only [h, Bool.false_and]
  · simp only [decide_eq_false h, Bool.and_false, Bool.false_and]

theorem readMem_setRflags {f : Form} {q : Place}
    (h : State.alignmentDoubt { s with rflags := fl } f q.lin = s.alignmentDoubt f q.lin) :
    State.readMem { s with rflags := fl } f q =
      andThen (s.readMem f q) fun (x, s') => .next (x, { s' with rflags := fl }) :=
  readMem_map (fun t => { t with rflags := fl }) rfl rfl h rfl rfl
    (afterRead_comm (fun t => { t with rflags := fl }) s _ rfl rfl)

end

/-! ## The source register above VL -/

theorem setV_complete_comm (t : State) {r d : VNum} (h : r ≠ d) (x y : VReg) (n : Nat) :
    (t.setV r x).complete d y n = (t.complete d y n).setV r x := by
  have hne : r.toNat ≠ d.toNat := fun e => h (BitVec.eq_of_toNat_eq e)
  simp only [State.complete, State.setV, Vector.set_comm _ _ hne]
  rfl

/-- Fitting to MAXVL keeps the bits below a VL that fits. -/
theorem low_fit (f : Form) {m : MaxVL} (h : f.lanes ≤ m.lanes) (x : VReg) :
    VReg.low f.lanes (x.fit m) = VReg.low f.lanes x :=
  low_ext f fun _ hj => word_fit x m (by omega)

/-! ## The statements -/

/-- Settles O11: the checks and the written value see no flag, the read sees one, and that one only where alignment
checking can be on and the operand is misaligned. -/
theorem flagsNeitherReadNorWritten : Obligations.FlagsNeitherReadNorWritten := by
  intro i s fl h
  refine exec_mapNext_of_unread (fun t => { t with rflags := fl }) i s (fun _ => rfl) ?_ rfl (fun _ _ => rfl) fun _ _ => rfl
  cases hsrc : i.source with
  | reg r => rfl
  | mem a =>
    refine readMem_setRflags (alignmentDoubt_setRflags ?_)
    obtain hbit | ⟨r, hr⟩ | haligned | hcr0 | hcpl := h
    · exact .inl hbit
    · exact nomatch hsrc.symm.trans hr
    · exact .inr (.inl (haligned a hsrc))
    · exact .inr (.inr (.inl hcr0))
    · exact .inr (.inr (.inr hcpl))

/-- Settles O14: where VL fits MAXVL the source is read as its low VL bits, which the change keeps; elsewhere the form
raises #UD in both states. -/
theorem sourceAboveVlNeverRead : Obligations.SourceAboveVlNeverRead := by
  intro i s r x hsrc hr hlow
  by_cases hp : Powered i.form s
  · obtain ⟨-, hvl, -⟩ := hp
    refine exec_mapNext_of_unread (fun t => t.setV r x) i s (fun _ => rfl) ?_ (getV_setV_of_ne _ _ _ _ (Ne.symm hr))
      (fun _ _ => rfl) fun t y => setV_complete_comm t hr x y _
    rw [hsrc]
    show Host.Outcome.next (VReg.low i.form.lanes ((s.setV r x).getV r), s.setV r x) = _
    rw [getV_setV_same, low_fit i.form hvl, hlow]
    rfl
  · rw [exec_of_not_powered hp, exec_of_not_powered (s := s.setV r x) hp]
    rfl

end Sys2Proof.Machine
end

section
/-! SUPPORT. The faults and refusals of a memory operand: which faults apply, in the terms of Safety.lean, which one a
form raises, and the statements about them. -/

namespace Sys2Proof.Machine

/-! ## The faults that apply to a memory operand -/

section
variable {s : State} {q : Place} {n : Nat} {x : Fault} {f : Form} {e : TransRange}

/-- The address check's fault is #SS(0) through the stack segment in the two newer modes, else #GP(0) (60_exceptions.md
R131, R137). -/
theorem mem_addressFaults_iff :
    x ∈ s.addressFaults q n ↔
      ¬AddressOk s q n ∧ x = if (s.mode = .mode64 ∨ s.mode = .mode32) ∧ q.seg = .ss then .ss0 else .gp0 := by
  rw [← addressFaults_eq_nil_iff]
  cases hm : s.mode <;> simp only [State.addressFaults, segFault, hm] <;> split <;> simp

theorem mem_alignmentFaults_iff : x ∈ alignmentFaults f q ↔ (f = .sse ∧ q.lin.toNat % 16 ≠ 0) ∧ x = .gp0 := by
  cases f with
  | sse => by_cases h : q.lin.toNat % 16 = 0 <;> simp [alignmentFaults, h]
  | vex128 | vex256 | evex128 | evex256 | evex512 => simp [alignmentFaults]

/-- The operand's bytes lie at the addresses an entry of Translate was matched against. -/
theorem mem_touched_iff {lin : Word64} {b : Nat} :
    b ∈ s.touched e lin n ↔ ∃ k < n, s.byteAddr lin k = b ∧ e.base ≤ b ∧ b < e.base + e.size := by
  simp only [State.touched, List.mem_filter, List.mem_map, List.mem_range, Bool.and_eq_true, decide_eq_true_eq]
  constructor
  · rintro ⟨⟨k, hk, hb⟩, hcov⟩
    exact ⟨k, hk, hb, hcov⟩
  · rintro ⟨k, hk, hb, hcov⟩
    exact ⟨⟨k, hk, hb⟩, hcov⟩

/-- An entry of Translate reports a page fault for this operand, with the error code `code` and the address `addr`. -/
def PageFaults (s : State) (q : Place) (n : Nat) (code : BitVec 5) (addr : Word64) (e : TransRange) : Prop :=
  s.mode ≠ .real ∧ ∃ present user reserved, e.kind = .page present user reserved ∧
    code = pageFaultCode present user reserved ∧
    ∃ k < n, addr = BitVec.ofNat 64 (s.byteAddr q.lin k) ∧ e.base ≤ s.byteAddr q.lin k ∧
      s.byteAddr q.lin k < e.base + e.size

/-- Everything an entry of Translate can report (20_memory.md R40). -/
theorem transFault_eq_some (h : s.transFault q n e = some x) :
    (s.mode = .mode32 ∧ e.kind = .segment q.seg ∧
        (∃ k < n, e.base ≤ s.byteAddr q.lin k ∧ s.byteAddr q.lin k < e.base + e.size) ∧ x = segFault q.seg) ∨
      ∃ code addr, x = .pf code addr ∧ PageFaults s q n code addr e := by
  unfold State.transFault at h
  split at h
  · exact nomatch h
  · rename_i a as ht
    split at h
    · rename_i r hkind
      split at h
      · rename_i hr
        obtain ⟨k, hk, rfl, hcov⟩ := mem_touched_iff.1 (ht ▸ List.mem_cons_self : a ∈ s.touched e q.lin n)
        obtain ⟨rfl, hmode⟩ := hr
        exact .inl ⟨hmode, hkind, ⟨k, hk, hcov⟩, (Option.some.inj h).symm⟩
      · exact nomatch h
    · rename_i present user reserved hkind
      split at h
      · exact nomatch h
      · rename_i hreal
        have hlt : e.report % (a :: as).length < (a :: as).length := Nat.mod_lt _ (Nat.succ_pos _)
        rw [List.getD_eq_getElem _ _ hlt] at h
        have hmem : (a :: as)[e.report % (a :: as).length] ∈ s.touched e q.lin n := by
          rw [ht]
          exact List.getElem_mem hlt
        obtain ⟨k, hk, hb, hcov⟩ := mem_touched_iff.1 hmem
        refine .inr ⟨_, _, (Option.some.inj h).symm, hreal, present, user, reserved, hkind, rfl, k, hk, ?_⟩
        rw [hb]
        exact ⟨rfl, hcov⟩

/-- An entry that fails the operand's segment check, or that covers a byte of it with a page outside real-address mode,
reports something. -/
theorem transFault_ne_none {k : Nat} (hk : k < n)
    (hcov : e.base ≤ s.byteAddr q.lin k ∧ s.byteAddr q.lin k < e.base + e.size)
    (hkind : (s.mode = .mode32 ∧ e.kind = .segment q.seg) ∨
      (s.mode ≠ .real ∧ ∃ present user reserved, e.kind = .page present user reserved)) :
    s.transFault q n e ≠ none := by
  have hmem : s.byteAddr q.lin k ∈ s.touched e q.lin n := mem_touched_iff.2 ⟨k, hk, rfl, hcov⟩
  unfold State.transFault
  split
  · rename_i hnil
    rw [hnil] at hmem
    exact absurd hmem List.not_mem_nil
  · obtain ⟨hmode, hkind⟩ | ⟨hreal, present, user, reserved, hkind⟩ := hkind
    · simp [hkind, hmode]
    · simp [hkind, hreal]

theorem mem_memFaults_iff :
    x ∈ s.memFaults f q ↔ x ∈ s.addressFaults q f.bytes ∨ x ∈ alignmentFaults f q ∨
      ∃ e ∈ s.xlat, s.transFault q f.bytes e = some x := by
  simp only [State.memFaults, List.mem_append, List.mem_filterMap, or_assoc]

/-- Every fault that applies to a memory operand, with its condition (60_exceptions.md R138 group 4). -/
theorem fault_of_mem_memFaults (h : x ∈ s.memFaults f q) :
    (¬AddressOk s q f.bytes ∧ x = if (s.mode = .mode64 ∨ s.mode = .mode32) ∧ q.seg = .ss then .ss0 else .gp0) ∨
      ((f = .sse ∧ q.lin.toNat % 16 ≠ 0) ∧ x = .gp0) ∨
      (SegmentCheckFails s q f.bytes ∧ x = segFault q.seg) ∨
      ∃ code addr, x = .pf code addr ∧ ∃ e ∈ s.xlat, PageFaults s q f.bytes code addr e := by
  obtain h | h | ⟨e, he, h⟩ := mem_memFaults_iff.1 h
  · exact .inl (mem_addressFaults_iff.1 h)
  · exact .inr (.inl (mem_alignmentFaults_iff.1 h))
  · obtain ⟨hmode, hkind, hcov, hx⟩ | ⟨code, addr, hx, hpage⟩ := transFault_eq_some h
    · exact .inr (.inr (.inl ⟨⟨hmode, e, he, hkind, hcov⟩, hx⟩))
    · exact .inr (.inr (.inr ⟨code, addr, hx, e, he, hpage⟩))

/-- Where one condition at least holds, a fault applies. -/
theorem memFaults_ne_nil
    (h : ¬AddressOk s q f.bytes ∨ (f = .sse ∧ q.lin.toNat % 16 ≠ 0) ∨ SegmentCheckFails s q f.bytes ∨
      (s.mode ≠ .real ∧ ∃ e ∈ s.xlat, (∃ present user reserved, e.kind = .page present user reserved) ∧
        ∃ k < f.bytes, e.base ≤ s.byteAddr q.lin k ∧ s.byteAddr q.lin k < e.base + e.size)) :
    s.memFaults f q ≠ [] := by
  have hentry : ∀ e ∈ s.xlat, s.transFault q f.bytes e ≠ none → s.memFaults f q ≠ [] := fun e he hne => by
    obtain ⟨x, hx⟩ := Option.ne_none_iff_exists'.1 hne
    exact List.ne_nil_of_mem (mem_memFaults_iff.2 (.inr (.inr ⟨e, he, hx⟩)))
  obtain h | h | ⟨hmode, e, he, hkind, k, hk, hcov⟩ | ⟨hreal, e, he, hkind, k, hk, hcov⟩ := h
  · exact List.ne_nil_of_mem (mem_memFaults_iff.2 (.inl (mem_addressFaults_iff.2 ⟨h, rfl⟩)))
  · exact List.ne_nil_of_mem (mem_memFaults_iff.2 (.inr (.inl (mem_alignmentFaults_iff.2 ⟨h, rfl⟩))))
  · exact hentry e he (transFault_ne_none hk hcov (.inl ⟨hmode, hkind⟩))
  · exact hentry e he (transFault_ne_none hk hcov (.inr ⟨hreal, hkind⟩))

theorem memFaults_eq_nil (ha : AddressOk s q f.bytes) (hal : f = .sse → q.lin.toNat % 16 = 0)
    (hu : Untouched s q f.bytes) : s.memFaults f q = [] := by
  rw [State.memFaults, (addressFaults_eq_nil_iff s q _).2 ha, (alignmentFaults_eq_nil_iff f q).2 hal,
    transFaults_of_untouched hu]
  rfl

/-- Where no entry covers a byte, none fails a segment check or reports a page fault. -/
theorem no_transFault_of_untouched (hu : Untouched s q n) :
    ¬SegmentCheckFails s q n ∧ ∀ code addr, ∀ e ∈ s.xlat, ¬PageFaults s q n code addr e :=
  ⟨fun ⟨_, e, he, _, k, hk, hcov⟩ => hu e he k hk hcov,
    fun _ _ e he ⟨_, _, _, _, _, _, k, hk, _, hcov⟩ => hu e he k hk hcov⟩

end

/-! ## What a form does with them -/

section
variable {i : Instr} {s : State} {a : Addr} {x : Fault}

theorem fieldsOk_of_sse (h : i.form = .sse) : FieldsOk i := by
  cases i with
  | sse | sseRex => trivial
  | vex128C5 | vex128C4 | vex256C5 | vex256C4 | evex128 | evex256 | evex512 => exact nomatch h

/-- A form whose checks pass goes on to the read of its source. -/
theorem exec_of_enabled (hf : FieldsOk i) (he : Enabled i.form s) :
    exec i s = andThen (s.readSource i.form i.prefixes i.length i.source) fun (x, s') =>
      .next (s'.complete i.dest (result i s x) i.length) := by
  obtain ⟨hud, hrefused⟩ := (fieldsOk_iff i).1 hf
  have hts : s.ts = false := he.2
  rw [exec_eq, hud, hrefused, guarded, (notEnabled_eq_false_iff _ _).2 he.1, hts]
  rfl

/-- An enabled form raises one of the faults that apply to its operand, where there are any. -/
theorem exec_fault_of_memFaults (hf : FieldsOk i) (he : Enabled i.form s) (hs : i.source = .mem a)
    (h : s.memFaults i.form (s.place i.form i.prefixes i.length a) ≠ []) :
    ∃ x ∈ s.memFaults i.form (s.place i.form i.prefixes i.length a), exec i s = .fault x := by
  obtain ⟨x, hx⟩ := Option.ne_none_iff_exists'.1 (mt (pickFault_eq_none_iff s.fresh _).1 h)
  exact ⟨x, pickFault_mem hx, exec_of_pickFault hf he hs hx⟩

theorem readMem_eq_fault {f : Form} {q : Place} (h : s.readMem f q = .fault x) : x ∈ s.memFaults f q := by
  unfold State.readMem at h
  split at h
  · rename_i e he
    obtain rfl : e = x := by simpa [raise] using h
    exact pickFault_mem he
  · split at h
    · exact nomatch h
    · split at h <;> exact nomatch h

theorem guarded_eq_fault {f : Form} {ud : Bool} {rf : Option Refusal} {go : Host.Outcome State Fault Refusal}
    (h : guarded f ud rf s go = .fault x) :
    ((ud = true ∨ s.notEnabled f = true) ∧ x = .ud) ∨
      ud = false ∧ s.notEnabled f = false ∧ rf = none ∧ ((s.ts = true ∧ x = .nm) ∨ s.ts = false ∧ go = .fault x) := by
  unfold guarded at h
  cases ud <;> cases hn : s.notEnabled f <;> cases rf <;> cases hts : s.ts <;> simp_all [raise]

theorem andThen_eq_fault {α : Type} {o : Host.Outcome α Fault Refusal} {g : α → Host.Outcome State Fault Refusal}
    (h : andThen o g = .fault x) (hg : ∀ b, g b ≠ .fault x) : o = .fault x := by
  cases o with
  | next b => exact absurd h (hg b)
  | fault e => exact congrArg _ (Host.Outcome.fault.inj h)
  | refused r => exact nomatch h

/-- Everything a form that faults can have met: a #UD condition, CR0.TS, or a fault on its operand, in this order
(60_exceptions.md R138). -/
theorem exec_eq_fault (h : exec i s = .fault x) :
    (x = .ud ∧ ¬(FieldsOk i ∧ Powered i.form s)) ∨
      (x = .nm ∧ FieldsOk i ∧ Powered i.form s ∧ s.cr0.getLsbD 3 = true) ∨
      FieldsOk i ∧ Enabled i.form s ∧
        ∃ a, i.source = .mem a ∧ x ∈ s.memFaults i.form (s.place i.form i.prefixes i.length a) := by
  rw [fieldsOk_iff, Enabled, ← notEnabled_eq_false_iff]
  obtain ⟨hud, rfl⟩ | ⟨hud, hn, hrf, ⟨hts, rfl⟩ | ⟨hts, hgo⟩⟩ := guarded_eq_fault (exec_eq i s ▸ h)
  · refine .inl ⟨rfl, fun ⟨⟨h1, _⟩, h2⟩ => ?_⟩
    simp [h1, h2] at hud
  · exact .inr (.inl ⟨rfl, ⟨hud, hrf⟩, hn, hts⟩)
  · refine .inr (.inr ⟨⟨hud, hrf⟩, ⟨hn, hts⟩, ?_⟩)
    have hread := andThen_eq_fault hgo fun _ => nofun
    cases hs : i.source with
    | reg r => rw [hs] at hread; exact nomatch hread
    | mem a => rw [hs] at hread; exact ⟨a, rfl, readMem_eq_fault hread⟩

theorem alignmentDoubt_iff (s : State) (f : Form) (lin : Word64) :
    s.alignmentDoubt f lin = true ↔ AlignmentChecked s ∧ lin.toNat % f.bytes ≠ 0 := by
  rw [State.alignmentDoubt, Bool.and_eq_true, alignmentChecking_iff, decide_eq_true_eq]

/-- The refusals of an operand to which no fault applies (20_memory.md R35, R37; log 30). -/
theorem exec_of_no_memFaults (hf : FieldsOk i) (he : Enabled i.form s) (hs : i.source = .mem a)
    (h : s.memFaults i.form (s.place i.form i.prefixes i.length a) = []) :
    (s.alignmentDoubt i.form (s.place i.form i.prefixes i.length a).lin = true →
        exec i s = .refused .alignmentCheckEnabled) ∧
      (s.alignmentDoubt i.form (s.place i.form i.prefixes i.length a).lin = false →
        s.allOrdinary i.form (s.place i.form i.prefixes i.length a).lin = false →
        exec i s = .refused .nonMemoryAddress) := by
  rw [exec_of_enabled hf he, hs, State.readSource, State.readMem, h]
  refine ⟨fun hd => ?_, fun hd ho => ?_⟩
  · rw [hd]; rfl
  · rw [hd, ho]; rfl

end

/-! ## The mask and the faults of an EVEX form -/

theorem readSource_setK (s : State) (k : Vector Word64 8) (f : Form) (p : Prefixes) (len : Nat) (src : Operand) :
    State.readSource { s with k := k } f p len src =
      andThen (s.readSource f p len src) fun (x, s') => .next (x, { s' with k := k }) :=
  readSource_map (fun t => { t with k := k }) s f p len src (fun _ => rfl) (fun _ => rfl) (fun _ => rfl) rfl
    (fun _ => rfl) (fun _ => rfl) (fun _ => rfl) (afterRead_comm (fun t => { t with k := k }) s _ rfl rfl)

/-- No mask, mask number or zeroing bit that earns no refusal changes a fault (20_memory.md R31). -/
theorem runEvex_fault_of_mask {f : Form} {p : Prefixes} {e : EvexCtl} {len : Nat} {d : VNum} {a : Addr}
    {imm : BitVec 8} {s : State} {x : Fault} {z : Bool} {aaa : BitVec 3} (k : Vector Word64 8)
    (hz : z = true → aaa ≠ 0) (h : runEvex f p e len d (.mem a) imm s = .fault x) :
    runEvex f p { e with z := z, aaa := aaa } len d (.mem a) imm { s with k := k } = .fault x := by
  have hrf : EvexCtl.refusal { e with z := z, aaa := aaa } (.mem a) = none := by
    cases z with
    | false => rfl
    | true => simpa [EvexCtl.refusal] using hz rfl
  have hn : State.notEnabled { s with k := k } f = s.notEnabled f := rfl
  have hu : EvexCtl.undefined { e with z := z, aaa := aaa } (.mem a) = e.undefined (.mem a) := rfl
  have hts : State.ts { s with k := k } = s.ts := rfl
  unfold runEvex
  rw [hrf, hu, guarded, hn, hts]
  obtain ⟨hud, rfl⟩ | ⟨hud, hne, -, ⟨ht, rfl⟩ | ⟨ht, hgo⟩⟩ := guarded_eq_fault h
  · rw [if_pos (by rw [Bool.or_eq_true]; exact hud)]
    rfl
  · rw [hud, hne, ht]
    rfl
  · rw [hud, hne, ht, readSource_setK, andThen_eq_fault hgo fun _ => nofun]
    rfl

/-! ## The statements -/

/-- Settles O42: the alignment check is the one fault that applies. -/
theorem misalignedSseOperandRaisesGp : Obligations.MisalignedSseOperandRaisesGp := by
  intro i s a hform hs he ha hu hmis
  have hf := fieldsOk_of_sse hform
  have hbytes : i.form.bytes = 16 := by rw [hform]; rfl
  rw [← hform] at he ha hu hmis
  rw [← hbytes] at ha hu
  obtain ⟨x, hx, hexec⟩ := exec_fault_of_memFaults hf he hs (memFaults_ne_nil (.inr (.inl ⟨hform, hmis⟩)))
  obtain ⟨hseg, hpage⟩ := no_transFault_of_untouched hu
  obtain ⟨h, -⟩ | ⟨-, rfl⟩ | ⟨h, -⟩ | ⟨code, addr, -, e, hmem, h⟩ := fault_of_mem_memFaults hx
  · exact absurd ha h
  · exact hexec
  · exact absurd h hseg
  · exact absurd h (hpage code addr e hmem)

/-- Settles O43: the address check is the one fault that applies. -/
theorem badAddressRaisesSsOrGp : Obligations.BadAddressRaisesSsOrGp := by
  intro i s a hf he hs hal hu hbad
  have hnot : ¬AddressOk s (s.place i.form i.prefixes i.length a) i.form.bytes := by
    unfold AddressOk
    cases hm : s.mode with
    | mode64 =>
      rw [hm] at hbad
      obtain ⟨k, hk, hcan⟩ := hbad
      exact fun h => Bool.false_ne_true (hcan.symm.trans (h k hk))
    | mode32 | real | v86 =>
      rw [hm] at hbad
      exact Nat.not_le_of_lt hbad
  obtain ⟨x, hx, hexec⟩ := exec_fault_of_memFaults hf he hs (memFaults_ne_nil (.inl hnot))
  obtain ⟨hseg, hpage⟩ := no_transFault_of_untouched hu
  obtain ⟨-, rfl⟩ | ⟨⟨hsse, hmis⟩, -⟩ | ⟨h, -⟩ | ⟨code, addr, -, e, hmem, h⟩ := fault_of_mem_memFaults hx
  · exact hexec
  · exact absurd (hal hsse) hmis
  · exact absurd h hseg
  · exact absurd h (hpage code addr e hmem)

/-- Settles O58: the segment check is the one kind of fault that applies. -/
theorem segmentCheckIsReported : Obligations.SegmentCheckIsReported := by
  intro i s a hf he hs hal ha hseg hpages
  obtain ⟨x, hx, hexec⟩ := exec_fault_of_memFaults hf he hs (memFaults_ne_nil (.inr (.inr (.inl hseg))))
  obtain ⟨h, -⟩ | ⟨⟨hsse, hmis⟩, -⟩ | ⟨-, rfl⟩ | ⟨code, addr, -, e, hmem, h⟩ := fault_of_mem_memFaults hx
  · exact absurd ha h
  · exact absurd (hal hsse) hmis
  · exact hexec
  · obtain ⟨-, present, user, reserved, hkind, -, k, hk, -, hcov⟩ := h
    exact absurd hcov (hpages e hmem present user reserved hkind k hk)

theorem pageFaultCode_bits : ∀ present user reserved,
    (pageFaultCode present user reserved).getLsbD 0 = present ∧ (pageFaultCode present user reserved).getLsbD 1 = false ∧
      (pageFaultCode present user reserved).getLsbD 2 = user ∧
      (pageFaultCode present user reserved).getLsbD 3 = reserved ∧
      (pageFaultCode present user reserved).getLsbD 4 = false := by decide

/-- Settles O44: the one entry's page fault is the one fault that applies. -/
theorem pageFaultIsReported : Obligations.PageFaultIsReported := by
  intro i s a base size report present user reserved hf he hs hreal hal ha hxlat hcov
  have hmem0 : _ ∈ s.xlat := hxlat ▸ List.mem_singleton_self _
  obtain ⟨x, hx, hexec⟩ := exec_fault_of_memFaults hf he hs
    (memFaults_ne_nil (.inr (.inr (.inr ⟨hreal, _, hmem0, ⟨present, user, reserved, rfl⟩, hcov⟩))))
  obtain ⟨h, -⟩ | ⟨⟨hsse, hmis⟩, -⟩ | ⟨⟨-, e, hmem, hkind, -⟩, -⟩ | ⟨code, addr, rfl, e, hmem, h⟩ :=
    fault_of_mem_memFaults hx
  · exact absurd ha h
  · exact absurd (hal hsse) hmis
  · obtain rfl := List.mem_singleton.1 (hxlat ▸ hmem)
    exact nomatch hkind
  · obtain rfl := List.mem_singleton.1 (hxlat ▸ hmem)
    obtain ⟨-, p, u, r, hkind, rfl, k, hk, rfl, hk'⟩ := h
    obtain ⟨rfl, rfl, rfl⟩ : present = p ∧ user = u ∧ reserved = r := by simpa using hkind
    exact ⟨_, k, hk, hexec, hk'.1, hk'.2, pageFaultCode_bits ..⟩

/-- Settles O45: each EVEX constructor is `runEvex`, and the instruction's length does not depend on its mask fields. -/
theorem maskSuppressesNoFault : Obligations.MaskSuppressesNoFault :=
  fun _ _ _ _ _ _ _ _ _ k hz =>
    ⟨runEvex_fault_of_mask k hz, runEvex_fault_of_mask k hz, runEvex_fault_of_mask k hz⟩

/-- Settles O46: a fault is the checks' or one of those that apply to the operand (`exec_eq_fault`,
`fault_of_mem_memFaults`). -/
theorem reportedFaultApplies : Obligations.ReportedFaultApplies := by
  intro i s x h
  obtain ⟨rfl, hc⟩ | ⟨rfl, hc⟩ | ⟨hf, he, a, hs, hx⟩ := exec_eq_fault h
  · exact hc
  · exact hc
  · obtain ⟨hc, rfl⟩ | ⟨hc, rfl⟩ | ⟨hc, rfl⟩ | ⟨code, addr, rfl, e, hmem, hreal, hpage⟩ := fault_of_mem_memFaults hx
    · by_cases hss : (s.mode = .mode64 ∨ s.mode = .mode32) ∧ (s.place i.form i.prefixes i.length a).seg = .ss
      · rw [if_pos hss]
        exact ⟨hf, he, a, hs, hss.2, hss.1, .inl hc⟩
      · rw [if_neg hss]
        refine ⟨hf, he, a, hs, .inl ⟨?_, .inl hc⟩⟩
        cases hm : s.mode <;> simp_all
    · exact ⟨hf, he, a, hs, .inr hc⟩
    · obtain ⟨hmode, -⟩ := id hc
      by_cases hss : (s.place i.form i.prefixes i.length a).seg = .ss
      · rw [segFault, if_pos hss]
        exact ⟨hf, he, a, hs, hss, .inr hmode, .inr hc⟩
      · rw [segFault, if_neg hss]
        exact ⟨hf, he, a, hs, .inl ⟨.inl hss, .inr hc⟩⟩
    · exact ⟨hf, he, hreal, a, hs, e, hmem, hpage⟩

/-- Settles O48: with no fault the read tests alignment, then ordinary memory. -/
theorem doubtfulReadsAreRefused : Obligations.DoubtfulReadsAreRefused := by
  intro i s a hf he hs hal ha hu
  obtain ⟨hdoubt, hmemory⟩ := exec_of_no_memFaults hf he hs (memFaults_eq_nil ha hal hu)
  refine ⟨fun hc hmis => hdoubt ((alignmentDoubt_iff ..).2 ⟨hc, hmis⟩), fun hn ho => hmemory ?_ ?_⟩
  · exact Bool.eq_false_of_not_eq_true (mt (alignmentDoubt_iff ..).1 hn)
  · exact Bool.eq_false_of_not_eq_true (mt (allOrdinary_iff ..).1 ho)

/-- Settles O59: a fault applies, so one is raised, and none of those is #UD or #NM. -/
theorem applicableOperandFaultIsRaised : Obligations.ApplicableOperandFaultIsRaised := by
  intro i s a hf he hs q h
  obtain ⟨x, hx, hexec⟩ := exec_fault_of_memFaults hf he hs (memFaults_ne_nil h)
  refine ⟨x, hexec, ?_⟩
  obtain ⟨-, rfl⟩ | ⟨-, rfl⟩ | ⟨-, rfl⟩ | ⟨code, addr, rfl, -⟩ := fault_of_mem_memFaults hx
  · split <;> exact ⟨nofun, nofun⟩
  · exact ⟨nofun, nofun⟩
  · unfold segFault
    split <;> exact ⟨nofun, nofun⟩
  · exact ⟨nofun, nofun⟩

end Sys2Proof.Machine
end

section
/-! SUPPORT. Lists of legacy bytes a form admits: that register forms decode after all of them, and that the order of
the bytes does not matter. -/

namespace Sys2Proof

/-! ## Admitted legacy bytes -/

theorem prefixesOf_eq (lead : List Byte) :
    prefixesOf lead = { seg := lead.findSome? segOverride, addrSize := decide ((0x67 : Byte) ∈ lead) } := by
  simp only [prefixesOf, List.contains_eq_mem]

theorem isRex_of_segByte (c : Ctx) {x : Byte} (h : isSegByte x = true) : isRex c x = false := by
  have hseg : ∀ y : Byte, isSegByte y = true → y.extractLsb' 4 4 ≠ 4 := by decide +kernel
  rw [isRex, decide_eq_false (hseg x h), Bool.and_false]

section
variable {c : Ctx} {lead : List Byte} (h : ∀ x ∈ lead, isSegByte x = true ∨ x = 0x67 ∨ x = 0xF3)
include h

theorem leading_of_admitted : ∀ x ∈ lead, isLeading c x = true := fun x hx => by
  obtain hseg | rfl | rfl := h x hx <;> simp [isLeading, *]

theorem noRex_of_admitted : ∀ x ∈ lead, isRex c x = false := fun x hx => by
  obtain hseg | rfl | rfl := h x hx
  · exact isRex_of_segByte c hseg
  · simp [isRex]
  · simp [isRex]

theorem not_mem_of_admitted {b : Byte} (hb : isSegByte b = false) (h67 : b ≠ 0x67) (hF3 : b ≠ 0xF3) : b ∉ lead :=
  fun hm => by obtain hseg | rfl | rfl := h b hm <;> simp_all

/-- Without `F3` none of them spoils a VEX or EVEX form. -/
theorem not_spoilsVex_of_admitted (hF3 : (0xF3 : Byte) ∉ lead) : lead.any (spoilsVex c) = false := by
  rw [List.any_eq_false]
  intro x hx
  have hne : ∀ b : Byte, b ∉ lead → x ≠ b := fun b hb e => hb (e ▸ hx)
  simp only [spoilsVex, noRex_of_admitted h x hx, Bool.or_false, Bool.or_eq_true, decide_eq_true_eq, not_or]
  exact ⟨⟨⟨hne _ (not_mem_of_admitted h (by decide) (by decide) (by decide)),
    hne _ (not_mem_of_admitted h (by decide) (by decide) (by decide))⟩, hne _ hF3⟩,
    hne _ (not_mem_of_admitted h (by decide) (by decide) (by decide))⟩

/-- With `F3` once the SSE form admits them, alone or with a REX byte last (30_encoding.md R52, R53). -/
theorem sseLeadOk_of_admitted (hseg : (lead.filter isSegByte).length ≤ 1) (h67 : lead.count 0x67 ≤ 1)
    (hF3 : lead.count 0xF3 = 1) : sseLeadOk c lead = true ∧ lead.contains 0xF0 = false := by
  have hzero : ∀ b : Byte, isSegByte b = false → b ≠ 0x67 → b ≠ 0xF3 → lead.count b = 0 := fun b h1 h2 h3 =>
    List.count_eq_zero.2 (not_mem_of_admitted h h1 h2 h3)
  have hrex : lead.filter (isRex c) = [] := by
    rw [List.filter_eq_nil_iff]
    exact fun x hx => by simp [noRex_of_admitted h x hx]
  refine ⟨?_, by simpa using not_mem_of_admitted h (b := 0xF0) (by decide) (by decide) (by decide)⟩
  rw [sseLeadOk, singleOverrides, rexOf_of_noRex (noRex_of_admitted h), hF3, hrex,
    hzero 0x66 (by decide) (by decide) (by decide), hzero 0xF2 (by decide) (by decide) (by decide),
    hzero 0xF0 (by decide) (by decide) (by decide), decide_eq_true hseg, decide_eq_true h67]
  rfl

end

theorem isRex_iff {c : Ctx} {x : Byte} : isRex c x = true ↔ c.long = true ∧ x.extractLsb' 4 4 = 4 := by
  rw [isRex, Bool.and_eq_true, decide_eq_true_eq]

section
variable {c : Ctx} {lead : List Byte} {rex : Byte} (hrex : isRex c rex = true)
include hrex

/-- A REX byte last changes neither the overrides nor whether there is a LOCK byte. -/
theorem prefixesOf_append_rex :
    prefixesOf (lead ++ [rex]) = prefixesOf lead ∧ (lead ++ [rex]).contains 0xF0 = lead.contains 0xF0 := by
  obtain ⟨-, hseg, -, h67, hF0, -, -⟩ := rex_not_other rex (isRex_iff.1 hrex).2
  have hne : ∀ b : Byte, rex ≠ b → (b == rex) = false := fun b h => by simpa using Ne.symm h
  simp only [prefixesOf, List.findSome?_append, List.findSome?_cons, List.findSome?_nil, hseg, Option.or_none,
    List.contains_append, List.contains_cons, List.contains_nil, hne _ h67, hne _ hF0, Bool.or_false, and_self]

/-- A REX byte last is admitted where the list without one is (30_encoding.md R53). -/
theorem sseLeadOk_append_rex (hno : ∀ x ∈ lead, isRex c x = false) (h : sseLeadOk c lead = true) :
    sseLeadOk c (lead ++ [rex]) = true := by
  obtain ⟨hseg, -, h66, h67, hF0, hF2, hF3⟩ := rex_not_other rex (isRex_iff.1 hrex).2
  have hcount : ∀ b : Byte, rex ≠ b → (lead ++ [rex]).count b = lead.count b := fun b hb => by
    rw [List.count_append, List.count_singleton, if_neg (by simpa using hb), Nat.add_zero]
  have hnone : lead.filter (isRex c) = [] := by
    rw [List.filter_eq_nil_iff]
    exact fun x hx => by simp [hno x hx]
  have hfilter : (lead ++ [rex]).filter isSegByte = lead.filter isSegByte := by
    rw [List.filter_append, List.filter_cons_of_neg (by simp [hseg]), List.filter_nil, List.append_nil]
  simp only [sseLeadOk, singleOverrides, Bool.and_eq_true, decide_eq_true_eq] at h ⊢
  obtain ⟨⟨⟨⟨⟨hF3', hsingle⟩, h66'⟩, hF2'⟩, hF0'⟩, -⟩ := h
  rw [hcount _ hF3, hcount _ h66, hcount _ hF2, hcount _ hF0, hcount _ h67, hfilter, List.filter_append, hnone,
    rexOf_append_rex lead hrex, List.filter_cons_of_pos hrex]
  exact ⟨⟨⟨⟨⟨hF3', hsingle⟩, h66'⟩, hF2'⟩, hF0'⟩, rfl⟩

end

/-! ## Register forms -/

theorem evexP0_low : ∀ p0 : Byte, p0.extractLsb' 0 4 = 1 → p0.extractLsb' 2 2 = 0 ∧ p0.extractLsb' 0 2 = 1 := by
  decide +kernel

theorem evexP1_low : ∀ p1 : Byte, p1.extractLsb' 0 3 = 6 → p1.getLsbD 2 = true ∧ p1.extractLsb' 0 2 = 2 := by
  decide +kernel

theorem exists_evexForm {ll : BitVec 2} (h : ll ≠ 3) :
    ∃ mk, evexForm ll = some mk ∧ ∀ p e d src imm, (mk p e d src imm).prefixes = p ∧ (mk p e d src imm).imm = imm := by
  have hll : ∀ b : BitVec 2, b ≠ 3 → b = 0 ∨ b = 1 ∨ b = 2 := by decide
  obtain rfl | rfl | rfl := hll ll h <;> exact ⟨_, rfl, fun _ _ _ _ _ => ⟨rfl, rfl⟩⟩

/-- A body with mod = 11 (30_encoding.md R59). -/
theorem takeBody_reg {modrm : Byte} (hmod : fieldTop modrm = 3) (asz : AddrSize) (e : Ext) (imm : Byte)
    (rest : List Byte) :
    ∃ d r, takeBody asz e (modrm :: imm :: rest) = some (⟨d, .reg r, imm⟩, rest) := by
  rw [takeBody, takeOperand, if_pos hmod]
  exact ⟨_, _, rfl⟩

/-- The bytes decode to the instruction `i`, which has the overrides `p` and the immediate `imm`. -/
def DecodesWith (c : Ctx) (bytes rest : List Byte) (p : Prefixes) (imm : Byte) (i : Instr) : Prop :=
  decode c bytes = .instr i rest ∧ i.prefixes = p ∧ i.imm = imm

section
variable {c : Ctx} {lead : List Byte} {modrm imm : Byte} {rest : List Byte} (hmod : fieldTop modrm = 3)
  (hlead : ∀ x ∈ lead, isLeading c x = true)
include hmod hlead

/-- The SSE form after legacy bytes it admits. -/
theorem decodesWith_sse (hok : sseLeadOk c lead = true) (hlock : lead.contains 0xF0 = false) :
    ∃ i, DecodesWith c (lead ++ 0x0F :: 0x70 :: modrm :: imm :: rest) rest (prefixesOf lead) imm i := by
  obtain ⟨d, r, hbody⟩ := takeBody_reg hmod (c.asz (prefixesOf lead).addrSize)
    { r' := false, r := ((rexOf c lead).getD 0x40).getLsbD 2, x := ((rexOf c lead).getD 0x40).getLsbD 1,
      b := ((rexOf c lead).getD 0x40).getLsbD 0, xs := false } imm rest
  unfold DecodesWith
  rw [decode_append_0F hlead, decodeSse_of_body hok hbody, hlock]
  cases rexOf c lead <;> exact ⟨_, rfl, rfl, rfl⟩

variable (hsp : lead.any (spoilsVex c) = false) (ho : singleOverrides lead = true)
include hsp ho

/-- The two-byte VEX forms after legacy bytes they admit. -/
theorem decodesWith_C5 {v1 : Byte} (hpp : v1.extractLsb' 0 2 = 2)
    (hc : c.long = true ∨ fieldTop v1 = 3 ∧ c.vex = true) :
    ∃ i, DecodesWith c (lead ++ 0xC5 :: v1 :: 0x70 :: modrm :: imm :: rest) rest (prefixesOf lead) imm i := by
  obtain ⟨d, r, hbody⟩ := takeBody_reg hmod (c.asz (prefixesOf lead).addrSize)
    { r' := false, r := !v1.getLsbD 7, x := false, b := false, xs := false } imm rest
  unfold DecodesWith
  rw [decode_append_C5 hlead, decodeC5_of_form _ _ hpp hc, decodeVexBody, hbody]
  simp only [afterLead, hsp, ho]
  cases v1.getLsbD 2 <;> exact ⟨_, rfl, rfl, rfl⟩

/-- The three-byte VEX forms after legacy bytes they admit. -/
theorem decodesWith_C4 {v1 v2 : Byte} (hpp : v2.extractLsb' 0 2 = 2) (hmap : v1.extractLsb' 0 5 = 1)
    (hc : c.long = true ∨ fieldTop v1 = 3 ∧ c.vex = true) :
    ∃ i, DecodesWith c (lead ++ 0xC4 :: v1 :: v2 :: 0x70 :: modrm :: imm :: rest) rest (prefixesOf lead) imm i := by
  obtain ⟨d, r, hbody⟩ := takeBody_reg hmod (c.asz (prefixesOf lead).addrSize)
    { r' := false, r := !v1.getLsbD 7, x := !v1.getLsbD 6, b := c.long && !v1.getLsbD 5, xs := false } imm rest
  unfold DecodesWith
  rw [decode_append_C4 hlead, decodeC4_of_form _ _ hpp hmap hc, decodeVexBody, hbody]
  simp only [afterLead, hsp, ho]
  cases v2.getLsbD 2 <;> exact ⟨_, rfl, rfl, rfl⟩

/-- The EVEX forms after legacy bytes they admit. -/
theorem decodesWith_evex {p0 p1 p2 : Byte} (hp0 : p0.extractLsb' 0 4 = 1) (hp1 : p1.extractLsb' 0 3 = 6)
    (hp2 : p2.extractLsb' 5 2 ≠ 3) (hc : c.long = true ∨ p0.extractLsb' 4 4 = 15 ∧ c.evex = true) :
    ∃ i, DecodesWith c (lead ++ 0x62 :: p0 :: p1 :: p2 :: 0x70 :: modrm :: imm :: rest) rest (prefixesOf lead) imm i := by
  obtain ⟨d, r, hbody⟩ := takeBody_reg hmod (c.asz (prefixesOf lead).addrSize) (evexExt p0) imm rest
  obtain ⟨hfix0, hmap⟩ := evexP0_low p0 hp0
  obtain ⟨hfix1, hpp⟩ := evexP1_low p1 hp1
  obtain ⟨mk, hmk, hparts⟩ := exists_evexForm hp2
  have hdoubt : evexDoubt c (prefixesOf lead) p0 (.reg r) = none := by
    have hext : (!c.long && decide (p0.extractLsb' 4 4 ≠ 15)) = false := by
      obtain hl | ⟨hn, -⟩ := hc
      · rw [hl]; rfl
      · rw [hn]; simp
    rw [evexDoubt, hext, Ctx.refusesMem16, Operand.mem16, Bool.and_false]
    rfl
  unfold DecodesWith
  rw [decode_append_62 hlead, decodeEvex_of_form _ _ hfix0 hfix1 hpp hmap hmk
    (hc.imp_right (And.imp_left (fieldTop_of_high_nibble p0))), decodeEvexBody, hbody]
  simp only [afterLead, hsp, ho, hdoubt]
  exact ⟨_, rfl, hparts ..⟩

end

/-- Where mod = 11, the registers of whatever decodes are those of the bytes. -/
theorem exists_register_form {c : Ctx} {bytes rest : List Byte} {p : Prefixes} {modrm imm : Byte} {f : Form}
    {dn sn : Nat} (h : ∃ i, DecodesWith c bytes rest p imm i)
    (hregs : ∀ i, decode c bytes = .instr i rest → i.form = f ∧ i.dest.toNat = dn ∧
      (modrm.extractLsb' 6 2 = 3 ↔ ∃ s, i.source = .reg s) ∧ ∀ s, i.source = .reg s → s.toNat = sn)
    (hmod : fieldTop modrm = 3) :
    ∃ i s, decode c bytes = .instr i rest ∧ i.form = f ∧ i.prefixes = p ∧ i.imm = imm ∧ i.source = .reg s ∧
      i.dest.toNat = dn ∧ s.toNat = sn := by
  obtain ⟨i, hdec, hp, himm⟩ := h
  obtain ⟨hform, hd, hreg, hs⟩ := hregs i hdec
  obtain ⟨s, hsrc⟩ := hreg.1 hmod
  exact ⟨i, s, hdec, hform, hp, himm, hsrc, hd, hs s hsrc⟩

open Machine in
/-- Settles O22: after legacy bytes that each shape admits its body decodes, with the registers of O21. -/
theorem registerFormsDecode : Obligations.RegisterFormsDecode := by
  intro c lead modrm imm rest hmod hadm hseg h67 p
  have hp : prefixesOf lead = p := prefixesOf_eq lead
  have hlead := leading_of_admitted (c := c) hadm
  have hnoRex := noRex_of_admitted (c := c) hadm
  have hnumbers := fun i => registerNumbers c lead (imm :: rest) rest modrm i fun x hx => ⟨hlead x hx, hnoRex x hx⟩
  obtain ⟨hsse, hnumbers⟩ := forall_and.1 hnumbers
  obtain ⟨hsseRex, hnumbers⟩ := forall_and.1 hnumbers
  obtain ⟨hc5, hnumbers⟩ := forall_and.1 hnumbers
  obtain ⟨hc4, hevex⟩ := forall_and.1 hnumbers
  refine ⟨fun hF3 => ⟨?sse, fun rex hrex hm => ?sseRex⟩, fun hF3 => ⟨fun v1 hpp hc => ?c5,
    fun v1 v2 hmap hpp hc => ?c4, fun p0 p1 p2 hp0 hp1 hp2 hc => ?evex⟩⟩
  case sse =>
    obtain ⟨hok, hlock⟩ := sseLeadOk_of_admitted (c := c) hadm hseg h67 hF3
    exact exists_register_form (hp ▸ decodesWith_sse hmod hlead hok hlock) hsse hmod
  case sseRex =>
    obtain ⟨hok, hlock⟩ := sseLeadOk_of_admitted (c := c) hadm hseg h67 hF3
    have hisRex : isRex c rex = true := isRex_iff.2 ⟨(Ctx.long_iff c).2 hm, hrex⟩
    obtain ⟨hpre, hlock'⟩ := prefixesOf_append_rex (lead := lead) hisRex
    have hall : ∀ x ∈ lead ++ [rex], isLeading c x = true := by
      simpa [or_imp, forall_and, isLeading, hisRex] using hlead
    have hdec := decodesWith_sse (imm := imm) (rest := rest) hmod hall (sseLeadOk_append_rex hisRex hnoRex hok)
      (hlock'.trans hlock)
    rw [hpre, hp, ← List.append_cons] at hdec
    exact exists_register_form hdec (fun i => hsseRex i rex hisRex) hmod
  all_goals
    have hsp := not_spoilsVex_of_admitted (c := c) hadm hF3
    have ho : singleOverrides lead = true := by rw [singleOverrides, decide_eq_true hseg, decide_eq_true h67]; rfl
    rw [← Ctx.long_iff] at hc
  case c5 =>
    have hregs := fun i => hc5 i v1
    rw [vex_dest_extension hc] at hregs
    exact exists_register_form (hp ▸ decodesWith_C5 hmod hlead hsp ho hpp hc) hregs hmod
  case c4 =>
    have hregs := fun i => hc4 i v1 v2
    rw [vex_dest_extension hc] at hregs
    exact exists_register_form (hp ▸ decodesWith_C4 hmod hlead hsp ho hpp hmap hc) hregs hmod
  case evex =>
    have hext := hc.imp_right fun h => getLsbD_of_high_nibble p0 h.1
    have hregs := fun i => hevex i p0 p1 p2
    rw [ite_mode64 (hext.imp_right fun ⟨h7, _, _, h4⟩ => by rw [h7, h4]; rfl),
      ite_mode64 (hext.imp_right fun ⟨_, h6, h5, _⟩ => by rw [h6, h5]; rfl)] at hregs
    exact exists_register_form (hp ▸ decodesWith_evex hmod hlead hsp ho hp0 hp1 hp2 hc) hregs hmod

/-! ## The order of legacy bytes -/

/-- Two lists of legacy bytes that no shape of the decoder tells apart. -/
structure LeadsAgree (c : Ctx) (lead lead' : List Byte) : Prop where
  prefixes : prefixesOf lead' = prefixesOf lead
  rex : rexOf c lead' = rexOf c lead
  sse : sseLeadOk c lead' = sseLeadOk c lead
  single : singleOverrides lead' = singleOverrides lead
  spoils : lead'.any (spoilsVex c) = lead.any (spoilsVex c)
  lock : lead'.contains 0xF0 = lead.contains 0xF0
  mandatory : lead'.count 0xF3 = lead.count 0xF3

section
variable {c : Ctx} {lead lead' : List Byte} (h : LeadsAgree c lead lead')
include h

theorem decodeSse_congr (bs : List Byte) : decodeSse c lead' bs = decodeSse c lead bs := by
  unfold decodeSse
  rw [h.prefixes, h.rex, h.sse, h.lock, h.mandatory]

theorem decodeVexBody_congr : decodeVexBody c lead' = decodeVexBody c lead := by
  funext e mk bs
  unfold decodeVexBody afterLead
  rw [h.prefixes, h.single, h.spoils]

theorem decodeC5_congr (bs : List Byte) : decodeC5 c lead' bs = decodeC5 c lead bs := by
  unfold decodeC5
  rw [decodeVexBody_congr h]

theorem decodeC4_congr (bs : List Byte) : decodeC4 c lead' bs = decodeC4 c lead bs := by
  unfold decodeC4
  rw [decodeVexBody_congr h]

theorem decodeEvex_congr (bs : List Byte) : decodeEvex c lead' bs = decodeEvex c lead bs := by
  have hbody : decodeEvexBody c lead' = decodeEvexBody c lead := by
    funext p0 ctl mk bs
    unfold decodeEvexBody afterLead
    rw [h.prefixes, h.single, h.spoils]
  have hundef : undefinedBody c lead' = undefinedBody c lead := by
    funext e bs
    unfold undefinedBody
    rw [h.prefixes]
  unfold decodeEvex
  rw [hbody, hundef]

end

/-- A list with at most one override names the same segment after an exchange. -/
theorem findSome?_segOverride_swap {a b : List Byte} {x y : Byte}
    (h : ((a ++ x :: y :: b).filter isSegByte).length ≤ 1) :
    (a ++ y :: x :: b).findSome? segOverride = (a ++ x :: y :: b).findSome? segOverride := by
  have hone : isSegByte x = false ∨ isSegByte y = false := by
    cases hx : isSegByte x <;> cases hy : isSegByte y <;> simp_all
    omega
  simp only [List.findSome?_append, List.findSome?_cons]
  obtain hx | hy := hone
  · rw [show segOverride x = none by simpa [isSegByte] using hx]
  · rw [show segOverride y = none by simpa [isSegByte] using hy]

/-- Exchanging two legacy bytes that are no REX bytes. -/
theorem leadsAgree_swap {c : Ctx} {a b : List Byte} {x y : Byte} (hx : isRex c x = false) (hy : isRex c y = false)
    (h : singleOverrides (a ++ x :: y :: b) = true) : LeadsAgree c (a ++ x :: y :: b) (a ++ y :: x :: b) := by
  have hperm : (a ++ y :: x :: b).Perm (a ++ x :: y :: b) := .append_left a (.swap x y b)
  have hrex : rexOf c (a ++ y :: x :: b) = rexOf c (a ++ x :: y :: b) := by
    cases b with
    | nil => simp [rexOf, Option.filter, hx, hy]
    | cons z b => simp [rexOf]
  have hseg := ((Bool.and_eq_true _ _).mp h).1
  have hcontains : ∀ z : Byte, (a ++ y :: x :: b).contains z = (a ++ x :: y :: b).contains z := fun z => by
    simp only [List.contains_eq_mem, hperm.mem_iff]
  exact
    { prefixes := by
        rw [prefixesOf, prefixesOf, findSome?_segOverride_swap (of_decide_eq_true hseg), hcontains]
      rex := hrex
      sse := by
        simp only [sseLeadOk, singleOverrides, hrex, hperm.count_eq, (hperm.filter _).length_eq]
      single := by
        simp only [singleOverrides, hperm.count_eq, (hperm.filter _).length_eq]
      spoils := hperm.any_eq
      lock := hcontains _
      mandatory := hperm.count_eq _ }

theorem singleOverrides_of_sseLeadOk {c : Ctx} {lead : List Byte} (h : sseLeadOk c lead = true) :
    singleOverrides lead = true := by
  simp only [sseLeadOk, Bool.and_eq_true] at h
  obtain ⟨⟨⟨⟨⟨-, hsingle⟩, -⟩, -⟩, -⟩, -⟩ := h
  exact hsingle

/-- Settles O23: what decodes has at most one override, and then no shape sees the order of the bytes. -/
theorem legacyBytesInAnyOrder : Obligations.LegacyBytesInAnyOrder := by
  intro c a b rest x y i ha hx hy hxr hyr h
  obtain ⟨lead, z, bs, hbytes, hlead, hshape⟩ := decode_eq_instr h
  have hz : isLeading c z = false := by
    rcases hshape with ⟨rfl, -⟩ | ⟨rfl, -⟩ | ⟨rfl, -⟩ | ⟨rfl, -⟩
    exacts [notLeading_0F c, notLeading_C5 c, notLeading_C4 c, notLeading_62 c]
  have hxy : ∀ w ∈ a ++ [x, y], isLeading c w = true := by simpa [or_imp, forall_and, hx, hy] using ha
  obtain ⟨b, rfl, rfl⟩ := leading_of_append_eq hxy b hlead hz (by simpa using hbytes)
  simp only [List.append_assoc, List.cons_append, List.nil_append] at hlead hshape
  have hlead' : ∀ w ∈ a ++ y :: x :: b, isLeading c w = true := fun w hw =>
    hlead w ((List.Perm.append_left a (.swap x y b)).mem_iff.1 hw)
  rw [← List.cons_append, ← List.cons_append, ← List.append_assoc]
  rcases hshape with ⟨rfl, hs⟩ | ⟨rfl, hs⟩ | ⟨rfl, hs⟩ | ⟨rfl, hs⟩
  · obtain ⟨-, -, -, hok, -⟩ := decodeSse_eq_instr hs
    rw [decode_append_0F hlead', decodeSse_congr (leadsAgree_swap hxr hyr (singleOverrides_of_sseLeadOk hok))]
    exact hs
  · obtain ⟨-, -, -, -, -, -, -, -, ho, -⟩ := decodeC5_eq_instr hs
    rw [decode_append_C5 hlead', decodeC5_congr (leadsAgree_swap hxr hyr ho)]
    exact hs
  · obtain ⟨-, -, -, -, -, -, -, -, -, -, ho, -⟩ := decodeC4_eq_instr hs
    rw [decode_append_C4 hlead', decodeC4_congr (leadsAgree_swap hxr hyr ho)]
    exact hs
  · obtain ⟨-, -, -, -, -, -, -, -, -, -, -, -, -, -, -, -, ho, -⟩ := decodeEvex_eq_instr hs
    rw [decode_append_62 hlead', decodeEvex_congr (leadsAgree_swap hxr hyr ho)]
    exact hs

end Sys2Proof
end

section
/-! SUPPORT. Bytes that are no form's, or are after some legacy bytes and not after others: what refuses them and what
raises #UD. -/

namespace Sys2Proof

/-! ## Where C5, C4 and 62 are prefixes -/

section
variable {c : Ctx} {x : Byte} {family : Bool}

theorem isPrefix (h : c.long = true ∨ fieldTop x = 3 ∧ family = true) :
    (!c.long && decide (fieldTop x ≠ 3)) = false ∧ (!c.long && !family) = false := by
  obtain h | ⟨htop, hfam⟩ := h
  · simp [h]
  · simp [htop, hfam]

theorem long_eq_false (h : c.mode ≠ .mode64) : c.long = false := decide_eq_false h

/-- Outside 64-bit mode they start older instructions unless `11` follows (30_encoding.md R83), or where the processor
lacks the family (60_exceptions.md R132). -/
theorem not_isPrefix (hl : c.long = false) (h : fieldTop x ≠ 3 ∨ family = false) :
    (!c.long && decide (fieldTop x ≠ 3)) = true ∨ (!c.long && !family) = true := by
  obtain h | h := h
  · exact .inl (by simpa [hl] using h)
  · exact .inr (by simp [hl, h])

end

section
variable {c : Ctx} {lead bs : List Byte} {x : Byte}

theorem decodeC5_of_older (hl : c.long = false) (h : fieldTop x ≠ 3 ∨ c.vex = false) :
    decodeC5 c lead (x :: bs) = .refused .notPSHUFHW := by
  unfold decodeC5
  obtain h | h := not_isPrefix hl h
  · exact if_pos h
  · exact (ite_congr rfl (fun _ => rfl) fun _ => if_pos h).trans (ite_self _)

theorem decodeC4_of_older (hl : c.long = false) (h : fieldTop x ≠ 3 ∨ c.vex = false) :
    decodeC4 c lead (x :: bs) = .refused .notPSHUFHW := by
  unfold decodeC4
  obtain h | h := not_isPrefix hl h
  · exact if_pos h
  · exact (ite_congr rfl (fun _ => rfl) fun _ => if_pos h).trans (ite_self _)

theorem decodeEvex_of_older (hl : c.long = false) (h : fieldTop x ≠ 3 ∨ c.evex = false) :
    decodeEvex c lead (x :: bs) = .refused .notPSHUFHW := by
  unfold decodeEvex
  obtain h | h := not_isPrefix hl h
  · exact if_pos h
  · exact (ite_congr rfl (fun _ => rfl) fun _ => if_pos h).trans (ite_self _)

/-! ## Prefixes of no form -/

theorem decodeC5_of_no_form {v1 op : Byte} (hc : c.long = true ∨ fieldTop v1 = 3 ∧ c.vex = true)
    (h : op ≠ 0x70 ∨ v1.extractLsb' 0 2 ≠ 2) : decodeC5 c lead (v1 :: op :: bs) = .refused .notPSHUFHW := by
  obtain ⟨h1, h2⟩ := isPrefix hc
  simp only [decodeC5, h1, h2, if_pos h]
  rfl

theorem decodeC4_of_no_form {v1 v2 op : Byte} (hc : c.long = true ∨ fieldTop v1 = 3 ∧ c.vex = true)
    (h : op ≠ 0x70 ∨ v2.extractLsb' 0 2 ≠ 2 ∨ v1.extractLsb' 0 5 ≠ 1) :
    decodeC4 c lead (v1 :: v2 :: op :: bs) = .refused .notPSHUFHW := by
  obtain ⟨h1, h2⟩ := isPrefix hc
  simp only [decodeC4, h1, h2, if_pos h]
  rfl

/-- The reserved bits of an EVEX prefix, which must be 00 and 1 (30_encoding.md R75 (a), (b)). -/
def evexReserved (p0 p1 : Byte) : Bool := decide (p0.extractLsb' 2 2 ≠ 0) || !p1.getLsbD 2

/-- With another map, pp or opcode the reserved bits choose between #UD and the refusal (log 31). -/
theorem decodeEvex_of_no_form {p0 p1 p2 op : Byte} (hc : c.long = true ∨ fieldTop p0 = 3 ∧ c.evex = true)
    (h : op ≠ 0x70 ∨ p1.extractLsb' 0 2 ≠ 2 ∨ p0.extractLsb' 0 2 ≠ 1) :
    decodeEvex c lead (p0 :: p1 :: p2 :: op :: bs) =
      if evexReserved p0 p1 then .undefined else .refused .notPSHUFHW := by
  obtain ⟨h1, h2⟩ := isPrefix hc
  simp only [decodeEvex, h1, h2, if_pos h]
  rfl

/-- A form's encoding but for its reserved bits or L'L is undefined once its body is read (R87). -/
theorem decodeEvex_of_reserved {p0 p1 p2 : Byte} (hc : c.long = true ∨ fieldTop p0 = 3 ∧ c.evex = true)
    (hpp : p1.extractLsb' 0 2 = 2) (hmap : p0.extractLsb' 0 2 = 1)
    (h : evexReserved p0 p1 = true ∨ p2.extractLsb' 5 2 = 3) :
    decodeEvex c lead (p0 :: p1 :: p2 :: 0x70 :: bs) = undefinedBody c lead (evexExt p0) bs := by
  obtain ⟨h1, h2⟩ := isPrefix hc
  have hform : ¬((0x70 : Byte) ≠ 0x70 ∨ p1.extractLsb' 0 2 ≠ 2 ∨ p0.extractLsb' 0 2 ≠ 1) := by simp [hpp, hmap]
  simp only [decodeEvex, h1, h2, if_neg hform]
  cases hf : evexForm (p2.extractLsb' 5 2) with
  | none => rfl
  | some mk =>
    obtain h | h := h
    · exact if_pos h
    · rw [h] at hf
      exact nomatch hf

theorem decode_append_other (hlead : ∀ y ∈ lead, isLeading c y = true) (hx : isLeading c x = false) (h0F : x ≠ 0x0F)
    (hC5 : x ≠ 0xC5) (hC4 : x ≠ 0xC4) (h62 : x ≠ 0x62) : decode c (lead ++ x :: bs) = .refused .notPSHUFHW := by
  simp only [decode, splitLeading_append c lead x bs hlead hx, if_neg h0F, if_neg hC5, if_neg hC4, if_neg h62]

end

/-- Settles O24: each shape refuses what is no form's, whatever legacy bytes it has been given. -/
theorem neighboursAreRefused : Obligations.NeighboursAreRefused := by
  intro c lead rest hlead
  refine ⟨fun hF3 => ?noF3, fun op hop => ?opcode, fun b hb h0F hC5 hC4 h62 => decode_append_other hlead hb h0F hC5 hC4 h62,
    fun b x hb hm htop => ?older, fun v1 op hc h => ?c5, fun v1 v2 op hc h => ?c4, fun p0 p1 p2 op hc hfix0 hfix1 h => ?evex⟩
  case noF3 =>
    rw [decode_append_0F hlead]
    exact if_pos (.inr (List.count_eq_zero.2 hF3))
  case opcode =>
    rw [decode_append_0F hlead]
    exact if_pos (.inl hop)
  case older =>
    have hl := long_eq_false hm
    obtain rfl | rfl | rfl := hb
    · rw [decode_append_C5 hlead, decodeC5_of_older hl (.inl htop)]
    · rw [decode_append_C4 hlead, decodeC4_of_older hl (.inl htop)]
    · rw [decode_append_62 hlead, decodeEvex_of_older hl (.inl htop)]
  all_goals rw [← Ctx.long_iff] at hc
  case c5 => rw [decode_append_C5 hlead, decodeC5_of_no_form hc h]
  case c4 => rw [decode_append_C4 hlead, decodeC4_of_no_form hc h]
  case evex =>
    have hres : evexReserved p0 p1 = false := by rw [evexReserved, hfix0, hfix1]; rfl
    rw [decode_append_62 hlead, decodeEvex_of_no_form hc h, hres]
    rfl

/-! ## Encodings with wrong reserved bits -/

/-- Whether the body is all there does not depend on extension bits. -/
theorem takeBody_eq_none_iff (asz : AddrSize) (e e' : Ext) (bs : List Byte) :
    takeBody asz e bs = none ↔ takeBody asz e' bs = none := by
  have key : ∀ e e' : Ext, takeBody asz e bs = none → takeBody asz e' bs = none := fun e e' h => by
    cases h' : takeBody asz e' bs with
    | none => rfl
    | some r =>
      obtain ⟨y, hy, -⟩ := takeBody_ext (rest := r.2) (y := r.1) h' e
      exact nomatch h.symm.trans hy
  exact ⟨key e e', key e' e⟩

theorem undefinedBody_eq {c : Ctx} {lead bs : List Byte} {e : Ext} {o : Option (Body × List Byte)}
    (h : takeBody (c.asz (prefixesOf lead).addrSize) e bs = o) :
    undefinedBody c lead e bs = if o.isSome then .undefined else .truncated := by
  subst h
  unfold undefinedBody
  split <;> simp_all

open Machine in
theorem step_of_truncated {s : State} (hs : s.fetchStop = none) (h : decode s.ctx s.window = .truncated) :
    step s = s.overrun := by
  simp only [step, hs, h]

open Machine in
/-- Settles O25: with a form's map, pp and opcode the answer waits for the body, else it does not. -/
theorem reservedEvexBitsRaiseUd : Obligations.ReservedEvexBitsRaiseUd := by
  intro s lead tail p0 p1 p2 op hc hs hlead hw
  have hc' : s.ctx.long = true ∨ fieldTop p0 = 3 ∧ s.ctx.evex = true := hc.imp_left (Ctx.long_iff s.ctx).2
  have hres : p0.extractLsb' 2 2 ≠ 0 ∨ p1.getLsbD 2 = false → evexReserved p0 p1 = true := by
    simp [evexReserved, -BitVec.getLsbD_eq_getElem]
  have hdec : decode s.ctx s.window = decodeEvex s.ctx lead (p0 :: p1 :: p2 :: op :: tail) := by
    rw [hw, decode_append_62 hlead]
  refine ⟨?form, fun hno h => ?noForm⟩
  case form =>
    rintro ⟨rfl, hpp, hmap⟩ h e body
    rw [decodeEvex_of_reserved hc' hpp hmap (by rw [← or_assoc] at h; exact h.imp_left hres)] at hdec
    have hsome : (takeBody (s.ctx.asz (prefixesOf lead).addrSize) (evexExt p0) tail = none) ↔ body = none := by
      rw [prefixesOf_eq]
      exact takeBody_eq_none_iff _ _ e tail
    refine ⟨fun hbody => step_of_undefined hs ?_, fun hbody hlen => ?_⟩
    · obtain ⟨o, ho⟩ := Option.ne_none_iff_exists'.1 (mt hsome.1 hbody)
      rw [hdec, undefinedBody_eq ho]
      rfl
    · rw [undefinedBody_eq (hsome.2 hbody)] at hdec
      rw [step_of_truncated hs hdec]
      exact if_pos hlen
  case noForm =>
    rw [decodeEvex_of_no_form hc' hno, hres h] at hdec
    exact step_of_undefined hs hdec

/-! ## The same bytes after other legacy bytes -/

section
variable {c : Ctx} {lead lead' bs rest : List Byte} {i : Instr}
  (h67 : (prefixesOf lead').addrSize = (prefixesOf lead).addrSize)
include h67

theorem decodeVexBody_relead {e : Ext} {y : Body} (mk : Prefixes → VNum → Operand → BitVec 8 → Instr)
    (h : takeBody (c.asz (prefixesOf lead).addrSize) e bs = some (y, rest)) :
    decodeVexBody c lead' e mk bs = afterLead c lead' (mk (prefixesOf lead') y.d y.src y.imm) rest := by
  rw [← h67] at h
  simp only [decodeVexBody, h]

/-- Where a VEX or EVEX encoding decodes after some legacy bytes, other ones with a `67` where those had one decide alone
what it is after them. -/
theorem decodeC5_relead (h : decodeC5 c lead bs = .instr i rest) :
    ∃ i', decodeC5 c lead' bs = afterLead c lead' i' rest := by
  obtain ⟨v1, bs, y, rfl, hpp, hc, hbody, -⟩ := decodeC5_eq_instr h
  exact ⟨_, (decodeC5_of_form _ _ hpp hc).trans (decodeVexBody_relead h67 _ hbody)⟩

theorem decodeC4_relead (h : decodeC4 c lead bs = .instr i rest) :
    ∃ i', decodeC4 c lead' bs = afterLead c lead' i' rest := by
  obtain ⟨v1, v2, bs, y, rfl, hpp, hmap, hc, hbody, -⟩ := decodeC4_eq_instr h
  exact ⟨_, (decodeC4_of_form _ _ hpp hmap hc).trans (decodeVexBody_relead h67 _ hbody)⟩

theorem decodeEvex_relead (h : decodeEvex c lead bs = .instr i rest) :
    ∃ i', decodeEvex c lead' bs = afterLead c lead' i' rest := by
  obtain ⟨p0, p1, p2, bs, y, mk, rfl, hfix0, hfix1, hpp, hmap, hmk, hc, hbody, hmem16, -⟩ := decodeEvex_eq_instr h
  have hdoubt : evexDoubt c (prefixesOf lead') p0 y.src = none := by
    have hext : (!c.long && decide (p0.extractLsb' 4 4 ≠ 15)) = false := by
      obtain hl | ⟨hn, -⟩ := hc
      · rw [hl]; rfl
      · rw [hn]; simp
    rw [evexDoubt, hext, Ctx.refusesMem16, h67, ← Ctx.refusesMem16, hmem16]
    rfl
  refine ⟨mk (prefixesOf lead') (evexCtl p1 p2) y.d y.src y.imm, ?_⟩
  rw [decodeEvex_of_form _ _ hfix0 hfix1 hpp hmap hmk (hc.imp_right (And.imp_left (fieldTop_of_high_nibble p0)))]
  rw [← h67] at hbody
  simp only [decodeEvexBody, hbody, hdoubt]
  unfold afterLead
  cases lead'.any (spoilsVex c) <;> rfl

end

/-! ## Refusals by name -/

section
variable {c : Ctx} {lead lead' bs rest : List Byte} {i : Instr} {r : DecodeRefusal}

theorem decodeVexBody_eq_refused {e : Ext} {mk : Prefixes → VNum → Operand → BitVec 8 → Instr}
    (h : decodeVexBody c lead e mk bs = .refused r) : r = .prefixCombination := by
  unfold decodeVexBody afterLead at h
  simp only at h
  split at h
  · exact nomatch h
  · split at h
    · exact nomatch h
    · split at h
      · exact nomatch h
      · split at h
        · exact nomatch h
        · exact (Decoded.refused.inj h).symm

/-- A VEX encoding is refused by two names alone. -/
theorem decodeC5_eq_refused (h : decodeC5 c lead bs = .refused r) : r = .notPSHUFHW ∨ r = .prefixCombination := by
  unfold decodeC5 at h
  split at h
  · exact nomatch h
  · split at h
    · exact .inl (Decoded.refused.inj h).symm
    · split at h
      · exact .inl (Decoded.refused.inj h).symm
      · split at h
        · exact nomatch h
        · split at h
          · exact .inl (Decoded.refused.inj h).symm
          · simp only at h
            split at h <;> exact .inr (decodeVexBody_eq_refused h)

theorem decodeC4_eq_refused (h : decodeC4 c lead bs = .refused r) : r = .notPSHUFHW ∨ r = .prefixCombination := by
  unfold decodeC4 at h
  split at h
  · exact nomatch h
  · split at h
    · exact .inl (Decoded.refused.inj h).symm
    · split at h
      · exact .inl (Decoded.refused.inj h).symm
      · split at h
        · split at h
          · exact .inl (Decoded.refused.inj h).symm
          · simp only at h
            split at h <;> exact .inr (decodeVexBody_eq_refused h)
        · exact nomatch h

theorem undefinedBody_ne_refused (e : Ext) : undefinedBody c lead e bs ≠ .refused r := by
  unfold undefinedBody
  split <;> exact nofun

/-- An EVEX encoding that is refused by another name than that of no form has a form's prefix and a whole body. -/
theorem decodeEvex_eq_refused (h : decodeEvex c lead bs = .refused r) (hr : r ≠ .notPSHUFHW) :
    ∃ p0 p1 p2 bs' mk y rest, bs = p0 :: p1 :: p2 :: 0x70 :: bs' ∧ p0.extractLsb' 2 2 = 0 ∧ p1.getLsbD 2 = true ∧
      p1.extractLsb' 0 2 = 2 ∧ p0.extractLsb' 0 2 = 1 ∧ evexForm (p2.extractLsb' 5 2) = some mk ∧
      (c.long = true ∨ fieldTop p0 = 3 ∧ c.evex = true) ∧
      takeBody (c.asz (prefixesOf lead).addrSize) (evexExt p0) bs' = some (y, rest) := by
  have hname : ∀ {P : Prop}, Decoded.refused .notPSHUFHW = .refused r → P := fun h =>
    absurd (Decoded.refused.inj h).symm hr
  unfold decodeEvex at h
  split at h
  · exact nomatch h
  · rename_i p0 bs
    split at h
    · exact hname h
    · rename_i htop
      split at h
      · exact hname h
      · rename_i hfam
        split at h
        · rename_i p1 p2 op bs
          simp only at h
          split at h
          · split at h
            · exact nomatch h
            · exact hname h
          · rename_i hform
            simp only [not_or, not_not] at hform
            obtain ⟨rfl, hpp, hmap⟩ := hform
            split at h
            · exact absurd h (undefinedBody_ne_refused _)
            · rename_i mk hmk
              split at h
              · exact absurd h (undefinedBody_ne_refused _)
              · rename_i hres
                obtain ⟨hfix0, hfix1⟩ : p0.extractLsb' 2 2 = 0 ∧ p1.getLsbD 2 = true := by
                  simpa [-BitVec.getLsbD_eq_getElem] using hres
                have hc : c.long = true ∨ fieldTop p0 = 3 ∧ c.evex = true := by
                  cases hl : c.long with
                  | true => exact .inl rfl
                  | false => exact .inr ⟨by simpa [hl] using htop, by simpa [hl] using hfam⟩
                unfold decodeEvexBody at h
                simp only at h
                split at h
                · exact nomatch h
                · exact ⟨p0, p1, p2, bs, mk, _, _, rfl, hfix0, hfix1, hpp, hmap, hmk, hc, by assumption⟩
        · exact nomatch h

end

/-- An EVEX encoding that is refused for its extension bits or its 16-bit operand is undefined after a byte that spoils
it (log 20). -/
theorem decodeEvex_of_spoiled_refused {c : Ctx} {lead lead' bs : List Byte} {r : DecodeRefusal}
    (hsp : lead'.any (spoilsVex c) = true) (h67 : (prefixesOf lead').addrSize = (prefixesOf lead).addrSize)
    (h : decodeEvex c lead bs = .refused r) (hr : r ≠ .notPSHUFHW) : decodeEvex c lead' bs = .undefined := by
  obtain ⟨p0, p1, p2, bs, mk, y, rest, rfl, hfix0, hfix1, hpp, hmap, hmk, hc, hbody⟩ := decodeEvex_eq_refused h hr
  rw [← h67] at hbody
  rw [decodeEvex_of_form _ _ hfix0 hfix1 hpp hmap hmk hc]
  simp [decodeEvexBody, hbody, hsp]

/-! ## The statements about other legacy bytes -/

theorem addrSize_of_mem_iff {a lead : List Byte} (h : (0x67 : Byte) ∈ a ↔ (0x67 : Byte) ∈ lead) :
    (prefixesOf lead).addrSize = (prefixesOf a).addrSize := by
  simp only [prefixesOf_eq, h]

/-- What a VEX or EVEX encoding is after legacy bytes of which one spoils it. -/
theorem decode_of_spoiled {c : Ctx} {a lead b : List Byte} {y : Byte} (hy : y = 0xC5 ∨ y = 0xC4 ∨ y = 0x62)
    (ha : ∀ z ∈ a, isLeading c z = true) (hlead : ∀ z ∈ lead, isLeading c z = true)
    (h67 : (prefixesOf lead).addrSize = (prefixesOf a).addrSize) (hsp : lead.any (spoilsVex c) = true)
    (h : (∃ i rest, decode c (a ++ y :: b) = .instr i rest) ∨
      ∃ r, decode c (a ++ y :: b) = .refused r ∧ r ≠ .notPSHUFHW ∧ r ≠ .prefixCombination) :
    decode c (lead ++ y :: b) = .undefined := by
  obtain rfl | rfl | rfl := hy
  · rw [decode_append_C5 ha] at h
    rw [decode_append_C5 hlead]
    obtain ⟨i, rest, h⟩ | ⟨r, h, h1, h2⟩ := h
    · exact decodeC5_of_spoiled hsp h67 h
    · exact ((decodeC5_eq_refused h).elim h1 h2).elim
  · rw [decode_append_C4 ha] at h
    rw [decode_append_C4 hlead]
    obtain ⟨i, rest, h⟩ | ⟨r, h, h1, h2⟩ := h
    · exact decodeC4_of_spoiled hsp h67 h
    · exact ((decodeC4_eq_refused h).elim h1 h2).elim
  · rw [decode_append_62 ha] at h
    rw [decode_append_62 hlead]
    obtain ⟨i, rest, h⟩ | ⟨r, h, h1, -⟩ := h
    · exact decodeEvex_of_spoiled hsp h67 h
    · exact decodeEvex_of_spoiled_refused hsp h67 h h1

open Machine in
/-- Settles O27: the encoding decodes or is refused past its body, and then a spoiling byte makes it undefined. -/
theorem prefixBeforeVexRaisesUd : Obligations.PrefixBeforeVexRaisesUd := by
  intro s a lead b x y hy ha hlead h67 h hx hspoils hs hw
  have hsp : lead.any (spoilsVex s.ctx) = true := by
    refine List.any_eq_true.2 ⟨x, hx, ?_⟩
    simpa only [spoilsVex, Bool.or_eq_true, decide_eq_true_eq, or_assoc] using hspoils
  refine step_of_undefined hs (hw ▸ decode_of_spoiled hy ha hlead (addrSize_of_mem_iff h67) hsp (h.imp_right ?_))
  rintro (h | h) <;> exact ⟨_, h, nofun, nofun⟩

/-- After segment overrides and `67` bytes with one of either too many, a VEX or EVEX encoding is refused (log 14). -/
theorem afterLead_of_repeated {c : Ctx} {lead : List Byte} (hadm : ∀ z ∈ lead, isSegByte z = true ∨ z = 0x67)
    (hmode : c.mode = .mode64 ∨ c.mode = .mode32) (ho : singleOverrides lead = false) (i : Instr) (rest : List Byte) :
    afterLead c lead i rest = .refused .prefixCombination := by
  have hF3 : (0xF3 : Byte) ∉ lead := fun h => by
    obtain h | h := hadm _ h <;> exact absurd h (by decide)
  have hsp := not_spoilsVex_of_admitted (c := c) (fun x hx => (hadm x hx).imp_right .inl) hF3
  have hold : c.old = false := by obtain hm | hm := hmode <;> simp [Ctx.old, hm]
  simp only [afterLead, hsp, ho, hold]
  rfl

/-- An odd list of legacy bytes is none that the SSE form admits (30_encoding.md R52, R53). -/
theorem sseLeadOk_eq_false {c : Ctx} {lead : List Byte}
    (h : (0x66 : Byte) ∈ lead ∨ (0xF2 : Byte) ∈ lead ∨ 1 < lead.count 0xF3 ∨ 1 < lead.count 0xF0 ∨
      1 < lead.count 0x67 ∨ 1 < (lead.filter isSegByte).length ∨
      ∃ a x y b, lead = a ++ x :: y :: b ∧ isRex c x = true) : sseLeadOk c lead = false := by
  rw [← Bool.not_eq_true]
  intro hok
  simp only [sseLeadOk, singleOverrides, Bool.and_eq_true, decide_eq_true_eq] at hok
  obtain ⟨⟨⟨⟨⟨hF3, hseg, h67⟩, h66⟩, hF2⟩, hF0⟩, hrex⟩ := hok
  obtain h | h | h | h | h | h | ⟨a, x, y, b, rfl, hx⟩ := h
  · exact List.count_eq_zero.1 h66 h
  · exact List.count_eq_zero.1 hF2 h
  · omega
  · omega
  · omega
  · omega
  · cases hlast : rexOf c (a ++ x :: y :: b) with
    | none => simp [hlast, hx] at hrex
    | some z =>
      have hz : z ∈ y :: b := by
        have h := (Option.filter_eq_some_iff.1 hlast).1
        rw [List.getLast?_append_cons, List.getLast?_cons_cons] at h
        exact List.mem_of_getLast? h
      have hmem : z ∈ (y :: b).filter (isRex c) := List.mem_filter.2 ⟨hz, isRex_of_rexOf_eq hlast⟩
      have hpos := List.length_pos_of_mem hmem
      rw [hlast, List.filter_append, List.filter_cons_of_pos hx, List.length_append, List.length_cons] at hrex
      simp only [Option.isSome_some, if_true] at hrex
      omega

/-- Settles O28: the SSE form tests the list before anything else; a VEX or EVEX encoding that decodes after one list is
decided by `afterLead` after another. -/
theorem prefixCombinationsAreRefused : Obligations.PrefixCombinationsAreRefused := by
  refine ⟨fun c lead rest hlead hF3 hodd => ?sse, fun c a lead b rest y i hy hmode ha hadm h67 h hrep => ?vex⟩
  case sse =>
    have hop : ¬((0x70 : Byte) ≠ 0x70 ∨ lead.count 0xF3 = 0) := by
      rw [List.count_eq_zero]
      exact not_or.2 ⟨fun h => h rfl, fun h => h hF3⟩
    rw [decode_append_0F hlead, decodeSse, if_neg hop, sseLeadOk_eq_false hodd]
    rfl
  case vex =>
    have hlead := leading_of_admitted (c := c) fun x hx => (hadm x hx).imp_right .inl
    have ho : singleOverrides lead = false := by
      rw [singleOverrides, Bool.and_eq_false_iff, decide_eq_false_iff_not, decide_eq_false_iff_not]
      omega
    have hafter := afterLead_of_repeated hadm hmode ho
    have h67' := addrSize_of_mem_iff h67
    obtain rfl | rfl | rfl := hy
    · obtain ⟨i', hi'⟩ := decodeC5_relead h67' (decode_append_C5 ha b ▸ h)
      rw [decode_append_C5 hlead, hi', hafter]
    · obtain ⟨i', hi'⟩ := decodeC4_relead h67' (decode_append_C4 ha b ▸ h)
      rw [decode_append_C4 hlead, hi', hafter]
    · obtain ⟨i', hi'⟩ := decodeEvex_relead h67' (decode_append_62 ha b ▸ h)
      rw [decode_append_62 hlead, hi', hafter]

/-! ## Encodings refused outside 64-bit mode -/

/-- What operand 2's encoding gives whatever the extension bits: the immediate's place and the operand's kind. -/
theorem takeBody_encode_ext {asz : AddrSize} {nv ng : Nat} {src : Operand} (hok : src.ok asz nv ng = true) (e : Ext)
    (d : VNum) (imm : BitVec 8) (rest : List Byte) :
    ∃ y, takeBody asz e (encodeOperand (d.extractLsb' 0 3) src ++ imm :: rest) = some (y, rest) ∧
      ((∃ r, src = .reg r) ↔ ∃ r, y.src = .reg r) := by
  obtain ⟨y, hy, -, hkind⟩ := takeBody_ext (takeBody_encode asz nv ng
    { r' := d.getLsbD 4, r := d.getLsbD 3, x := src.extX, b := src.extB, xs := src.extX } d src imm rest hok
    (fits_evex _ src rfl rfl rfl) rfl rfl) e
  exact ⟨y, hy, hkind⟩

/-- An EVEX form whose own fields raise no #UD, with one of the two doubts, is refused for that doubt. -/
theorem decodeEvexBody_of_doubt {c : Ctx} {lead bs rest : List Byte} {p0 : Byte} {ctl : EvexCtl} {y : Body}
    {r : DecodeRefusal} (mk : Prefixes → EvexCtl → VNum → Operand → BitVec 8 → Instr)
    (hbody : takeBody (c.asz (prefixesOf lead).addrSize) (evexExt p0) bs = some (y, rest))
    (hsp : lead.any (spoilsVex c) = false) (hold : c.old = false) (hud : ctl.undefined y.src = false)
    (hdoubt : evexDoubt c (prefixesOf lead) p0 y.src = some r) :
    decodeEvexBody c lead p0 ctl mk bs = .refused r := by
  simp only [decodeEvexBody, hbody, hsp, hdoubt, hud, hold]
  rfl

theorem high_nibble_iff : ∀ p0 : Byte, fieldTop p0 = 3 → (p0.extractLsb' 4 4 = 15 ↔ p0.extractLsb' 4 2 = 3) := by
  decide +kernel

/-- Settles O29: the family is tested before anything else; the two doubts after the encoding's own #UD conditions. -/
theorem refusalsOutside64BitMode : Obligations.RefusalsOutside64BitMode := by
  intro c lead rest p0 p1 p2 hm htop hlead
  have hl := long_eq_false hm
  refine ⟨fun hvex => ⟨?c5, ?c4⟩, fun hevex => ?evex, fun d src imm hm32 hevex hadm hok hp0 hp1 hp2 hv hvp hb => ?doubts⟩
  case c5 => rw [decode_append_C5 hlead, decodeC5_of_older hl (.inr hvex)]
  case c4 => rw [decode_append_C4 hlead, decodeC4_of_older hl (.inr hvex)]
  case evex => rw [decode_append_62 hlead, decodeEvex_of_older hl (.inr hevex)]
  case doubts =>
    obtain ⟨hfix0, hmap⟩ := evexP0_low p0 hp0
    obtain ⟨hfix1, hpp⟩ := evexP1_low p1 hp1
    obtain ⟨mk, hmk, -⟩ := exists_evexForm hp2
    have hasz : c.asz (prefixesOf lead).addrSize = c.asz (decide ((0x67 : Byte) ∈ lead)) := by rw [prefixesOf_eq]
    obtain ⟨y, hbody, hkind⟩ := takeBody_encode_ext (hasz ▸ hok) (evexExt p0) d imm rest
    have hF3 : (0xF3 : Byte) ∉ lead := fun h => by
      obtain h | h := hadm _ h <;> exact absurd h (by decide)
    have hsp := not_spoilsVex_of_admitted (c := c) (fun x hx => (hadm x hx).imp_right .inl) hF3
    have hold : c.old = false := by simp [Ctx.old, hm32]
    have hud : (evexCtl p1 p2).undefined y.src = false := by
      have hb' : p2.getLsbD 4 = false ∨ ∃ r, y.src = .reg r := hb.imp_right hkind.1
      obtain hb' | ⟨r, hr⟩ := hb'
      · cases y.src <;> simp [-BitVec.getLsbD_eq_getElem, EvexCtl.undefined, evexCtl, hv, hvp, hb']
      · simp [-BitVec.getLsbD_eq_getElem, EvexCtl.undefined, evexCtl, hv, hvp, hr]
    have hdec : decode c (lead ++ 0x62 :: p0 :: p1 :: p2 :: (encodeBody d src imm ++ rest)) =
        decodeEvexBody c lead p0 (evexCtl p1 p2) mk (encodeOperand (d.extractLsb' 0 3) src ++ imm :: rest) := by
      rw [encodeBody_append, decode_append_62 hlead, decodeEvex_of_form _ _ hfix0 hfix1 hpp hmap hmk (.inr ⟨htop, hevex⟩)]
    refine ⟨fun hext => ?_, fun hext h16 ⟨a, ha⟩ => ?_⟩
    · rw [hdec]
      refine decodeEvexBody_of_doubt mk hbody hsp hold hud (if_pos ?_)
      rw [hl, decide_eq_true (mt (high_nibble_iff p0 htop).1 hext)]
      rfl
    · have hmem : ∃ a, y.src = .mem a := by
        cases hy : y.src with
        | reg r => exact nomatch ha.symm.trans (hkind.2 ⟨r, hy⟩).choose_spec
        | mem a => exact ⟨a, rfl⟩
      obtain ⟨a, hy⟩ := hmem
      rw [hdec]
      refine decodeEvexBody_of_doubt mk hbody hsp hold hud ?_
      rw [evexDoubt, (high_nibble_iff p0 htop).2 hext, hy, Ctx.refusesMem16, Operand.mem16, hasz, h16, hm32]
      simp

end Sys2Proof
end

section
/-! SUPPORT. What a step does before it executes, the launch, a loaded program, and the statements about them. -/

namespace Sys2Proof.Machine

/-! ## The step, by what fetching and decoding answer -/

section
variable {s : State}

theorem step_of_fetchStop {r : Refusal} (h : s.fetchStop = some r) : step s = .refused r := by
  simp only [step, h]

variable (hs : s.fetchStop = none)
include hs

theorem step_of_instr {i : Instr} {rest : List Byte} (h : decode s.ctx s.window = .instr i rest) :
    step s = exec i s := by
  simp only [step, hs, h]

theorem step_of_refused {r : DecodeRefusal} (h : decode s.ctx s.window = .refused r) :
    step s = .refused (ofDecodeRefusal r) := by
  simp only [step, hs, h]

end

/-- The window is memory's bytes from ip on, as long as they are the program's (20_memory.md R45). -/
theorem window_eq {s : State} {n : Nat} (hn : n ≤ 15) (hin : ∀ k < n, InProgram s (s.codeByte k))
    (hout : n = 15 ∨ ¬InProgram s (s.codeByte n)) :
    s.window = (List.range n).map fun k => memRead s.mem (s.codeByte k) := by
  have h : s.window = _ := fetchFrom_eq s 0 n 15 hn (fun k hk => by rw [Nat.zero_add]; exact hin k hk) (by rwa [Nat.zero_add])
  simpa only [Nat.zero_add] using h

/-- Bytes that all may lead end before an opcode does. -/
theorem decode_of_all_leading {c : Ctx} {bytes : List Byte} (h : ∀ x ∈ bytes, isLeading c x = true) :
    decode c bytes = .truncated := by
  have hsplit := splitLeading_append_left h []
  rw [List.append_nil] at hsplit
  simp only [decode, hsplit]
  rfl

/-- Settles O49: the arms of `step`, and the window byte by byte. -/
theorem stepRunsDecoded : Obligations.StepRunsDecoded := by
  refine ⟨fun s i rest hs h => step_of_instr hs h, fun s hs => ⟨step_of_undefined hs, fun h => ?truncated, fun r h => ?refused⟩,
    fun s n hn hin hout => window_eq hn hin hout⟩
  case truncated => exact step_of_truncated hs h
  case refused =>
    rw [step_of_refused hs h]
    cases r <;> rfl

/-- Settles O50: fifteen legacy bytes are a whole window that ends too soon. -/
theorem tooLongRaisesGp : Obligations.TooLongRaisesGp := by
  intro s hs hlen hlead
  rw [step_of_truncated hs (decode_of_all_leading hlead)]
  exact if_pos hlen

/-! ## What stops a step before decoding -/

theorem not_debugOn_iff (s : State) : s.debugOn = false ↔ s.rflags.getLsbD 8 = false ∧ s.breakpointsArmed = false := by
  rw [State.debugOn, Bool.or_eq_false_iff]

theorem codeWraps_of_not_clear {s : State} (h : ¬ClearOfTop s) : s.codeWraps = true :=
  Bool.eq_true_of_not_eq_false (mt (codeWraps_eq_false_iff s).1 h)

/-- Outside the program nothing is fetched. -/
theorem step_of_not_inProgram {s : State} (hs : s.fetchStop = none) (h : ¬InProgram s (s.codeByte 0)) :
    step s = .refused .codeNotFetchable := by
  have hw : s.window = [] := window_eq (Nat.zero_le 15) (fun k hk => absurd hk (Nat.not_lt_zero k)) (.inr h)
  rw [step_of_truncated hs (by rw [hw]; rfl), State.overrun, hw]
  rfl

/-- Settles O51: the tests of `fetchStop` in their order, then the empty window. -/
theorem stepsRefusedBeforeDecoding : Obligations.StepsRefusedBeforeDecoding := by
  refine fun s => ⟨fun h => step_of_fetchStop (if_pos ((debugOn_iff s).2 h)), fun hstep hbp => ?_⟩
  have hdebug := (not_debugOn_iff s).2 ⟨hstep, hbp⟩
  have hnone := fun hclear hcan => (fetchStop_eq_none_iff s).2 ⟨hdebug, hclear, hcan⟩
  refine ⟨fun h => ?wraps, hnone, fun hclear h => ?outside⟩
  case wraps =>
    refine step_of_fetchStop ?_
    rw [State.fetchStop, hdebug, codeWraps_of_not_clear h]
    rfl
  case outside =>
    by_cases hcan : s.mode = .mode64 → canonical s.cpu.laWidth s.ip.toNat = true
    · refine step_of_not_inProgram (hnone hclear hcan) (h.resolve_left fun ⟨hm, hc⟩ => ?_)
      exact Bool.false_ne_true (hc.symm.trans (hcan hm))
    · obtain ⟨hm, hc⟩ : s.mode = .mode64 ∧ canonical s.cpu.laWidth s.ip.toNat = false := by simpa using hcan
      refine step_of_fetchStop ?_
      rw [State.fetchStop, hdebug, (codeWraps_eq_false_iff s).2 hclear, hm, hc]
      rfl

/-! ## The launch -/

theorem older_iff (s : State) :
    (decide (s.mode = .real) || decide (s.mode = .v86)) = true ↔ ¬(s.mode = .mode64 ∨ s.mode = .mode32) := by
  cases s.mode <;> simp

/-- What a launch answers, by the first premise that fails (70_reset_and_hazards.md R163; log 30). -/
theorem launch_cases (s : State) :
    (¬(s.mode = .mode64 ∨ s.mode = .mode32) ∧ launch s = .refused .unsupportedMode) ∨
      (s.mode = .mode64 ∨ s.mode = .mode32) ∧
        (AlignmentChecked s ∧ launch s = .refused .alignmentCheckEnabled ∨
          ¬AlignmentChecked s ∧
            ((s.rflags.getLsbD 8 = true ∨ s.breakpointsArmed = true) ∧ launch s = .refused .debugEnabled ∨
              ¬(s.rflags.getLsbD 8 = true ∨ s.breakpointsArmed = true) ∧
                (¬ClearOfTop s ∧ launch s = .refused .ipWrap ∨ ClearOfTop s ∧ launch s = .next s))) := by
  rw [← alignmentChecking_iff, ← debugOn_iff, ← codeWraps_eq_false_iff, launch, launchCheck]
  by_cases hold : (decide (s.mode = .real) || decide (s.mode = .v86)) = true
  · exact .inl ⟨(older_iff s).1 hold, by rw [hold]; rfl⟩
  · have hnew : s.mode = .mode64 ∨ s.mode = .mode32 := not_not.1 (mt (older_iff s).2 hold)
    refine .inr ⟨hnew, ?_⟩
    rw [Bool.eq_false_of_not_eq_true hold]
    cases s.alignmentChecking <;> cases s.debugOn <;> cases s.codeWraps <;> simp

/-- Settles O52: each clause is one of the cases of a launch, and the others contradict its premises. -/
theorem launchPremises : Obligations.LaunchPremises := by
  intro s mode ac debug
  have hcases : ¬mode ∧ launch s = .refused .unsupportedMode ∨ mode ∧ (ac ∧ launch s = .refused .alignmentCheckEnabled ∨
      ¬ac ∧ (debug ∧ launch s = .refused .debugEnabled ∨ ¬debug ∧
        (¬ClearOfTop s ∧ launch s = .refused .ipWrap ∨ ClearOfTop s ∧ launch s = .next s))) := launch_cases s
  clear_value mode ac debug
  obtain ⟨hm, hl⟩ | ⟨hm, ⟨ha, hl⟩ | ⟨ha, ⟨hd, hl⟩ | ⟨hd, ⟨hc, hl⟩ | ⟨hc, hl⟩⟩⟩⟩ := hcases
  · simp [hl, hm]
  · simp [hl, hm, ha]
  · simp [hl, hm, ha, hd]
  · simp [hl, hm, ha, hd, hc]
  · simp [hl, hm, ha, hd, hc]

/-! ## A loaded program -/

theorem loadIp_lt (s : State) : s.loadIp.toNat + 30 < 2 ^ 47 := by
  unfold State.loadIp
  split
  · assumption
  · decide

section
variable (s : State) (bytes : List Byte)

@[simp] theorem load_mode : (s.load bytes).mode = .mode64 := rfl
@[simp] theorem load_ip : (s.load bytes).ip = s.loadIp := rfl
@[simp] theorem load_cpu : (s.load bytes).cpu = s.cpu := rfl
@[simp] theorem load_program :
    (s.load bytes).program = some { base := s.loadIp.toNat, size := bytes.length } := rfl
@[simp] theorem load_breakpointsArmed : (s.load bytes).breakpointsArmed = false := rfl
@[simp] theorem load_rflags : (s.load bytes).rflags = s.rflags &&& ~~~0x40100#64 := rfl
@[simp] theorem load_cr0 : (s.load bytes).cr0 = s.cr0 &&& ~~~0xC#64 := rfl
@[simp] theorem load_cr4 : (s.load bytes).cr4 = s.cr4 ||| 0x40200#64 := rfl
@[simp] theorem load_xcr0 : (s.load bytes).xcr0 = s.xcr0 ||| 0xE6#64 := rfl

end

theorem load_codeByte (s : State) (bytes : List Byte) (k : Nat) : (s.load bytes).codeByte k = s.loadIp.toNat + k := rfl

theorem inProgram_load_iff (s : State) (bytes : List Byte) (a : Nat) :
    InProgram (s.load bytes) a ↔ s.loadIp.toNat ≤ a ∧ a < s.loadIp.toNat + bytes.length :=
  ⟨fun ⟨_, hr, h⟩ => by obtain rfl := Option.some.inj hr; exact h, fun h => ⟨_, rfl, h⟩⟩

theorem runOver_iff (s : State) : s.runOver = true ↔ ∃ r, s.program = some r ∧ s.codeByte 0 = r.base + r.size := by
  rw [State.runOver, Option.any_eq_true]
  exact exists_congr fun r => and_congr_right fun _ => decide_eq_true_iff

/-- Settles O53: ip against the end of the one program, which a load puts at ip. -/
theorem runEndsAtProgramEnd : Obligations.RunEndsAtProgramEnd := by
  refine fun s => ⟨runOver_iff s, fun bytes hne => ⟨?_, rfl⟩⟩
  rw [← Bool.not_eq_true, runOver_iff]
  rintro ⟨r, hr, h⟩
  obtain rfl := Option.some.inj hr
  have hpos := List.length_pos_of_ne_nil hne
  have hlen : s.loadIp.toNat + 0 = s.loadIp.toNat + bytes.length := h
  omega

/-- A loaded program of at most fifteen bytes keeps clear of every boundary, and nothing stops its fetch. -/
theorem fetchStop_load {s : State} {bytes : List Byte} (hlen : bytes.length ≤ 15) : (s.load bytes).fetchStop = none := by
  have hip := loadIp_lt s
  refine (fetchStop_eq_none_iff _).2 ⟨?debug, ?clear, fun _ => ?canonical⟩
  case debug =>
    rw [not_debugOn_iff]
    exact ⟨by simp, rfl⟩
  case clear =>
    have hbelow : ∀ top, 2 ^ 47 ≤ top → ¬(s.loadIp.toNat < top ∧ top ≤ s.loadIp.toNat + 15) ∧
        ¬(s.loadIp.toNat < top ∧ top < s.loadIp.toNat + bytes.length + 15) := fun top h => by omega
    unfold ClearOfTop
    simp only [load_mode, load_ip, load_cpu, load_program, Option.some.injEq, forall_eq']
    refine List.forall_mem_cons.2 ⟨hbelow _ ?_, List.forall_mem_cons.2 ⟨hbelow _ (by decide), nofun⟩⟩
    cases s.cpu.laWidth <;> decide
  case canonical =>
    show canonical s.cpu.laWidth s.loadIp.toNat = true
    have hhalf : 2 ^ 47 ≤ canonicalHalf s.cpu.laWidth := by cases s.cpu.laWidth <;> decide
    rw [canonical, Bool.or_eq_true, decide_eq_true_eq]
    exact .inl (by omega)

/-- The window of a loaded program is the program. -/
theorem window_load {s : State} {bytes : List Byte} (hmem : memWf s.mem = true) (hlen : bytes.length ≤ 15) :
    (s.load bytes).window = bytes := by
  have hip := loadIp_lt s
  rw [window_eq hlen (fun k hk => (inProgram_load_iff s bytes _).2 ⟨Nat.le_add_right _ k, Nat.add_lt_add_left hk _⟩)
    (.inr fun h => Nat.lt_irrefl _ ((inProgram_load_iff s bytes _).1 h).2)]
  refine List.ext_getElem (by simp) fun k _ hk => ?_
  rw [List.getElem_map, List.getElem_range, load_codeByte]
  show memRead (memWriteList s.mem s.loadIp.toNat bytes) _ = _
  rw [memRead_memWriteList hmem _ _ (by omega), if_pos (by omega), Nat.add_sub_cancel_left, List.getD_eq_getElem _ _ hk]

/-- A loaded machine has every form enabled that it supports (70_reset_and_hazards.md R162). -/
theorem enabled_load {s : State} {f : Form} (bytes : List Byte) (hsup : f.supported s.cpu.features = true)
    (hvl : f.lanes ≤ s.cpu.maxvl.lanes) : Enabled f (s.load bytes) := by
  refine ⟨⟨hsup, hvl, ?_⟩, by simp⟩
  cases f with
  | sse => exact ⟨by simp, by simp⟩
  | vex128 | vex256 => exact ⟨.inl rfl, by simp, by simp, by simp⟩
  | evex128 | evex256 | evex512 => exact ⟨.inl rfl, by simp, by simp, by simp, by simp, by simp, by simp⟩

theorem length_encode (i : Instr) : (encode i).length = i.length := by
  cases i with
  | sse => exact Laws.EncodeLength.sse ..
  | sseRex => exact Laws.EncodeLength.sseRex ..
  | vex128C5 => exact Laws.EncodeLength.vex128C5 ..
  | vex128C4 => exact Laws.EncodeLength.vex128C4 ..
  | vex256C5 => exact Laws.EncodeLength.vex256C5 ..
  | vex256C4 => exact Laws.EncodeLength.vex256C4 ..
  | evex128 => exact Laws.EncodeLength.evex128 ..
  | evex256 => exact Laws.EncodeLength.evex256 ..
  | evex512 => exact Laws.EncodeLength.evex512 ..

/-- With a register source: two overrides, five opcode bytes, ModRM and the immediate at most. -/
theorem length_le_of_reg {i : Instr} {r : VNum} (h : i.source = .reg r) : i.length ≤ 15 := by
  have hopcode : i.opcodeSize ≤ 5 := by cases i <;> exact Nat.le_of_ble_eq_true rfl
  have hprefixes : i.prefixes.size ≤ 2 := by
    unfold Prefixes.size
    split <;> split <;> decide
  rw [Instr.length, h, Operand.size]
  omega

/-- Settles O54: the loaded bytes are fetched and decode to the instruction, whose form is enabled and whose source needs
no memory. -/
theorem loadedInstructionRuns : Obligations.LoadedInstructionRuns := by
  intro s i r hmem hsrc hf hsup hvl hwf
  have hbytes : (encode i).length = i.length := length_encode i
  have hlen : (encode i).length ≤ 15 := hbytes ▸ length_le_of_reg hsrc
  have hip := loadIp_lt s
  have hdec := decodeEncodeRoundTrip s.launched.ctx i [] hwf
  rw [List.append_nil, ← window_load hmem hlen] at hdec
  have hready : SourceReady i.form (s.load (encode i)) i.prefixes i.length i.source := by
    rw [hsrc]
    trivial
  obtain ⟨t, ht⟩ : ∃ t, exec i (s.load (encode i)) = .next t := ⟨_, exec_of_ready hf (enabled_load _ hsup hvl) hready⟩
  obtain ⟨-, htip, hsame⟩ := exec_frame ht
  have hto : t.ip.toNat = (s.load (encode i)).ip.toNat + i.length := by
    rw [htip]
    show (s.loadIp.toNat + i.length) % 2 ^ 64 = s.loadIp.toNat + i.length
    omega
  refine ⟨t, by rw [step_of_instr (fetchStop_load hlen) hdec, ht], ?_, hto, ht⟩
  have hprog : t.program = some { base := s.loadIp.toNat, size := (encode i).length } := by rw [hsame]; rfl
  have hmode : t.mode = .mode64 := by rw [hsame]; rfl
  refine (runOver_iff t).2 ⟨_, hprog, ?_⟩
  rw [State.codeByte, hmode, hbytes]
  exact hto

end Sys2Proof.Machine
end

section
/-! SUPPORT. Address arithmetic at the two narrower sizes, canonical addresses bit by bit, and the statements about
addresses, the control fields of an encoding, exception records, samples and the state after reset. -/

namespace Sys2Proof.Machine

/-! ## Addresses -/

theorem setWidth_signExtend_of_le {w v u : Nat} (h : v ≤ u) (x : BitVec w) :
    (x.signExtend u).setWidth v = x.signExtend v := by
  ext i hi
  simp only [BitVec.getElem_setWidth, BitVec.getLsbD_signExtend, BitVec.getElem_signExtend,
    decide_eq_true (Nat.lt_of_lt_of_le hi h), Bool.true_and]
  rfl

section
variable (s : State) (i x : GNum) (sc : BitVec 2)

theorem setWidth_getG_a32 : (s.getG .a32 i).setWidth 32 = (s.getG .a64 i).setWidth 32 :=
  BitVec.setWidth_setWidth_of_le _ (by decide)

theorem setWidth_getG_a16 : (s.getG .a16 i).setWidth 16 = (s.getG .a64 i).setWidth 16 :=
  BitVec.setWidth_setWidth_of_le _ (by decide)

theorem indexValue_of_ne {x : GNum} (h : x ≠ 4) (asz : AddrSize) : s.indexValue asz x sc = s.getG asz x <<< sc.toNat :=
  if_neg h

theorem indexValue_four (asz : AddrSize) : s.indexValue asz 4#4 sc = 0 := if_pos rfl

end

/-- The eight register sums of 16-bit addressing, in the low halves of BX = 3, BP = 5, SI = 6 and DI = 7
(30_encoding.md R66). -/
theorem setWidth_base16 (s : State) :
    (s.base16 0#3).setWidth 16 = (s.getG .a64 3#4).setWidth 16 + (s.getG .a64 6#4).setWidth 16 ∧
      (s.base16 1#3).setWidth 16 = (s.getG .a64 3#4).setWidth 16 + (s.getG .a64 7#4).setWidth 16 ∧
      (s.base16 2#3).setWidth 16 = (s.getG .a64 5#4).setWidth 16 + (s.getG .a64 6#4).setWidth 16 ∧
      (s.base16 3#3).setWidth 16 = (s.getG .a64 5#4).setWidth 16 + (s.getG .a64 7#4).setWidth 16 ∧
      (s.base16 4#3).setWidth 16 = (s.getG .a64 6#4).setWidth 16 ∧
      (s.base16 5#3).setWidth 16 = (s.getG .a64 7#4).setWidth 16 ∧
      (s.base16 6#3).setWidth 16 = (s.getG .a64 5#4).setWidth 16 ∧
      (s.base16 7#3).setWidth 16 = (s.getG .a64 3#4).setWidth 16 := by
  simp [State.base16, BitVec.setWidth_add, setWidth_getG_a16]

theorem offset_idx16 (s : State) (n len : Nat) (form : BitVec 3) (disp : Disp) :
    s.offset .a16 n len (.idx16 form disp) =
      ((s.base16 form).setWidth 16 + (dispValue n disp).setWidth 16).setWidth 64 := by
  rw [← BitVec.setWidth_add _ _ (by decide)]
  rfl

theorem not_mode64 {s : State} (h : s.mode ≠ .mode64) : s.mode = .mode32 ∨ s.mode = .real ∨ s.mode = .v86 := by
  cases hm : s.mode <;> simp_all

/-- Settles O33: sums truncated to 32 or 16 bits are sums of the truncated parts. -/
theorem addressFormation : Obligations.AddressFormation := by
  intro s n len b x sc w h v off r disp k G
  have hw : (w.signExtend 64).setWidth 32 = w := (setWidth_signExtend_of_le (by decide) w).trans (BitVec.signExtend_eq w)
  have hh : (h.signExtend 64).setWidth 16 = h := (setWidth_signExtend_of_le (by decide) h).trans (BitVec.signExtend_eq h)
  have hv : (v.signExtend 64).setWidth 16 = v.signExtend 16 := setWidth_signExtend_of_le (by decide) v
  have hadd32 : ∀ y z : Word64, (y + z).setWidth 32 = y.setWidth 32 + z.setWidth 32 := fun y z =>
    BitVec.setWidth_add y z (by decide)
  have hshift32 : ∀ y : Word64, (y <<< sc.toNat).setWidth 32 = y.setWidth 32 <<< sc.toNat := fun y =>
    BitVec.setWidth_shiftLeft_of_le (by decide)
  have hbase := setWidth_base16 s
  refine ⟨⟨rfl, rfl, rfl⟩, ?asz64, ?asz32, ?asz16, ?base64, ?base32, ?sib64, ?sib64none, ?noBase64, ?noBase64none, ?a32,
    ?disp32, ?a16, ?disp16, rfl, rfl, ?linear, ?byte64, ?byte32⟩
  case asz64 => exact fun hm => ⟨asz_of_mode64 hm _, asz_of_mode64 hm _⟩
  case asz32 =>
    intro hm hd
    obtain hm | hm | hm := not_mode64 hm <;> simp [State.asz, addrSizeOf, hm, hd]
  case asz16 =>
    intro hm hd
    obtain hm | hm | hm := not_mode64 hm <;> simp [State.asz, addrSizeOf, hm, hd]
  case base64 => simp [State.offset, truncAddr, dispValue]
  case base32 => simp only [State.offset, truncAddr, dispValue, hadd32, setWidth_getG_a32]
  case sib64 => exact fun hx => by simp [State.offset, truncAddr, dispValue, indexValue_of_ne s sc hx]
  case sib64none => simp [State.offset, truncAddr, dispValue, indexValue_four]
  case noBase64 => exact fun hx => by simp only [State.offset, truncAddr, indexValue_of_ne s sc hx]
  case noBase64none => simp [State.offset, truncAddr, indexValue_four]
  case a32 =>
    refine ⟨?_, fun hx => ?_, ?_, fun hx => ?_, ?_⟩
    · simp [State.offset, truncAddr, dispValue, setWidth_getG_a32]
    · simp [State.offset, truncAddr, dispValue, indexValue_of_ne s sc hx, hadd32, hshift32, setWidth_getG_a32]
    · simp [State.offset, truncAddr, dispValue, indexValue_four, setWidth_getG_a32]
    · simp only [State.offset, truncAddr, indexValue_of_ne s sc hx, hadd32, hshift32, setWidth_getG_a32, hw]
    · simp [State.offset, truncAddr, indexValue_four, hw]
  case disp32 =>
    intro hm
    obtain hm | hm | hm := not_mode64 hm <;> simp only [State.offset, hm, truncAddr, hw]
  case a16 =>
    refine ⟨?_, ?_, ?_⟩
    · simp [offset_idx16, dispValue, hv, hbase]
    · simp [offset_idx16, dispValue, hh, hbase]
    · simp [offset_idx16, dispValue, hbase]
  case disp16 => simp only [State.offset, truncAddr, hh]
  case linear =>
    intro hm
    obtain hm | hm | hm := not_mode64 hm <;> simp only [State.linear, State.segBase, hm, truncAddr]
  case byte64 => exact fun hm => by simp only [State.byteAddr, hm]
  case byte32 =>
    intro hm
    obtain hm | hm | hm := not_mode64 hm <;> simp only [State.byteAddr, hm]

/-- Settles O32: the cases of `defaultSeg`, `segOf` and `linear`. -/
theorem segmentSelection : Obligations.SegmentSelection := by
  intro s p b x sc disp w off
  refine ⟨rfl, rfl, rfl, rfl, fun a h => segOf_of_noOverride h s a, fun a r h hm => ?older, fun a r h hm => ?newer,
    fun hm => ?bases, by decide⟩
  case older => obtain hm | hm | hm := not_mode64 hm <;> simp only [State.segOf, h, hm]
  case newer => simp only [State.segOf, h, hm]
  case bases =>
    have hlinear : ∀ r, s.linear r off = s.segBase r + off := fun r => by simp only [State.linear, hm]
    simp [hlinear, State.segBase, hm, State.segment]

/-! ## Canonical addresses -/

/-- A 64-bit number below 2^k has its bits from k up clear. -/
theorem toNat_lt_two_pow_iff (x : Word64) (k : Nat) :
    x.toNat < 2 ^ k ↔ ∀ j, k ≤ j → j < 64 → x.getLsbD j = false := by
  constructor
  · intro h j hj _
    exact Nat.testBit_lt_two_pow (Nat.lt_of_lt_of_le h (Nat.pow_le_pow_right (by decide) hj))
  · intro h
    refine Nat.lt_pow_two_of_testBit _ fun j hj => ?_
    rcases Nat.lt_or_ge j 64 with h64 | h64
    · exact h j hj h64
    · exact BitVec.getLsbD_of_ge x j h64

/-- One in the high half has them all set. -/
theorem sub_two_pow_le_toNat_iff (x : Word64) {k : Nat} (hk : k < 64) :
    2 ^ 64 - 2 ^ k ≤ x.toNat ↔ ∀ j, k ≤ j → j < 64 → x.getLsbD j = true := by
  have hlt := x.isLt
  have hpow : 2 ^ k < 2 ^ 64 := Nat.pow_lt_pow_right (by decide) hk
  have hnot : (~~~x).toNat < 2 ^ k ↔ 2 ^ 64 - 2 ^ k ≤ x.toNat := by
    rw [BitVec.toNat_not]
    omega
  rw [← hnot, toNat_lt_two_pow_iff]
  refine forall_congr' fun j => forall_congr' fun _ => forall_congr' fun h64 => ?_
  rw [BitVec.getLsbD_not, decide_eq_true h64, Bool.true_and, Bool.not_eq_false']

/-- R39, for a half of 2^k addresses: bits 63 down to k are equal. -/
theorem canonical_iff_bits {w : LaWidth} {k : Nat} (hw : canonicalHalf w = 2 ^ k) (hk : k < 64) (x : Word64) :
    canonical w x.toNat = true ↔ ∀ j, k ≤ j → j < 64 → x.getLsbD j = x.getLsbD 63 := by
  have hsplit : canonical w x.toNat = true ↔ x.toNat < 2 ^ k ∨ 2 ^ 64 - 2 ^ k ≤ x.toNat := by
    rw [canonical, hw, Bool.or_eq_true, Bool.and_eq_true, decide_eq_true_eq, decide_eq_true_eq, decide_eq_true_eq,
      and_iff_left x.isLt]
  rw [hsplit, toNat_lt_two_pow_iff, sub_two_pow_le_toNat_iff x hk]
  constructor
  · rintro (h | h) j hj h64
    · rw [h j hj h64, h 63 (by omega) (by decide)]
    · rw [h j hj h64, h 63 (by omega) (by decide)]
  · intro h
    cases h63 : x.getLsbD 63 with
    | false => exact .inl fun j hj h64 => (h j hj h64).trans h63
    | true => exact .inr fun j hj h64 => (h j hj h64).trans h63

/-- Settles O60: both widths are instances of R39's rule; an address of 2^64 or more is in neither half. -/
theorem canonicalAddresses : Obligations.CanonicalAddresses := by
  refine ⟨fun lin => ⟨canonical_iff_bits rfl (by decide) lin, canonical_iff_bits rfl (by decide) lin⟩, fun w a h => ?_⟩
  have hhalf : canonicalHalf w ≤ 2 ^ 64 := by cases w <;> decide
  rw [canonical, decide_eq_false (by omega), decide_eq_false (Nat.not_lt.2 h), Bool.and_false]
  rfl

/-! ## The control fields of an encoding -/

section
variable {i : Instr} {s : State}

theorem exec_of_udFields (h : udFields i = true) : exec i s = .fault .ud := by
  rw [exec_eq, h]
  rfl

/-- The refusal of a doubtful EVEX encoding comes before #NM (log 19). -/
theorem exec_of_refusedFields {r : Refusal} (hu : udFields i = false) (hp : Powered i.form s)
    (h : refusedFields i = some r) : exec i s = .refused r := by
  rw [exec_eq, hu, h, guarded, (notEnabled_eq_false_iff _ _).2 hp]
  rfl

end

/-- The control fields of an EVEX instruction, one statement for the three constructors. -/
theorem evex_fields {f : Form} {i : Instr} {p : Prefixes} {e : EvexCtl} {d : VNum} {src : Operand} {imm : BitVec 8}
    (hi : (f = .evex128 ∧ i = .evex128 p e d src imm) ∨ (f = .evex256 ∧ i = .evex256 p e d src imm) ∨
      (f = .evex512 ∧ i = .evex512 p e d src imm)) :
    i.form = f ∧ udFields i = e.undefined src ∧ refusedFields i = e.refusal src := by
  obtain ⟨rfl, rfl⟩ | ⟨rfl, rfl⟩ | ⟨rfl, rfl⟩ := hi <;> exact ⟨rfl, rfl, rfl⟩

/-- Settles O34: `vvvv` and V' are among the fields' own #UD conditions. -/
theorem vvvvMustBeOnes : Obligations.VvvvMustBeOnes := by
  refine fun s p v e d src imm => ⟨fun h => ?vex, fun h => ?evex⟩
  case vex =>
    have hud : decide (v ≠ 15) = true := decide_eq_true h
    exact ⟨exec_of_udFields hud, exec_of_udFields hud, exec_of_udFields hud, exec_of_udFields hud⟩
  case evex =>
    have hud : e.undefined src = true := by
      obtain h | h := h
      · have hne : e.vvvv ≠ 15#4 := h
        simp [EvexCtl.undefined, hne]
      · simp [EvexCtl.undefined, h]
    exact ⟨exec_of_udFields hud, exec_of_udFields hud, exec_of_udFields hud⟩

/-- Settles O35: b = 1 is a #UD condition of a memory operand and a refusal of a register operand. -/
theorem evexBBit : Obligations.EvexBBit := by
  intro f i p e d src imm s hi hb
  obtain ⟨rfl, hud, hrefused⟩ := evex_fields hi
  refine ⟨?_, ?_⟩
  · rintro a rfl
    exact exec_of_udFields (by simp [hud, EvexCtl.undefined, hb])
  · rintro r rfl hv hvp hp
    exact exec_of_refusedFields (by simp [hud, EvexCtl.undefined, hv, hvp]) hp (by simp [hrefused, EvexCtl.refusal, hb])

/-- Settles O36: no field is a #UD condition, and zeroing without a mask is a refusal of either operand. -/
theorem zeroingWithoutMaskIsRefused : Obligations.ZeroingWithoutMaskIsRefused := by
  intro f i p e d src imm s hi hv hvp hb hz haaa hp
  obtain ⟨rfl, hud, hrefused⟩ := evex_fields hi
  have hud' : udFields i = false := by cases src <;> simp [hud, EvexCtl.undefined, hv, hvp, hb]
  exact exec_of_refusedFields hud' hp (by cases src <;> simp [hrefused, EvexCtl.refusal, hb, hz, haaa])

/-- Settles O39: `Powered` asks for the CPUID condition and for VL. -/
theorem unsupportedFormsRaiseUd : Obligations.UnsupportedFormsRaiseUd := by
  refine ⟨fun i s h => exec_of_not_powered fun ⟨hsup, hvl, _⟩ => ?_, fun c => ⟨rfl, rfl, rfl, rfl, rfl, rfl⟩⟩
  obtain h | h := h
  · exact Bool.false_ne_true (h.symm.trans hsup)
  · omega

/-! ## Records, samples and the state after reset -/

theorem setWidth_pageFaultCode : ∀ present user reserved, (pageFaultCode present user reserved).setWidth 32 =
    BitVec.ofNat 32 (present.toNat + 4 * user.toNat + 8 * reserved.toNat) := by decide

/-- Settles O47: the table of R139, and the error code of a page fault at each of its bits. -/
theorem exceptionRecords : Obligations.ExceptionRecords :=
  ⟨rfl, fun present user reserved _ => ⟨rfl, rfl, congrArg some (setWidth_pageFaultCode present user reserved)⟩⟩

/-- Settles O20: the decoder run on each string. -/
theorem decodeSampleWords : Obligations.DecodeSampleWords := by
  unfold Obligations.DecodeSampleWords
  decide

/-- Settles O56: every register holds zero, and ip is FFF0H. -/
theorem resetMeetsInvariant : Obligations.ResetMeetsInvariant := by
  have hzero : ∀ i : VNum, State.reset.getV i = VReg.zero := by decide
  refine ⟨rfl, fun i => ?_, fun i _ => hzero i, ?_⟩
  · rw [hzero, fit_zero]
  · show State.reset.ip.toNat < 2 ^ 32
    decide

/-- Settles O57: after reset OSFXSR is clear, and the mode is one that no VEX or EVEX form executes in. -/
theorem everyFormRaisesUdAfterReset : Obligations.EveryFormRaisesUdAfterReset := by
  refine fun i => exec_of_not_powered fun hp => ?_
  by_cases hf : i.form = .sse
  · rw [hf] at hp
    obtain ⟨-, -, -, hosfxsr⟩ := hp
    exact absurd hosfxsr (by decide)
  · obtain ⟨hmode, -⟩ := hp.avxState hf
    exact absurd hmode (by decide)

end Sys2Proof.Machine
end
